-- ==== Sys2Proof/Word.lean ====
section
/-! DEFINITION. The two value types of BHE-1: a 32-bit register word and a byte of system memory
(spec/00_scope.md R5, spec/20_memory.md R26). -/

namespace Sys2Proof

/-- A 32-bit register value, `u32` of R7. -/
abbrev Word := BitVec 32

/-- One byte of system memory, the only unit the master port moves (R26). -/
abbrev Byte := BitVec 8

end Sys2Proof
end

