-- ==== Sys2Proof/Config.lean ====
section
/-! DEFINITION. What an implementation or a platform fixes (spec/00_scope.md R5, R6) and the free values
the spec leaves open. The opaque constants have no body: nothing can be proved of their values. -/

namespace Sys2Proof

/-- The two kinds of master-port access (R6, R26). -/
inductive AccessKind where
  | read
  | write
deriving DecidableEq, Repr

/-- A range of addresses the platform lets the master port reach: one piece of `P_MEM_OK` (R6). -/
structure Region where
  base : Nat
  size : Nat
  readable : Bool
  writable : Bool
deriving DecidableEq, Repr, Inhabited

/-- `P_PACK_COMBINE` (R6): how a widened byte lane joins the packing accumulator (41_hash.md R51). -/
inductive PackCombine where
  | orLane
  | addLane
deriving DecidableEq, Repr, Inhabited

/-- The open parameters of R6. Assumption log 5 (DESIGN CHOICE, safe): a machine carries them as one
constant field of its state, so that a claim about every state is a claim about every platform. -/
structure Platform where
  /-- `P_BASE`, the system address of register offset 0x000. -/
  base : Word
  /-- `P_MEM_OK`, as the list of what is permitted; any predicate on 32-bit addresses has this form
  (assumption log 6). -/
  memMap : List Region
  /-- `P_PACK_COMBINE`. -/
  combine : PackCombine
  /-- `P_COHERENT`: the master port is coherent with the host's caches. -/
  coherent : Bool
deriving DecidableEq, Repr, Inhabited

/-- The platform `State.reset` stands in: any platform at all (R6, "no rule may assume a particular
value"). -/
opaque Config.platform : Platform

/-- What the n-th free draw gives a host that reads a register while BUSY (R88: "a model draws the
value freely"; assumption log 7). -/
opaque Config.busyReadValue : Nat → Word

/-- What the n-th free draw shows of a byte whose cache maintenance was skipped when `P_COHERENT` is
false (93_implementation_defined.md U8; assumption log 10). -/
opaque Config.incoherentByte : Nat → Byte

/-- How many accesses of an aborted command were performed, at the n-th free draw (R85: "a model draws
it"; assumption log 9). -/
opaque Config.abortedAccesses : Nat → Nat

/-- `P_ADDR_W` (R5). -/
def Config.addrWidth : Nat := 32

/-- The size of the register window in bytes (R5). -/
def Config.windowSize : Nat := 256

/-- The ID register's hardwired value (R5, 10_state.md R11). -/
def Config.idWord : Word := 0x42480001#32

end Sys2Proof
end

