-- ==== Sys2Proof/Machine/Memory.lean ====
section
/-! DEFINITION. System memory: a byte for each 32-bit address (spec/00_scope.md R9, spec/20_memory.md R26),
as the list of the bytes that differ from what an unlisted address reads as. -/

namespace Sys2Proof.Machine

/-- Address and byte pairs, addresses strictly rising, none equal to the unlisted byte (`Memory.wf`). -/
abbrev Memory := List Host.Cell

/-- What an address that is not listed reads as. The spec gives memory no power-on contents.
Assumption log 4 (DESIGN CHOICE, unsafe). -/
def Memory.unlisted : Byte := 0#8

/-- The byte at an address: `mem[addr]` of R26. -/
def Memory.read : Memory → Nat → Byte
  | [], _ => Memory.unlisted
  | (k, b) :: rest, a => if k = a then b else Memory.read rest a

/-- Put an entry in front, unless it says what an unlisted address reads as anyway. -/
def Memory.put (a : Nat) (v : Byte) (rest : Memory) : Memory :=
  if v = Memory.unlisted then rest else (a, v) :: rest

/-- `mem[addr] <- v` of R26, in canonical form. -/
def Memory.write : Memory → Nat → Byte → Memory
  | [], a, v => Memory.put a v []
  | (k, b) :: rest, a, v =>
    if a < k then Memory.put a v ((k, b) :: rest)
    else if a = k then Memory.put a v rest
    else (k, b) :: Memory.write rest a v

/-- Canonical form of a list whose addresses are all at least `lo`. -/
def Memory.wfFrom : Nat → Memory → Bool
  | _, [] => true
  | lo, (a, v) :: rest =>
    decide (lo ≤ a) && decide (a < 2 ^ 32) && decide (v ≠ Memory.unlisted) && Memory.wfFrom (a + 1) rest

/-- The canonical form: addresses strictly rising and below 2^32, no entry equal to the unlisted byte. -/
def Memory.wf (m : Memory) : Bool := Memory.wfFrom 0 m

end Sys2Proof.Machine
end

