-- ==== Sys2Proof/Machine/State.lean ====
section
/-! DEFINITION. The state of BHE-1 (spec/10_state.md, spec/00_scope.md R9), the reasons a step can stop,
and the state after hardware reset (spec/70_reset_and_hazards.md R85). -/

namespace Sys2Proof.Machine

/-- The error codes of STATUS.ERR (60_exceptions.md R71); 5 to 15 are never reported. -/
inductive ErrCode where
  | noError
  | illegal
  | notsup
  | bounds
  | buserr
deriving DecidableEq, Repr

/-- The engine phase (R9, R25): `Idle` or `Busy(c)`, c the accepted command word. -/
inductive Phase where
  | idle
  | busy (c : Word)
deriving DecidableEq, Repr

/-- Who acts on the register port or on system memory, other than this engine (R9, R83, R90). -/
inductive Agent where
  | host (n : Nat)
  | otherEngine (n : Nat)
  | dma (n : Nat)
deriving DecidableEq, Repr

/-- The width of an access to the register window (20_memory.md R28). -/
inductive Width where
  | bits8
  | bits16
  | bits32
  | bits64
deriving DecidableEq, Repr

/-- What the outside world does to the machine, between engine steps. -/
inductive Event where
  /-- A read in the register window, at a byte offset from `P_BASE` (42_system.md R66, R68). -/
  | regRead (agent : Agent) (width : Width) (offset : BitVec 8)
  /-- A write in the register window; `value` is the 32-bit value of a 32-bit write (R67, R68). -/
  | regWrite (agent : Agent) (width : Width) (offset : BitVec 8) (value : Word)
  /-- A one-byte read of a system address (R90, R31). -/
  | memRead (agent : Agent) (addr : Word)
  /-- A one-byte write of a system address (R90, R31). -/
  | memWrite (agent : Agent) (addr : Word) (value : Byte)
  /-- A host cleans its cached copy of a byte (R32). -/
  | clean (host : Nat) (addr : Word)
  /-- A host invalidates its cached copy of a byte (R32). -/
  | invalidate (host : Nat) (addr : Word)
  /-- The hardware reset input (R85). -/
  | hardReset
deriving DecidableEq, Repr

/-- Whose turn it is (assumption log 2, DESIGN CHOICE). -/
inductive Turn where
  /-- The scheduler gives the engine its step (R91). -/
  | engine
  /-- An event from outside. -/
  | external (e : Event)
  /-- The host loop `wait` (30_encoding.md R38): read STATUS until STATUS.BUSY = 0. -/
  | wait (agent : Agent)
deriving DecidableEq, Repr

/-- What a read answered, and to whom. -/
inductive Reply where
  | word (agent : Agent) (value : Word)
  | byte (agent : Agent) (value : Byte)
deriving DecidableEq, Repr

/-- A host's cached copy of a byte of system memory (R32). -/
structure HostByte where
  host : Nat
  addr : Nat
deriving DecidableEq, Repr

/-- The whole state. STATUS.BUSY is read from `phase`, ID is hardwired, and the reserved bits of CTRL and
STATUS read 0, so none of them is stored (assumption log 19). -/
structure State where
  /-- The engine phase (R9, R25). -/
  phase : Phase
  /-- CTRL.IRQEN (R12). -/
  irqen : Bool
  /-- STATUS.DONE (R13). -/
  done : Bool
  /-- STATUS.FOUND (R13). -/
  found : Bool
  /-- STATUS.WHB (R13). -/
  whb : Bool
  /-- STATUS.ERR (R13, R71). -/
  err : ErrCode
  /-- BM_BASE (R15). -/
  bmBase : Word
  /-- BM_LEN (R16). -/
  bmLen : Word
  /-- ARG0 (R17). -/
  arg0 : Word
  /-- ARG1 (R17). -/
  arg1 : Word
  /-- RESULT (R18). -/
  result : Word
  /-- ERRINFO (R19). -/
  errinfo : Word
  /-- NAME_BASE (R20). -/
  nameBase : Word
  /-- NAME_LEN (R20). -/
  nameLen : Word
  /-- NAME_OFF (R20). -/
  nameOff : Word
  /-- SEED0..SEED3 (R21). -/
  seed : Vector Word 4
  /-- H0..H3 (R22). -/
  h : Vector Word 4
  /-- W0..W7 (R23). -/
  w : Vector Word 8
  /-- MAJOR (R24). -/
  major : Word
  /-- MINOR (R24). -/
  minor : Word
  /-- System memory (R9). -/
  mem : Memory
  /-- The open parameters of R6; no step changes them (assumption log 5). -/
  platform : Platform
  /-- The model's own: the copies their hosts have written and not cleaned (R32; assumption log 10). -/
  unclean : List HostByte
  /-- The model's own: the bytes of which hosts' cached copies may be behind (R32; assumption log 10). -/
  stale : List Nat
  /-- The model's own: the copies of stale bytes that are not behind, because their hosts have invalidated
  or written them since the byte last changed (R31 item 3, R32; assumption log 10). -/
  fresh : List HostByte
  /-- The model's own: how many free values have been drawn (assumption log 17). -/
  draws : Nat
  /-- The model's own: what the last outside read answered (assumption log 16). -/
  reply : Option Reply
  /-- The model's own: the turns still to come (assumption log 2). -/
  pending : List Turn
deriving DecidableEq, Repr

/-- Why the machine stops. Neither comes from a command: both are the model faults of the spec. -/
inductive Fault where
  /-- Raised by the register port on an access that is not an aligned 32-bit access (R68, R28). The
  device would answer with an error response and go on; safe, the model stops (assumption log 11). -/
  | hostAccess (agent : Agent) (width : Width) (offset : BitVec 8)
  /-- Raised when another agent accesses a byte of the footprint of the command in progress (R90). The
  hardware would go on with unspecified bytes; safe, the model stops (assumption log 12). -/
  | footprintHazard (agent : Agent) (addr : Word)
deriving DecidableEq, Repr

/-- Why an instruction has no meaning. -/
inductive Refusal where
  /-- Raised by `exec` for an instruction that has no meaning yet, by its mnemonic; safe. -/
  | notModelled (mnemonic : String)
deriving DecidableEq, Repr

/-- The MD4 initialisation vector of a HashState (R22). -/
def md4Iv : Vector Word 4 := #v[0x67452301#32, 0xEFCDAB89#32, 0x98BADCFE#32, 0x10325476#32]

/-- The machine right after hardware reset (R85). Memory lists nothing (assumption log 4), the platform is
any platform (assumption log 5), and nothing is pending (assumption log 2). -/
def State.reset : State where
  phase := .idle
  irqen := false
  done := false
  found := false
  whb := false
  err := .noError
  bmBase := 0#32
  bmLen := 0#32
  arg0 := 0#32
  arg1 := 0#32
  result := 0#32
  errinfo := 0#32
  nameBase := 0#32
  nameLen := 0#32
  nameOff := 0#32
  seed := #v[0#32, 0#32, 0#32, 0#32]
  h := md4Iv
  w := #v[0#32, 0#32, 0#32, 0#32, 0#32, 0#32, 0#32, 0#32]
  major := 0#32
  minor := 0#32
  mem := []
  platform := Config.platform
  unclean := []
  stale := []
  fresh := []
  draws := 0
  reply := none
  pending := []

end Sys2Proof.Machine
end

