-- ==== Sys2Proof/Machine/Flags.lean ====
section
/-! DEFINITION. STATUS, CTRL and the interrupt level as a host sees them (spec/10_state.md R12, R13,
spec/60_exceptions.md R71, R76). -/

namespace Sys2Proof.Machine

/-- The number of an error code in STATUS.ERR (R71). -/
def ErrCode.number : ErrCode → Nat
  | .noError => 0
  | .illegal => 1
  | .notsup => 2
  | .bounds => 3
  | .buserr => 4

/-- STATUS.BUSY (R13): 1 exactly while the engine phase is Busy (R14, R72, R73; assumption log 19). -/
def State.isBusy (s : State) : Bool :=
  match s.phase with
  | .idle => false
  | .busy _ => true

/-- A one-bit field at a bit position of a register. -/
def fieldBit (b : Bool) (pos : Nat) : Word := if b then 1#32 <<< pos else 0#32

/-- The STATUS register (R13): BUSY, DONE, FOUND, WHB at bits 0 to 3, ERR at [11:8], the rest 0. -/
def State.statusWord (s : State) : Word :=
  fieldBit s.isBusy 0 ||| fieldBit s.done 1 ||| fieldBit s.found 2 ||| fieldBit s.whb 3 |||
    (BitVec.ofNat 32 s.err.number <<< 8)

/-- The CTRL register as it reads (R12): IRQEN at bit 0, DONEACK and the reserved bits 0. -/
def State.ctrlWord (s : State) : Word := fieldBit s.irqen 0

/-- The interrupt output (R76): a level, `CTRL.IRQEN & STATUS.DONE`. -/
def State.irq (s : State) : Bool := s.irqen && s.done

end Sys2Proof.Machine
end

