-- ==== Sys2Proof/Syntax.lean ====
section
/-! DEFINITION. The fifteen commands of BHE-1, one constructor for each row of spec/opcode_table.json
(spec/30_encoding.md R35). -/

namespace Sys2Proof

/-- A command. `alg` is the algorithm id of the ALG field (R34: an unsigned number, 0 to 15), `seeded` is
the S bit. Every other operand comes from a register (R34). -/
inductive Instr where
  /-- BSET, format Z: set one bit (40_bitmap.md R40). -/
  | bset
  /-- BCLR, format Z: clear one bit (R41). -/
  | bclr
  /-- BTST, format Z: test whether a bit is set (R42). -/
  | btst
  /-- BTSTC, format Z: test whether a bit is clear (R43). -/
  | btstc
  /-- BFREE, format Z: clear a range of bits (R44). -/
  | bfree
  /-- BFIND, format Z: find the first clear bit of a range (R45). -/
  | bfind
  /-- HASH, format AS: the (major, minor) hash of a name (41_hash.md R56). -/
  | hash (alg : Nat) (seeded : Bool)
  /-- HINIT, format S: initialise the hash state (R57). -/
  | hinit (seeded : Bool)
  /-- HPREP, format A: prepare one chunk of the name (R58). -/
  | hprep (alg : Nat)
  /-- HMD4, format Z: one Half-MD4 block (R59). -/
  | hmd4
  /-- HTEA, format Z: one TEA block (R60). -/
  | htea
  /-- HFIN, format A: select and post-process the result (R61). -/
  | hfin (alg : Nat)
  /-- NOP, format Z (42_system.md R63). -/
  | nop
  /-- CLRST, format Z: clear the sticky status bit (R64). -/
  | clrst
  /-- SRST, format Z: soft reset (R65). -/
  | srst
deriving DecidableEq, Repr

/-- Why a word is no command (R36). -/
inductive Reject where
  /-- OPC is a reserved value of R35. -/
  | reservedOpcode
  /-- A defined OPC with a nonzero bit in a field its format requires to be 0. -/
  | nonzeroReserved
deriving DecidableEq, Repr

/-- What a word decodes to: every word is either one command or ILLEGAL (R36). -/
inductive Decoded where
  | command (i : Instr)
  | illegal (why : Reject)
deriving DecidableEq, Repr

end Sys2Proof
end

