-- ==== Sys2Proof/WellFormed.lean ====
section
/-! DEFINITION. Which terms of `Instr` stand for a command word (spec/30_encoding.md R33, R34). -/

namespace Sys2Proof

/-- The ALG field is 4 bits wide, unsigned (R33, R34). -/
def algFits (alg : Nat) : Bool := alg < 16

/-- A term is well-formed when its operands fit the fields of its format (R33): ALG is the only field
whose term can be too large. -/
def Instr.wellFormed : Instr → Bool
  | .hash alg _ => algFits alg
  | .hprep alg => algFits alg
  | .hfin alg => algFits alg
  | .bset | .bclr | .btst | .btstc | .bfree | .bfind => true
  | .hinit _ | .hmd4 | .htea => true
  | .nop | .clrst | .srst => true

end Sys2Proof
end

