-- ==== Sys2Proof/Decode.lean ====
section
/-! DEFINITION. Decoding and encoding of the 32-bit command word (spec/30_encoding.md R33 to R38). -/

namespace Sys2Proof

/-- OPC = c[7:0] (R34). -/
def opcField (c : Word) : Nat := (c.extractLsb' 0 8).toNat

/-- ALG = c[11:8], unsigned, zero-extended (R34). -/
def algField (c : Word) : Nat := (c.extractLsb' 8 4).toNat

/-- S = c[12] (R34). -/
def seedField (c : Word) : Bool := c.getLsbD 12

/-- Format Z: c[31:8] must be 0 (R33). -/
def formatZ (c : Word) (i : Instr) : Decoded :=
  if c.extractLsb' 8 24 = 0#24 then .command i else .illegal .nonzeroReserved

/-- Format A: c[31:12] must be 0 (R33). -/
def formatA (c : Word) (i : Nat → Instr) : Decoded :=
  if c.extractLsb' 12 20 = 0#20 then .command (i (algField c)) else .illegal .nonzeroReserved

/-- Format AS: c[31:13] must be 0 (R33). -/
def formatAS (c : Word) (i : Nat → Bool → Instr) : Decoded :=
  if c.extractLsb' 13 19 = 0#19 then .command (i (algField c) (seedField c))
  else .illegal .nonzeroReserved

/-- Format S: c[31:13] and c[11:8] must be 0 (R33). -/
def formatS (c : Word) (i : Bool → Instr) : Decoded :=
  if c.extractLsb' 13 19 = 0#19 ∧ c.extractLsb' 8 4 = 0#4 then .command (i (seedField c))
  else .illegal .nonzeroReserved

/-- The decode function of R35, total on every 32-bit word. -/
def decode (c : Word) : Decoded :=
  match opcField c with
  | 0x01 => formatZ c .bset
  | 0x02 => formatZ c .bclr
  | 0x03 => formatZ c .btst
  | 0x04 => formatZ c .btstc
  | 0x05 => formatZ c .bfree
  | 0x06 => formatZ c .bfind
  | 0x10 => formatAS c .hash
  | 0x11 => formatS c .hinit
  | 0x12 => formatA c .hprep
  | 0x13 => formatZ c .hmd4
  | 0x14 => formatZ c .htea
  | 0x15 => formatA c .hfin
  | 0x20 => formatZ c .nop
  | 0x21 => formatZ c .clrst
  | 0x22 => formatZ c .srst
  | _ => .illegal .reservedOpcode

/-- The OPC value of each command (R35). -/
def Instr.opcode : Instr → Nat
  | .bset => 0x01
  | .bclr => 0x02
  | .btst => 0x03
  | .btstc => 0x04
  | .bfree => 0x05
  | .bfind => 0x06
  | .hash _ _ => 0x10
  | .hinit _ => 0x11
  | .hprep _ => 0x12
  | .hmd4 => 0x13
  | .htea => 0x14
  | .hfin _ => 0x15
  | .nop => 0x20
  | .clrst => 0x21
  | .srst => 0x22

/-- The ALG operand of the formats that have one (R33). -/
def Instr.algOperand : Instr → Nat
  | .hash alg _ | .hprep alg | .hfin alg => alg
  | _ => 0

/-- The S operand of the formats that have one (R33). -/
def Instr.seedOperand : Instr → Bool
  | .hash _ s | .hinit s => s
  | _ => false

/-- The command word: S at bit 12, ALG at bits [11:8], OPC at bits [7:0], every reserved bit 0
(R33, R38). -/
def encode (i : Instr) : Word :=
  (if i.seedOperand then 1#32 <<< 12 else 0#32) |||
    (BitVec.ofNat 32 (i.algOperand % 16) <<< 8) ||| BitVec.ofNat 32 i.opcode

/-- The command word held in the low `nbits` bits of `w`, bit 0 the least significant; a command is
always exactly one 32-bit word (R37). -/
def tableWord (nbits w : Nat) : Word := BitVec.ofNat 32 (w % 2 ^ nbits)

/-- The instruction the decoder reads from an opcode-table word of `nbits` bits. -/
def decodeTableWord (nbits w : Nat) : Option Instr :=
  match decode (tableWord nbits w) with
  | .command i => some i
  | .illegal _ => none

end Sys2Proof
end

