-- ==== Sys2Proof/Machine/Operands.lean ====
section
/-! DEFINITION. Operand forms: bit indices of the bitmap unit (spec/20_memory.md R27, spec/40_bitmap.md),
algorithm ids and byte widening of the hash unit (spec/41_hash.md R49, R50). -/

namespace Sys2Proof.Machine

/-- `byte(i) = i >> 3` (40_bitmap.md, R27). -/
def byteOf (i : Nat) : Nat := i / 8

/-- `mask(i) = 1 << (i & 7)`, an 8-bit value (40_bitmap.md, R27). -/
def maskOf (i : Nat) : Byte := 1#8 <<< (i % 8)

/-- Bit `i & 7` of a byte, as R42, R43 and R45 test it. -/
def bitSet (b : Byte) (i : Nat) : Bool := b.getLsbD (i % 8)

/-- The byte with bit `i & 7` set (R40). -/
def setBit (i : Nat) (b : Byte) : Byte := b ||| maskOf i

/-- The byte with bit `i & 7` cleared (R41). -/
def clearBit (i : Nat) (b : Byte) : Byte := b &&& ~~~(maskOf i)

/-- The system address of byte `k` of the bitmap buffer, computed without wrap (R26). -/
def State.bitmapAddr (s : State) (k : Nat) : Nat := s.bmBase.toNat + k

/-- The system address of byte `k` of the name, computed without wrap (R26). -/
def State.nameAddr (s : State) (k : Nat) : Nat := s.nameBase.toNat + k

/-- Byte offset `k` lies inside the buffer: `k < L` (R16, 40_bitmap.md). -/
def State.inBuffer (s : State) (k : Nat) : Bool := decide (k < s.bmLen.toNat)

/-- The three families of algorithms (R49). -/
inductive Family where
  | legacy
  | md4
  | tea
deriving DecidableEq, Repr

/-- `family(ALG)` for a valid id (R49): ALG mod 3. -/
def familyOf (alg : Nat) : Family :=
  match alg % 3 with
  | 0 => .legacy
  | 1 => .md4
  | _ => .tea

/-- `uns(ALG) = (ALG >= 3)` (R49). -/
def unsignedOf (alg : Nat) : Bool := decide (3 ≤ alg)

/-- `widen(b, uns)` (R50): zero-extension for the Unsigned variants, sign-extension otherwise. -/
def widen (uns : Bool) (b : Byte) : Word := if uns then b.setWidth 32 else b.signExtend 32

/-- The name length is in [1, 255] (R5, R56). -/
def State.nameLenOk (s : State) : Bool := decide (1 ≤ s.nameLen.toNat ∧ s.nameLen.toNat ≤ 255)

/-- The algorithm id names one of the six variants (R49). -/
def algOk (alg : Nat) : Bool := decide (alg ≤ 5)

/-- HASH's operands are supported (R56). -/
def State.hashOk (s : State) (alg : Nat) : Bool := s.nameLenOk && algOk alg

/-- HPREP's operands are supported (R58): as for HASH, and NAME_OFF < NAME_LEN. -/
def State.hprepOk (s : State) (alg : Nat) : Bool :=
  s.nameLenOk && algOk alg && decide (s.nameOff.toNat < s.nameLen.toNat)

/-- HFIN's operand is supported (R61): a valid id whose family is not LEGACY. -/
def hfinOk (alg : Nat) : Bool := algOk alg && decide (familyOf alg ≠ .legacy)

end Sys2Proof.Machine
end

