-- ==== Sys2Proof/Machine/Ops.lean ====
section
/-! DEFINITION. The shared operations of the engine: ending a command normally or with an error
(spec/60_exceptions.md R72, R73), accepting a command (spec/10_state.md R14), resetting the registers
(spec/70_reset_and_hazards.md R85), and the master port (spec/20_memory.md R26). -/

namespace Sys2Proof.Machine

/-! ### Command completion and acceptance -/

/-- `complete(found)` (R73): a command ends normally. -/
def State.complete (found : Bool) (s : State) : State :=
  { s with err := .noError, errinfo := 0#32, found := found, done := true, phase := .idle }

/-- `raise E(info)` (R72): a command ends with an error. This is the whole of taking an error on BHE-1: no
program state is saved and nothing is jumped to (R77), so there is nothing to return from (R78). -/
def State.raise (e : ErrCode) (info : Word) (s : State) : State :=
  { s with err := e, errinfo := info, found := false, done := true, phase := .idle }

/-- Acceptance of the command word `c` (R14): BUSY rises, DONE falls, and CLRST clears WHB already now
(42_system.md R64). -/
def State.accept (c : Word) (s : State) : State :=
  { s with phase := .busy c, done := false, whb := if c = encode .clrst then false else s.whb }

/-- Every register and the phase at the reset value (R85); memory, the platform, the host's caches and the
outside world are not the device's registers (assumption log 15). -/
def State.resetRegisters (s : State) : State :=
  { State.reset with
    mem := s.mem, platform := s.platform, unclean := s.unclean, stale := s.stale,
    fresh := s.fresh, draws := s.draws, reply := s.reply, pending := s.pending }

/-- One free value has been drawn. -/
def State.drawn (s : State) : State := { s with draws := s.draws + 1 }

/-- RESULT <- v (R18). -/
def State.setResult (v : Word) (s : State) : State := { s with result := v }

/-- H <- v (R22). -/
def State.setH (v : Vector Word 4) (s : State) : State := { s with h := v }

/-- W <- v (R23). -/
def State.setW (v : Vector Word 8) (s : State) : State := { s with w := v }

/-- MAJOR and MINOR <- the pair (R24). -/
def State.setHash (major minor : Word) (s : State) : State := { s with major := major, minor := minor }

/-! ### System memory -/

/-- The region grants the access. -/
def Region.grants (g : Region) (a : Nat) (k : AccessKind) : Bool :=
  decide (g.base ≤ a ∧ a < g.base + g.size) &&
    match k with
    | .read => g.readable
    | .write => g.writable

/-- The address lies in the engine's own register window, `[P_BASE, P_BASE + 256)` (R26, R30). -/
def Platform.inWindow (p : Platform) (a : Nat) : Bool :=
  decide (p.base.toNat ≤ a ∧ a < p.base.toNat + Config.windowSize)

/-- `P_MEM_OK(addr, kind)` (R6), false on the engine's own window (R26; assumption log 6). -/
def Platform.memOk (p : Platform) (a : Nat) (k : AccessKind) : Bool :=
  p.memMap.any (fun g => Region.grants g a k) && !Platform.inWindow p a

/-- A one-byte master access completes without a bus error (R26). -/
def State.portOk (s : State) (a : Nat) (k : AccessKind) : Bool :=
  decide (a < 2 ^ Config.addrWidth) && Platform.memOk s.platform a k

/-- Add to a set kept as a list without repeats. -/
def addTo {α : Type} [DecidableEq α] (x : α) (l : List α) : List α := if x ∈ l then l else x :: l

/-- Take out of a set kept as a list. -/
def dropFrom {α : Type} [DecidableEq α] (x : α) (l : List α) : List α := l.filter fun y => decide (y ≠ x)

/-- Take every host's copy of a byte out of a set of copies. -/
def dropCopies (a : Nat) (l : List HostByte) : List HostByte := l.filter fun x => decide (x.addr ≠ a)

/-- The host has written its copy of the byte and not cleaned it, and the master port is not coherent
(R32). -/
def State.hostUnclean (s : State) (host a : Nat) : Bool :=
  !s.platform.coherent && decide (⟨host, a⟩ ∈ s.unclean)

/-- The host's cached copy of the byte may be behind: the byte has changed since the host last invalidated
or wrote it (R31 item 3, R32). -/
def State.hostBehind (s : State) (host a : Nat) : Bool :=
  decide (a ∈ s.stale) && decide (⟨host, a⟩ ∉ s.fresh)

/-- What the engine reads at `a` is any value: the master port is not coherent and some host wrote the byte
and has not itself cleaned it (R32, U8; assumption log 10). -/
def State.engineBlind (s : State) (a : Nat) : Bool :=
  !s.platform.coherent && s.unclean.any fun x => decide (x.addr = a)

/-- What a host reads at `a` is any value: the master port is not coherent, and the host has not itself
invalidated the byte since it changed, or another host has not cleaned its own copy of it (R31 item 3, R32,
U8; assumption log 10). -/
def State.hostBlind (s : State) (host a : Nat) : Bool :=
  !s.platform.coherent &&
    (s.hostBehind host a || s.unclean.any fun x => decide (x.addr = a) && decide (x.host ≠ host))

/-- The copies of a byte known not to be behind once it has changed: that of the host `seer`, if any. -/
def freshAfter (seer : Option Nat) (a : Nat) (l : List HostByte) : List HostByte :=
  match seer with
  | none => dropCopies a l
  | some host => ⟨host, a⟩ :: dropCopies a l

/-- The byte has changed: every host's cached copy of it may be behind, but that of `seer` (R32). -/
def State.overtake (seer : Option Nat) (a : Nat) (s : State) : State :=
  { s with
    stale := if s.platform.coherent then s.stale else addTo a s.stale
    fresh := if s.platform.coherent then s.fresh else freshAfter seer a s.fresh }

/-- A byte of memory takes a value, seen at once by the host `seer`, if any (R26, R32). -/
def State.changeByte (seer : Option Nat) (a : Nat) (v : Byte) (s : State) : State :=
  { s.overtake seer a with mem := Memory.write s.mem a v }

/-- A byte of memory written through the master port; every host's cached copy of it is then behind (R26,
R32). -/
def State.storeByte (a : Nat) (v : Byte) (s : State) : State := s.changeByte none a v

/-- A performed master access, in the reference order of R31 item 4. -/
inductive Access where
  | read (a : Nat)
  | write (a : Nat) (v : Byte)
deriving DecidableEq, Repr

/-- The address of an access. -/
def Access.addr : Access → Nat
  | .read a => a
  | .write a _ => a

/-- A command in progress: the state so far and the accesses performed so far, oldest first. -/
structure Run where
  st : State
  trace : List Access
deriving DecidableEq, Repr

/-- A command about to begin. -/
def Run.start (s : State) : Run := ⟨s, []⟩

/-- Change the state of a run, with no memory access. -/
def Run.update (f : State → State) (r : Run) : Run := { r with st := f r.st }

/-- The outcome of a step of a command that may meet a bus error; `busErr` carries ERRINFO (R71). -/
inductive Port (α : Type) where
  | ok (v : α) (r : Run)
  | busErr (info : Word) (r : Run)
deriving Repr

/-- The run a step of a command leaves, with or without a bus error. -/
def Port.last {α : Type} : Port α → Run
  | .ok _ r => r
  | .busErr _ r => r

/-- Go on with a command unless a bus error ended it (R72: no later step of the command runs). -/
def Port.andThen {α β : Type} (p : Port α) (f : α → Run → Port β) : Port β :=
  match p with
  | .ok v r => f v r
  | .busErr info r => .busErr info r

/-- The byte a performed read returns (R26), a free value where R32 makes it any value. -/
def State.readValue (s : State) (a : Nat) : Byte :=
  if s.engineBlind a then Config.incoherentByte s.draws else Memory.read s.mem a

/-- The state after a performed read: a free value, if one was used, counts as drawn. -/
def State.afterRead (s : State) (a : Nat) : State := if s.engineBlind a then s.drawn else s

/-- `MemRead(addr, 1)` (R26). -/
def memRead (a : Nat) (r : Run) : Port Byte :=
  if r.st.portOk a .read then
    .ok (r.st.readValue a) ⟨r.st.afterRead a, r.trace ++ [.read a]⟩
  else .busErr (BitVec.ofNat 32 a) r

/-- `MemWrite(addr, 1, v)` (R26). -/
def memWrite (a : Nat) (v : Byte) (r : Run) : Port Unit :=
  if r.st.portOk a .write then .ok () ⟨r.st.storeByte a v, r.trace ++ [.write a v]⟩
  else .busErr (BitVec.ofNat 32 a) r

/-! ### The end of a command -/

/-- How a command ended: normally or with an error, and the run it left. -/
inductive Ended where
  | completed (found : Bool) (r : Run)
  | raised (e : ErrCode) (info : Word) (r : Run)
deriving DecidableEq, Repr

/-- The rest of a command after a part that may meet a bus error, which raises BUSERR (R71). -/
def Port.finish {α : Type} (p : Port α) (f : α → Run → Ended) : Ended :=
  match p with
  | .ok v r => f v r
  | .busErr info r => .raised .buserr info r

/-- The state a command leaves (R72, R73). -/
def Ended.state : Ended → State
  | .completed found r => r.st.complete found
  | .raised e info r => r.st.raise e info

/-- The run a command leaves, before STATUS and ERRINFO are written. -/
def Ended.last : Ended → Run
  | .completed _ r => r
  | .raised _ _ r => r

/-- The accesses a command performed. -/
def Ended.trace (e : Ended) : List Access := e.last.trace

/-- `notsup()` (41_hash.md, before R56): MAJOR and MINOR <- 0, then raise NOTSUP with the command word,
which is the instruction's encoding (assumption log 13). -/
def notsup (i : Instr) (r : Run) : Ended := .raised .notsup (encode i) (r.update (State.setHash 0#32 0#32))

end Sys2Proof.Machine
end

