-- ==== Sys2Proof/Machine/Registers.lean ====
section
/-! DEFINITION. The register port: the register map (spec/10_state.md R10) and the two host transactions
(spec/42_system.md R66 to R68, spec/70_reset_and_hazards.md R88, R89). -/

namespace Sys2Proof.Machine

/-- The registers of the map of R10. -/
inductive Reg where
  | id
  | ctrl
  | status
  | cmd
  | bmBase
  | bmLen
  | arg0
  | arg1
  | result
  | errinfo
  | nameBase
  | nameLen
  | nameOff
  | seed (k : Fin 4)
  | h (k : Fin 4)
  | w (k : Fin 8)
  | major
  | minor
deriving DecidableEq, Repr

/-- The access codes of R10. -/
inductive RegMode where
  | readWrite
  | readOnly
  | writeOnly
deriving DecidableEq, Repr

/-- The byte offset from `P_BASE` (R10). -/
def Reg.offset : Reg → Nat
  | .id => 0x000
  | .ctrl => 0x004
  | .status => 0x008
  | .cmd => 0x00C
  | .bmBase => 0x010
  | .bmLen => 0x014
  | .arg0 => 0x018
  | .arg1 => 0x01C
  | .result => 0x020
  | .errinfo => 0x024
  | .nameBase => 0x030
  | .nameLen => 0x034
  | .nameOff => 0x038
  | .seed k => 0x040 + 4 * k.val
  | .h k => 0x050 + 4 * k.val
  | .w k => 0x060 + 4 * k.val
  | .major => 0x080
  | .minor => 0x084

/-- The access code of each register (R10). -/
def Reg.mode : Reg → RegMode
  | .id | .status | .result | .errinfo | .major | .minor => .readOnly
  | .cmd => .writeOnly
  | .ctrl | .bmBase | .bmLen | .arg0 | .arg1 | .nameBase | .nameLen | .nameOff => .readWrite
  | .seed _ | .h _ | .w _ => .readWrite

/-- Every register of the map. -/
def Reg.all : List Reg :=
  [.id, .ctrl, .status, .cmd, .bmBase, .bmLen, .arg0, .arg1, .result, .errinfo,
    .nameBase, .nameLen, .nameOff] ++
  [.seed 0, .seed 1, .seed 2, .seed 3, .h 0, .h 1, .h 2, .h 3] ++
  [.w 0, .w 1, .w 2, .w 3, .w 4, .w 5, .w 6, .w 7, .major, .minor]

/-- The register at an offset of the window; none at a reserved offset (R10). -/
def Reg.atOffset (o : BitVec 8) : Option Reg := Reg.all.find? (fun r => r.offset == o.toNat)

/-- What a register holds (R66): ID is hardwired (R11), CMD reads 0 (R14). -/
def State.readReg (s : State) : Reg → Word
  | .id => Config.idWord
  | .ctrl => s.ctrlWord
  | .status => s.statusWord
  | .cmd => 0#32
  | .bmBase => s.bmBase
  | .bmLen => s.bmLen
  | .arg0 => s.arg0
  | .arg1 => s.arg1
  | .result => s.result
  | .errinfo => s.errinfo
  | .nameBase => s.nameBase
  | .nameLen => s.nameLen
  | .nameOff => s.nameOff
  | .seed k => s.seed[k]
  | .h k => s.h[k]
  | .w k => s.w[k]
  | .major => s.major
  | .minor => s.minor

/-- CTRL written (R12, R67): IRQEN <- v[0]; a 1 in v[1] acknowledges DONE; the rest is ignored. -/
def State.writeCtrl (v : Word) (s : State) : State :=
  { s with irqen := v.getLsbD 0, done := s.done && !(v.getLsbD 1) }

/-- A register written while the engine is Idle (R67): RW registers keep all 32 bits, a write of CMD is
accepted as a command (R14), a write of an RO register is ignored. -/
def State.writeReg (v : Word) (s : State) : Reg → State
  | .cmd => s.accept v
  | .ctrl => s.writeCtrl v
  | .bmBase => { s with bmBase := v }
  | .bmLen => { s with bmLen := v }
  | .arg0 => { s with arg0 := v }
  | .arg1 => { s with arg1 := v }
  | .nameBase => { s with nameBase := v }
  | .nameLen => { s with nameLen := v }
  | .nameOff => { s with nameOff := v }
  | .seed k => { s with seed := s.seed.set k v }
  | .h k => { s with h := s.h.set k v }
  | .w k => { s with w := s.w.set k v }
  | .id | .status | .result | .errinfo | .major | .minor => s

/-- While BUSY a read of this register returns an unspecified value (R88): every register that R66 lets
a host read, but ID, CTRL and STATUS. CMD reads 0 at all times (R14, R66; assumption log 8). -/
def Reg.hiddenWhileBusy : Reg → Bool
  | .id | .ctrl | .status | .cmd => false
  | _ => true

/-- The answer of a read, for the agent that asked (assumption log 16). -/
def State.answer (reply : Reply) (s : State) : State := { s with reply := some reply }

/-- `rd` at an aligned offset (R66, R88): a reserved offset reads 0. -/
def State.portRead (agent : Agent) (o : BitVec 8) (s : State) : State :=
  match Reg.atOffset o with
  | none => s.answer (.word agent 0#32)
  | some r =>
    if s.isBusy && r.hiddenWhileBusy then
      s.drawn.answer (.word agent (Config.busyReadValue s.draws))
    else s.answer (.word agent (s.readReg r))

/-- STATUS.WHB <- 1: a host write was dropped (R89). -/
def State.dropWrite (s : State) : State := { s with whb := true }

/-- `wr` at an aligned offset (R67, R89). -/
def State.portWrite (o : BitVec 8) (v : Word) (s : State) : State :=
  if s.isBusy && decide (o ≠ 0x04#8) then s.dropWrite
  else
    match Reg.atOffset o with
    | none => s
    | some r => s.writeReg v r

/-- The accesses the register port serves: aligned and 32 bits wide (R68, R28). -/
def portServes (width : Width) (o : BitVec 8) : Bool := decide (width = .bits32) && decide (o.toNat % 4 = 0)

/-- A read in the register window (R66, R68). -/
def hostRead (agent : Agent) (width : Width) (o : BitVec 8) (s : State) :
    Host.Outcome State Fault Refusal :=
  if portServes width o then .next (s.portRead agent o) else .fault (.hostAccess agent width o)

/-- A write in the register window (R67, R68). -/
def hostWrite (agent : Agent) (width : Width) (o : BitVec 8) (v : Word) (s : State) :
    Host.Outcome State Fault Refusal :=
  if portServes width o then .next (s.portWrite o v) else .fault (.hostAccess agent width o)

end Sys2Proof.Machine
end

