-- ==== Sys2Proof/Machine/Bitmap.lean ====
section
/-! DEFINITION. The bitmap unit's commands (spec/40_bitmap.md R40 to R45). -/

namespace Sys2Proof.Machine

/-- The read-modify-write of one bit shared by BSET, BCLR and BFREE: nothing when the byte of bit `i` lies
outside the buffer, else a read and a write of that byte (R40, R41, R44). -/
def modifyBit (f : Nat → Byte → Byte) (i : Nat) (r : Run) : Port Unit :=
  if r.st.inBuffer (byteOf i) then
    (memRead (r.st.bitmapAddr (byteOf i)) r).andThen fun b r' =>
      memWrite (r.st.bitmapAddr (byteOf i)) (f i b) r'
  else .ok () r

/-- The read of one bit shared by BTST and BTSTC: BOUNDS with the bit index outside the buffer, else
RESULT <- `f` of the bit (R42, R43). -/
def testBit (f : Bool → Word) (i : Nat) (r : Run) : Ended :=
  if r.st.inBuffer (byteOf i) then
    (memRead (r.st.bitmapAddr (byteOf i)) r).finish fun b r =>
      .completed false (r.update (State.setResult (f (bitSet b i))))
  else .raised .bounds (BitVec.ofNat 32 i) r

/-- BSET (R40). -/
def runBset (s : State) : Ended :=
  (modifyBit setBit s.arg0.toNat (Run.start s)).finish fun _ r => .completed false r

/-- BCLR (R41). -/
def runBclr (s : State) : Ended :=
  (modifyBit clearBit s.arg0.toNat (Run.start s)).finish fun _ r => .completed false r

/-- BTST (R42): RESULT is 1 for set, 0 for clear. -/
def runBtst (s : State) : Ended :=
  testBit (fun set => if set then 1#32 else 0#32) s.arg0.toNat (Run.start s)

/-- BTSTC (R43): RESULT is 1 for clear, 0 for set. -/
def runBtstc (s : State) : Ended :=
  testBit (fun set => if set then 0#32 else 1#32) s.arg0.toNat (Run.start s)

/-- Phase 1 of BFREE (R44): single bits until `i` is byte-aligned or none of the `n` is left. It answers
the index and the count reached. -/
def freeHead : (n i : Nat) → Run → Port (Nat × Nat)
  | 0, i, r => .ok (i, 0) r
  | n + 1, i, r =>
    if i % 8 = 0 then .ok (i, n + 1) r
    else (modifyBit clearBit i r).andThen fun _ r => freeHead n (i + 1) r

/-- A whole byte of the buffer written as 0x00 with no read; dropped outside the buffer (R44). -/
def zeroByte (k : Nat) (r : Run) : Port Unit :=
  if r.st.inBuffer k then memWrite (r.st.bitmapAddr k) 0#8 r else .ok () r

/-- Phase 2 of BFREE (R44): `q` whole bytes from bit index `i`. It answers the index reached. -/
def freeBytes : (q i : Nat) → Run → Port Nat
  | 0, i, r => .ok i r
  | q + 1, i, r => (zeroByte (byteOf i) r).andThen fun _ r => freeBytes q (i + 8) r

/-- Phase 3 of BFREE (R44): the remaining single bits. -/
def freeTail : (n i : Nat) → Run → Port Unit
  | 0, _, r => .ok () r
  | n + 1, i, r => (modifyBit clearBit i r).andThen fun _ r => freeTail n (i + 1) r

/-- The three phases of BFREE from bit `i`, `n` bits (R44): phase 2 runs while at least 8 bits are left, so
`n / 8` times. -/
def freeRange (i n : Nat) (r : Run) : Port Unit :=
  (freeHead n i r).andThen fun at1 r =>
    (freeBytes (at1.2 / 8) at1.1 r).andThen fun i r => freeTail (at1.2 % 8) i r

/-- BFREE (R44). -/
def runBfree (s : State) : Ended :=
  (freeRange s.arg0.toNat s.arg1.toNat (Run.start s)).finish fun _ r => .completed false r

/-- The scan of BFIND (R45): `n` indices are left, `i` is next. -/
def findClear : (n i : Nat) → Run → Ended
  | 0, _, r => .completed false (r.update (State.setResult 0xFFFFFFFF#32))
  | n + 1, i, r =>
    if r.st.inBuffer (byteOf i) then
      (memRead (r.st.bitmapAddr (byteOf i)) r).finish fun b r =>
        if bitSet b i then findClear n (i + 1) r
        else .completed true (r.update (State.setResult (BitVec.ofNat 32 i)))
    else .raised .bounds (BitVec.ofNat 32 i) r

/-- BFIND (R45): `end - start` indices, none when `start >= end`. -/
def runBfind (s : State) : Ended :=
  findClear (s.arg1.toNat - s.arg0.toNat) s.arg0.toNat (Run.start s)

/-- The meaning of BSET (R40). -/
def execBset (s : State) : Host.Outcome State Fault Refusal := .next (runBset s).state

/-- The meaning of BCLR (R41). -/
def execBclr (s : State) : Host.Outcome State Fault Refusal := .next (runBclr s).state

/-- The meaning of BTST (R42). -/
def execBtst (s : State) : Host.Outcome State Fault Refusal := .next (runBtst s).state

/-- The meaning of BTSTC (R43). -/
def execBtstc (s : State) : Host.Outcome State Fault Refusal := .next (runBtstc s).state

/-- The meaning of BFREE (R44). -/
def execBfree (s : State) : Host.Outcome State Fault Refusal := .next (runBfree s).state

/-- The meaning of BFIND (R45). -/
def execBfind (s : State) : Host.Outcome State Fault Refusal := .next (runBfind s).state

end Sys2Proof.Machine
end

