-- ==== Sys2Proof/Machine/HashOps.lean ====
section
/-! DEFINITION. The primitives of the hash unit: chunk preparation, the Half-MD4, TEA and Legacy functions,
and post-processing (spec/41_hash.md R51 to R55). The bodies are the spec's own text, which it marks as
supplied from general knowledge (assumption log 14). -/

namespace Sys2Proof.Machine

/-! ### Chunk preparation (R51) -/

/-- The padding word: the low 8 bits of the remaining length in all four byte lanes (R51). -/
def padWord (rem : Nat) : Word :=
  let p8 := BitVec.ofNat 32 (rem % 256)
  p8 ||| (p8 <<< 8) ||| (p8 <<< 16) ||| (p8 <<< 24)

/-- `combine(a, x)` (R51), by `P_PACK_COMBINE`. -/
def combineLane (c : PackCombine) (a x : Word) : Word :=
  match c with
  | .orLane => a ||| x
  | .addLane => a + x

/-- W[j] <- v for one word (R23). -/
def State.setWord (j : Nat) (v : Word) (s : State) : State := s.setW (s.w.setIfInBounds j v)

/-- The byte loop of `prep`: `k` bytes are left, byte `t` is next, `j` words are complete, `val` is the
accumulator. It answers the word index and the accumulator at its end. -/
def packBytes (addr : Nat) (uns : Bool) (pad : Word) :
    (k t j : Nat) → (val : Word) → Run → Port (Nat × Word)
  | 0, _, j, val, r => .ok (j, val) r
  | k + 1, t, j, val, r =>
    (memRead (addr + t) r).andThen fun b r =>
      let val := combineLane r.st.platform.combine (val <<< 8) (widen uns b)
      if t % 4 = 3 then packBytes addr uns pad k (t + 1) (j + 1) pad (r.update (State.setWord j val))
      else packBytes addr uns pad k (t + 1) j val r

/-- W[j] <- val for the incomplete trailing group, then pad for the unused words, when `j < 8` (R51). -/
def State.padFrom (j : Nat) (val pad : Word) (s : State) : State :=
  s.setW (Vector.ofFn fun k : Fin 8 => if k.val < j then s.w[k] else if k.val = j then val else pad)

/-- `prep(N, n, off, uns)` (R51), with N and n the NAME_BASE and NAME_LEN registers. -/
def prep (off : Nat) (uns : Bool) (r : Run) : Port Unit :=
  let rem := r.st.nameLen.toNat - off
  let pad := padWord rem
  (packBytes (r.st.nameAddr off) uns pad (min rem 32) 0 0 pad r).andThen fun (j, val) r =>
    .ok () (r.update (State.padFrom j val pad))

/-! ### Half-MD4 (R52) -/

/-- The round functions of R52: selection, majority, parity. -/
inductive Round where
  | select
  | majority
  | parity
deriving DecidableEq, Repr

/-- `f`, `g` and `h` of R52. -/
def Round.fn : Round → Word → Word → Word → Word
  | .select, x, y, z => (x &&& y) ||| (~~~x &&& z)
  | .majority, x, y, z => (x &&& y) ||| (x &&& z) ||| (y &&& z)
  | .parity, x, y, z => x ^^^ y ^^^ z

/-- The round constant K of R52. -/
def Round.const : Round → Word
  | .select => 0#32
  | .majority => 0x5A827999#32
  | .parity => 0x6ED9EBA1#32

/-- The shift amounts of the four steps of a group, round by round (R52). -/
def Round.shifts : Round → List Nat
  | .select => [3, 7, 11, 19]
  | .majority => [3, 5, 9, 13]
  | .parity => [3, 9, 11, 15]

/-- The order in which a round reads the words of W (R52). -/
def Round.words : Round → List (Fin 8)
  | .select => [0, 1, 2, 3, 4, 5, 6, 7]
  | .majority => [1, 3, 5, 7, 0, 2, 4, 6]
  | .parity => [3, 7, 2, 6, 1, 5, 0, 4]

/-- The four working words a, b, c, d of R52, in the order the next step takes them. -/
structure Work where
  p : Word
  q : Word
  r : Word
  u : Word
deriving DecidableEq, Repr

/-- `rol32(v, s)` (R7). -/
def rol32 (v : Word) (s : Nat) : Word := (v <<< s) ||| (v >>> (32 - s))

/-- `STEP(fn, p, q, r, u, x, K, s)` (R52). The next step of R52 takes the words as (u, p, q, r), so the
result is handed on in that order. -/
def md4Step (fn : Round) (x : Word) (s : Nat) (v : Work) : Work :=
  ⟨v.u, rol32 (v.p + fn.fn v.q v.r v.u + x + fn.const) s, v.q, v.r⟩

/-- The eight steps of one round (R52). -/
def md4Round (w : Vector Word 8) (fn : Round) (v : Work) : Work :=
  ((fn.words.zip (fn.shifts ++ fn.shifts)).foldl (fun v ks => md4Step fn w[ks.1] ks.2 v)) v

/-- `md4_transform()` on H and W (R52). -/
def md4Transform (h : Vector Word 4) (w : Vector Word 8) : Vector Word 4 :=
  let v := md4Round w .parity (md4Round w .majority (md4Round w .select ⟨h[0], h[1], h[2], h[3]⟩))
  #v[h[0] + v.p, h[1] + v.q, h[2] + v.r, h[3] + v.u]

/-! ### TEA (R53) -/

/-- One half of a mixing step of R53: `((b << 4) + x) ^ (b + sum) ^ ((b >> 5) + y)`. -/
def teaMix (b sum x y : Word) : Word := ((b <<< 4) + x) ^^^ (b + sum) ^^^ ((b >>> 5) + y)

/-- `n` mixing steps of R53 from (b0, b1), with `sum` before the first of them. -/
def teaSteps (w : Vector Word 8) : Nat → Word → Word → Word → Word × Word
  | 0, _, b0, b1 => (b0, b1)
  | n + 1, sum, b0, b1 =>
    let sum := sum + 0x9E3779B9#32
    let b0 := b0 + teaMix b1 sum w[0] w[1]
    let b1 := b1 + teaMix b0 sum w[2] w[3]
    teaSteps w n sum b0 b1

/-- `tea_transform()` on H and W (R53): 16 steps; H2 and H3 are kept. -/
def teaTransform (h : Vector Word 4) (w : Vector Word 8) : Vector Word 4 :=
  let b := teaSteps w 16 0#32 h[0] h[1]
  #v[h[0] + b.1, h[1] + b.2, h[2], h[3]]

/-! ### Legacy (R54) -/

/-- One byte of the Legacy hash: the new (r1, r2) (R54). -/
def legacyMix (uns : Bool) (b : Byte) (r1 r2 : Word) : Word × Word :=
  let sum := r2 + (r1 ^^^ (widen uns b * 0x6D22F5#32))
  (if sum.msb then sum - 0x7FFFFFFF#32 else sum, r1)

/-- The byte loop of `legacy` (R54): `k` bytes are left, byte `t` is next. -/
def legacyBytes (addr : Nat) (uns : Bool) : (k t : Nat) → (r1 r2 : Word) → Run → Port Word
  | 0, _, r1, _, r => .ok (r1 <<< 1) r
  | k + 1, t, r1, r2, r =>
    (memRead (addr + t) r).andThen fun b r =>
      legacyBytes addr uns k (t + 1) (legacyMix uns b r1 r2).1 (legacyMix uns b r1 r2).2 r

/-- `legacy(N, n, uns)` (R54). -/
def legacy (uns : Bool) (r : Run) : Port Word :=
  legacyBytes (r.st.nameAddr 0) uns r.st.nameLen.toNat 0 0x12A3FE2D#32 0x37ABE8F9#32 r

/-! ### Post-processing (R55) -/

/-- `post(m)` (R55): clear bit 0, and remap the HTree EOF sentinel. -/
def post (m : Word) : Word :=
  let m := m &&& 0xFFFFFFFE#32
  if m = 0xFFFFFFFE#32 then 0xFFFFFFFC#32 else m

/-! ### State setup and block transforms on the state -/

/-- "State setup" (R56, R57): the IV, replaced by the seed when one is supplied. -/
def State.initHash (seeded : Bool) (s : State) : State := s.setH (if seeded then s.seed else md4Iv)

/-- `md4_transform()` (R52). -/
def State.md4Block (s : State) : State := s.setH (md4Transform s.h s.w)

/-- `tea_transform()` (R53). -/
def State.teaBlock (s : State) : State := s.setH (teaTransform s.h s.w)

/-- Post-process the major hash and write the result pair (R56, R61). -/
def State.setPost (major minor : Word) (s : State) : State := s.setHash (post major) minor

end Sys2Proof.Machine
end

