-- ==== Sys2Proof/Machine/Hash.lean ====
section
/-! DEFINITION. The hash unit's commands (spec/41_hash.md R56 to R61). -/

namespace Sys2Proof.Machine

/-- `count` chunks of a name: prepare the chunk at `off`, transform, go on `stride` bytes further (R56). -/
def hashChunks (stride : Nat) (block : State → State) (uns : Bool) :
    (count off : Nat) → Run → Port Unit
  | 0, _, r => .ok () r
  | count + 1, off, r =>
    (prep off uns r).andThen fun _ r =>
      hashChunks stride block uns count (off + stride) (r.update block)

/-- How many chunks `while off < n` takes at a stride: `ceil(n / stride)` (R56). -/
def chunkCount (stride n : Nat) : Nat := (n + stride - 1) / stride

/-- HASH on supported operands (R56). -/
def hashName (alg : Nat) (r : Run) : Ended :=
  match familyOf alg with
  | .tea =>
    (hashChunks 16 State.teaBlock (unsignedOf alg) (chunkCount 16 r.st.nameLen.toNat) 0 r).finish
      fun _ r => .completed false (r.update fun s => s.setPost s.h[0] s.h[1])
  | .md4 =>
    (hashChunks 32 State.md4Block (unsignedOf alg) (chunkCount 32 r.st.nameLen.toNat) 0 r).finish
      fun _ r => .completed false (r.update fun s => s.setPost s.h[1] s.h[2])
  | .legacy =>
    (legacy (unsignedOf alg) r).finish
      fun major r => .completed false (r.update (State.setPost major 0#32))

/-- HASH (R56): fast failure, state setup, then the chunks or the Legacy bytes. -/
def runHash (alg : Nat) (seeded : Bool) (s : State) : Ended :=
  if s.hashOk alg then hashName alg ((Run.start s).update (State.initHash seeded))
  else notsup (.hash alg seeded) (Run.start s)

/-- HINIT (R57). -/
def runHinit (seeded : Bool) (s : State) : Ended :=
  .completed false ((Run.start s).update (State.initHash seeded))

/-- HPREP (R58). -/
def runHprep (alg : Nat) (s : State) : Ended :=
  if s.hprepOk alg then
    (prep s.nameOff.toNat (unsignedOf alg) (Run.start s)).finish fun _ r => .completed false r
  else notsup (.hprep alg) (Run.start s)

/-- HMD4 (R59). -/
def runHmd4 (s : State) : Ended := .completed false ((Run.start s).update State.md4Block)

/-- HTEA (R60). -/
def runHtea (s : State) : Ended := .completed false ((Run.start s).update State.teaBlock)

/-- HFIN (R61): TEA selects (H0, H1), Half-MD4 selects (H1, H2). -/
def runHfin (alg : Nat) (s : State) : Ended :=
  if hfinOk alg then
    .completed false ((Run.start s).update fun s =>
      if familyOf alg = .tea then s.setPost s.h[0] s.h[1] else s.setPost s.h[1] s.h[2])
  else notsup (.hfin alg) (Run.start s)

/-- The meaning of HASH (R56). -/
def execHash (alg : Nat) (seeded : Bool) (s : State) : Host.Outcome State Fault Refusal :=
  .next (runHash alg seeded s).state

/-- The meaning of HINIT (R57). -/
def execHinit (seeded : Bool) (s : State) : Host.Outcome State Fault Refusal :=
  .next (runHinit seeded s).state

/-- The meaning of HPREP (R58). -/
def execHprep (alg : Nat) (s : State) : Host.Outcome State Fault Refusal := .next (runHprep alg s).state

/-- The meaning of HMD4 (R59). -/
def execHmd4 (s : State) : Host.Outcome State Fault Refusal := .next (runHmd4 s).state

/-- The meaning of HTEA (R60). -/
def execHtea (s : State) : Host.Outcome State Fault Refusal := .next (runHtea s).state

/-- The meaning of HFIN (R61). -/
def execHfin (alg : Nat) (s : State) : Host.Outcome State Fault Refusal := .next (runHfin alg s).state

end Sys2Proof.Machine
end

