-- ==== Sys2Proof/Machine/System.lean ====
section
/-! DEFINITION. The system commands (spec/42_system.md R63 to R65). -/

namespace Sys2Proof.Machine

/-- NOP (R63). -/
def runNop (s : State) : Ended := .completed false (Run.start s)

/-- CLRST (R64): WHB was cleared when the word was accepted (`State.accept`), so nothing is left to do. -/
def runClrst (s : State) : Ended := .completed false (Run.start s)

/-- SRST (R65): every register at its reset value, then complete. -/
def runSrst (s : State) : Ended := .completed false ((Run.start s).update State.resetRegisters)

/-- The meaning of NOP (R63). -/
def execNop (s : State) : Host.Outcome State Fault Refusal := .next (runNop s).state

/-- The meaning of CLRST (R64). -/
def execClrst (s : State) : Host.Outcome State Fault Refusal := .next (runClrst s).state

/-- The meaning of SRST (R65). -/
def execSrst (s : State) : Host.Outcome State Fault Refusal := .next (runSrst s).state

end Sys2Proof.Machine
end

