-- ==== Sys2Proof/Machine/Trace.lean ====
section
/-! DEFINITION. A command's accesses in the reference order, and its footprint (spec/20_memory.md R29,
R31 item 4). -/

namespace Sys2Proof.Machine

/-- The run of a command: how it ends and the accesses it performs. `exec` is its state. -/
def engineRun (i : Instr) (s : State) : Ended :=
  match i with
  | .bset => runBset s
  | .bclr => runBclr s
  | .btst => runBtst s
  | .btstc => runBtstc s
  | .bfree => runBfree s
  | .bfind => runBfind s
  | .hash alg seeded => runHash alg seeded s
  | .hinit seeded => runHinit seeded s
  | .hprep alg => runHprep alg s
  | .hmd4 => runHmd4 s
  | .htea => runHtea s
  | .hfin alg => runHfin alg s
  | .nop => runNop s
  | .clrst => runClrst s
  | .srst => runSrst s

/-- A word that decodes ILLEGAL completes at once with the word as its information; it reads no operand
register and accesses no memory (30_encoding.md R36). -/
def runIllegal (c : Word) (s : State) : Ended := .raised .illegal c (Run.start s)

/-- The run of an accepted word, command or not (R35, R36). -/
def wordRun (c : Word) (s : State) : Ended :=
  match decode c with
  | .command i => engineRun i s
  | .illegal _ => runIllegal c s

/-- The address of a byte of the buffer at an offset in [first, last] (R29). -/
def State.inBitmapSpan (s : State) (first last a : Nat) : Bool :=
  decide (s.bmBase.toNat + first ≤ a ∧ a ≤ s.bmBase.toNat + last ∧ a < s.bmBase.toNat + s.bmLen.toNat)

/-- The address of one of `count` name bytes from offset `first` (R29). -/
def State.inNameSpan (s : State) (first count a : Nat) : Bool :=
  decide (s.nameBase.toNat + first ≤ a ∧ a < s.nameBase.toNat + first + count)

/-- The bytes a command may read or write, computed from the registers (R29). -/
def footprint (i : Instr) (s : State) (a : Nat) : Bool :=
  match i with
  | .bset | .bclr | .btst | .btstc => s.inBitmapSpan (byteOf s.arg0.toNat) (byteOf s.arg0.toNat) a
  | .bfree =>
    decide (0 < s.arg1.toNat) &&
      s.inBitmapSpan (byteOf s.arg0.toNat) (byteOf (s.arg0.toNat + s.arg1.toNat - 1)) a
  | .bfind =>
    decide (s.arg0.toNat < s.arg1.toNat) &&
      s.inBitmapSpan (byteOf s.arg0.toNat) (byteOf (s.arg1.toNat - 1)) a
  | .hash alg _ => s.hashOk alg && s.inNameSpan 0 s.nameLen.toNat a
  | .hprep alg =>
    s.hprepOk alg && s.inNameSpan s.nameOff.toNat (min 32 (s.nameLen.toNat - s.nameOff.toNat)) a
  | .hinit _ | .hmd4 | .htea | .hfin _ | .nop | .clrst | .srst => false

/-- The bytes a command may write (R29): the writing commands are BSET, BCLR and BFREE. -/
def writeFootprint (i : Instr) (s : State) (a : Nat) : Bool :=
  match i with
  | .bset | .bclr | .bfree => footprint i s a
  | _ => false

/-- The footprint of an accepted word; an ILLEGAL word has none (R29). -/
def wordFootprint (c : Word) (s : State) (a : Nat) : Bool :=
  match decode c with
  | .command i => footprint i s a
  | .illegal _ => false

end Sys2Proof.Machine
end

