-- ==== Sys2Proof/Machine/Agents.lean ====
section
/-! DEFINITION. What the outside world does between engine steps: register-port accesses, accesses to
system memory (spec/70_reset_and_hazards.md R90), cache maintenance (spec/20_memory.md R32) and the
hardware reset (R85). -/

namespace Sys2Proof.Machine

/-- The byte belongs to the footprint of the command in progress (R90). -/
def State.hazard (s : State) (a : Nat) : Bool :=
  match s.phase with
  | .idle => false
  | .busy c => wordFootprint c s a

/-- An agent other than a host reads memory as the master port does, a host through its own cache (R32). -/
def State.agentBlind (s : State) (agent : Agent) (a : Nat) : Bool :=
  match agent with
  | .host n => s.hostBlind n a
  | .otherEngine _ | .dma _ => s.engineBlind a

/-- An agent reads a byte of system memory (R31 item 3, R32). -/
def State.sysRead (agent : Agent) (a : Nat) (s : State) : State :=
  if s.agentBlind agent a then s.drawn.answer (.byte agent (Config.incoherentByte s.draws))
  else s.answer (.byte agent (Memory.read s.mem a))

/-- A host writes a byte through its cache: until that host cleans the byte, the master port may not see it;
the host itself reads what it wrote (R31 item 2, R32). -/
def State.hostStore (host a : Nat) (v : Byte) (s : State) : State :=
  { s.changeByte (some host) a v with
    unclean := if s.platform.coherent then s.unclean else addTo ⟨host, a⟩ s.unclean }

/-- An agent writes a byte of system memory (R31, R32). -/
def State.sysWrite (agent : Agent) (a : Nat) (v : Byte) (s : State) : State :=
  match agent with
  | .host n => s.hostStore n a v
  | .otherEngine _ | .dma _ => s.storeByte a v

/-- The byte's contents are any value from here on (U8; assumption log 10). -/
def State.scramble (seer : Option Nat) (a : Nat) (s : State) : State :=
  s.drawn.changeByte seer a (Config.incoherentByte s.draws)

/-- The host's copy of the byte is clean from here on. -/
def State.markClean (host a : Nat) (s : State) : State := { s with unclean := dropFrom ⟨host, a⟩ s.unclean }

/-- A host cleans a byte: memory gets that host's own copy, if the host had written it; any value if the
byte had changed since. The copies of the other hosts are as they were (R32, U8). -/
def State.cleanByte (host a : Nat) (s : State) : State :=
  if s.hostUnclean host a then
    (if s.hostBehind host a then s.scramble none a else s.overtake (some host) a).markClean host a
  else s

/-- The host's copy of the byte is not behind from here on. -/
def State.markFresh (host a : Nat) (s : State) : State :=
  { s with fresh := if s.platform.coherent then s.fresh else addTo ⟨host, a⟩ s.fresh }

/-- A host invalidates its own cached copy of a byte: that host sees memory again; a copy it had not cleaned
is lost or not, so the byte is any value. The copies of the other hosts are as they were (R32, U8). -/
def State.invalidateByte (host a : Nat) (s : State) : State :=
  if s.hostUnclean host a then (s.scramble (some host) a).markClean host a else s.markFresh host a

/-- An access of an aborted command, performed again (R85). -/
def replayAccess (s : State) (x : Access) : State :=
  match x with
  | .read _ => s
  | .write a v => s.storeByte a v

/-- The hardware reset (R85). While BUSY it aborts the command: the memory is as after an unspecified part
of the front of the command's reference access sequence, and no completion is reported. -/
def State.hardReset (s : State) : State :=
  match s.phase with
  | .idle => s.resetRegisters
  | .busy c =>
    let run := wordRun c s
    ((run.trace.take (Config.abortedAccesses s.draws)).foldl replayAccess
      { s with draws := run.state.draws + 1 }).resetRegisters

/-- The offset of an address in the register window. -/
def Platform.windowOffset (p : Platform) (a : Nat) : BitVec 8 := BitVec.ofNat 8 (a - p.base.toNat)

/-- A one-byte access of the system address space that is neither in the register window, where it is no
aligned 32-bit access (R68; assumption log 20), nor on the footprint of the command in progress (R90). -/
def State.memoryAccess (agent : Agent) (addr : Word) (act : State → State) (s : State) :
    Host.Outcome State Fault Refusal :=
  if Platform.inWindow s.platform addr.toNat then
    .fault (.hostAccess agent .bits8 (Platform.windowOffset s.platform addr.toNat))
  else if s.hazard addr.toNat then .fault (.footprintHazard agent addr)
  else .next (act s)

/-- Cache maintenance of a byte by a host; if the host's own copy is not clean it is an access to memory
(R32, R90; assumption log 26). -/
def State.maintenance (host : Nat) (addr : Word) (act : State → State) (s : State) :
    Host.Outcome State Fault Refusal :=
  if s.hazard addr.toNat && s.hostUnclean host addr.toNat then .fault (.footprintHazard (.host host) addr)
  else .next (act s)

/-- One event from outside the machine. -/
def handle (e : Event) (s : State) : Host.Outcome State Fault Refusal :=
  match e with
  | .regRead agent width o => hostRead agent width o s
  | .regWrite agent width o v => hostWrite agent width o v s
  | .memRead agent addr => s.memoryAccess agent addr (State.sysRead agent addr.toNat)
  | .memWrite agent addr v => s.memoryAccess agent addr (State.sysWrite agent addr.toNat v)
  | .clean host addr => s.maintenance host addr (State.cleanByte host addr.toNat)
  | .invalidate host addr => s.maintenance host addr (State.invalidateByte host addr.toNat)
  | .hardReset => .next s.hardReset

end Sys2Proof.Machine
end

