-- ==== Sys2Proof/Machine/Dispatch.lean ====
section
/-! DEFINITION. The meaning of every command, one arm for each row of spec/opcode_table.json. -/

namespace Sys2Proof.Machine

/-- One command, run to its completion or its first error as one atomic engine step (R91). -/
def exec (i : Instr) (s : State) : Host.Outcome State Fault Refusal :=
  match i with
  -- bitmap unit (40_bitmap.md)
  | .bset => Sys2Proof.Machine.execBset s
  | .bclr => Sys2Proof.Machine.execBclr s
  | .btst => Sys2Proof.Machine.execBtst s
  | .btstc => Sys2Proof.Machine.execBtstc s
  | .bfree => Sys2Proof.Machine.execBfree s
  | .bfind => Sys2Proof.Machine.execBfind s
  -- hash unit (41_hash.md)
  | .hash alg seeded => Sys2Proof.Machine.execHash alg seeded s
  | .hinit seeded => Sys2Proof.Machine.execHinit seeded s
  | .hprep alg => Sys2Proof.Machine.execHprep alg s
  | .hmd4 => Sys2Proof.Machine.execHmd4 s
  | .htea => Sys2Proof.Machine.execHtea s
  | .hfin alg => Sys2Proof.Machine.execHfin alg s
  -- system (42_system.md)
  | .nop => Sys2Proof.Machine.execNop s
  | .clrst => Sys2Proof.Machine.execClrst s
  | .srst => Sys2Proof.Machine.execSrst s

end Sys2Proof.Machine
end

