-- ==== Sys2Proof/Machine/Step.lean ====
section
/-! DEFINITION. One step of the machine: the turn that is next, an event from outside or the engine's
atomic step on the command in progress (spec/70_reset_and_hazards.md R91, spec/00_scope.md R9). -/

namespace Sys2Proof.Machine

/-- The engine's step on an accepted word (R14, R36, R91). -/
def engineStep (c : Word) (s : State) : Host.Outcome State Fault Refusal :=
  match decode c with
  | .command i => exec i s
  | .illegal _ => .next (runIllegal c s).state

/-- The engine's turn: its step when Busy, nothing when Idle (R9, R91). -/
def engineTurn (s : State) : Host.Outcome State Fault Refusal :=
  match s.phase with
  | .idle => .next s
  | .busy c => engineStep c s

/-- The turns left after the one taken. -/
def State.withPending (l : List Turn) (s : State) : State := { s with pending := l }

/-- One step: the first pending turn; with none pending the engine's, so that a command always completes
(R91; assumption logs 2 and 18). A waiting host reads STATUS until the engine is Idle (R38). -/
def step (s : State) : Host.Outcome State Fault Refusal :=
  match s.pending with
  | [] => engineTurn s
  | .engine :: rest => engineTurn (s.withPending rest)
  | .external e :: rest => handle e (s.withPending rest)
  | .wait agent :: rest =>
    match s.phase with
    | .idle => .next ((s.withPending rest).answer (.word agent s.statusWord))
    | .busy c => engineStep c s

/-- The state in which the next step runs the command word held in the low `nbits` bits of `w`: the word
accepted (R14), and the engine's turn first (assumption log 1). -/
def State.withFetchWord (s : State) (nbits w : Nat) : State :=
  let s' := s.accept (tableWord nbits w)
  match s.pending with
  | [] => s'
  | turns => s'.withPending (.engine :: turns)

end Sys2Proof.Machine
end

