-- ==== Sys2Proof/Machine/FindBytes.lean ====
section
/-! DEFINITION. The byte-skipping scan that spec/40_bitmap.md R46 allows an implementation of BFIND: each
byte of the scan is read once. The model's BFIND is the reference scan of R45 (`runBfind`). -/

namespace Sys2Proof.Machine

/-- The lowest clear bit of a byte among the bits `lo` to `hi - 1`; a byte 0xFF has none. -/
def lowestClear (b : Byte) (lo hi : Nat) : Option Nat :=
  (List.range 8).find? fun j => decide (lo ≤ j) && decide (j < hi) && !(b.getLsbD j)

/-- The scan of `[start, stop)` byte by byte: `q` bytes are left, byte `k` is next (R46). -/
def findBytes (start stop : Nat) : (q k : Nat) → Run → Ended
  | 0, _, r => .completed false (r.update (State.setResult 0xFFFFFFFF#32))
  | q + 1, k, r =>
    if r.st.inBuffer k then
      (memRead (r.st.bitmapAddr k) r).finish fun b r =>
        match lowestClear b (start - 8 * k) (stop - 8 * k) with
        | some j => .completed true (r.update (State.setResult (BitVec.ofNat 32 (8 * k + j))))
        | none => findBytes start stop q (k + 1) r
    else .raised .bounds (BitVec.ofNat 32 (max start (8 * k))) r

/-- BFIND by bytes (R46). -/
def runBfindBytes (s : State) : Ended :=
  let start := s.arg0.toNat
  let stop := s.arg1.toNat
  findBytes start stop (if start < stop then byteOf (stop - 1) - byteOf start + 1 else 0) (byteOf start)
    (Run.start s)

end Sys2Proof.Machine
end

