-- ==== Sys2Proof/Machine/HostProgram.lean ====
section
/-! DEFINITION. The host's notation: assembler text of a command, host program lines and the macros
(spec/30_encoding.md R38, R39). All of it is outside the engine; it yields command words and turns. -/

namespace Sys2Proof.Machine

/-- The mnemonic of a command (R35). -/
def mnemonicText : Instr → String
  | .bset => "BSET"
  | .bclr => "BCLR"
  | .btst => "BTST"
  | .btstc => "BTSTC"
  | .bfree => "BFREE"
  | .bfind => "BFIND"
  | .hash _ _ => "HASH"
  | .hinit _ => "HINIT"
  | .hprep _ => "HPREP"
  | .hmd4 => "HMD4"
  | .htea => "HTEA"
  | .hfin _ => "HFIN"
  | .nop => "NOP"
  | .clrst => "CLRST"
  | .srst => "SRST"

/-- An operand of a command line: a number or a name (R38). -/
inductive AsmOperand where
  | number (n : Nat)
  | name (text : String)
deriving DecidableEq, Repr

/-- The names of the algorithm ids (R38, 41_hash.md R49). -/
def algNames : List (String × Nat) :=
  [("legacy", 0), ("half_md4", 1), ("tea", 2), ("legacy_u", 3), ("half_md4_u", 4), ("tea_u", 5)]

/-- `alg`: a number 0 to 15 or one of the names (R38). -/
def asmAlg : AsmOperand → Option Nat
  | .number n => if algFits n then some n else none
  | .name text => algNames.lookup text

/-- The operand `seed` (R38). -/
def asmIsSeed (x : AsmOperand) : Bool := decide (x = .name "seed")

/-- Mnemonics are case-insensitive (R38). -/
def sameMnemonic (a b : String) : Bool := a.toList.map Char.toUpper == b.toList.map Char.toUpper

/-- The commands of format Z (R33, R38). -/
def formatZInstrs : List Instr :=
  [.bset, .bclr, .btst, .btstc, .bfree, .bfind, .hmd4, .htea, .nop, .clrst, .srst]

/-- The operand forms of R38: `MNEMONIC`, `MNEMONIC alg`, `HASH alg, seed`, `HINIT seed`. -/
def assemble (mnemonic : String) (operands : List AsmOperand) : Option Instr :=
  match operands with
  | [] =>
    if sameMnemonic mnemonic "HINIT" then some (.hinit false)
    else formatZInstrs.find? fun i => sameMnemonic mnemonic (mnemonicText i)
  | [x] =>
    if sameMnemonic mnemonic "HINIT" then if asmIsSeed x then some (.hinit true) else none
    else if sameMnemonic mnemonic "HASH" then (asmAlg x).map (.hash · false)
    else if sameMnemonic mnemonic "HPREP" then (asmAlg x).map .hprep
    else if sameMnemonic mnemonic "HFIN" then (asmAlg x).map .hfin
    else none
  | [x, y] =>
    if sameMnemonic mnemonic "HASH" && asmIsSeed y then (asmAlg x).map (.hash · true) else none
  | _ => none

/-! ### Command text (R38; assumption log 25) -/

/-- Blanks between the parts of a line. -/
def isBlank (c : Char) : Bool := c == ' ' || c == '\t'

/-- A text without the blanks at its ends. -/
def trimBlanks (cs : List Char) : List Char :=
  ((cs.dropWhile isBlank).reverse.dropWhile isBlank).reverse

/-- The parts of a text between commas. -/
def splitCommas : List Char → List (List Char)
  | [] => [[]]
  | c :: cs =>
    if c == ',' then [] :: splitCommas cs
    else
      match splitCommas cs with
      | [] => [[c]]
      | part :: parts => (c :: part) :: parts

/-- The value of a digit, decimal or hexadecimal. -/
def digitValue (c : Char) : Option Nat :=
  if '0' ≤ c ∧ c ≤ '9' then some (c.toNat - '0'.toNat)
  else if 'a' ≤ c ∧ c ≤ 'f' then some (c.toNat - 'a'.toNat + 10)
  else if 'A' ≤ c ∧ c ≤ 'F' then some (c.toNat - 'A'.toNat + 10)
  else none

/-- The number a list of digits of a base writes, after the value `n` of the digits before them. -/
def digitsValue (base : Nat) : Nat → List Char → Option Nat
  | n, [] => some n
  | n, c :: cs =>
    match digitValue c with
    | some d => if d < base then digitsValue base (base * n + d) cs else none
    | none => none

/-- A number: hexadecimal after `0x`, else decimal (R7). -/
def asmNumber (cs : List Char) : Option Nat :=
  match cs with
  | [] => none
  | '0' :: 'x' :: c :: rest => digitsValue 16 0 (c :: rest)
  | _ => digitsValue 10 0 cs

/-- One operand of a command line. -/
def asmOperand (cs : List Char) : AsmOperand :=
  match asmNumber cs with
  | some n => .number n
  | none => .name (String.ofList cs)

/-- A command line: the mnemonic, then operands separated by commas, then a comment after `;` (R38). -/
def assembleText (text : List Char) : Option Instr :=
  let line := trimBlanks (text.takeWhile (· != ';'))
  let mnemonic := line.takeWhile (fun c => !isBlank c)
  let rest := trimBlanks (line.dropWhile (fun c => !isBlank c))
  let operands := if rest.isEmpty then [] else (splitCommas rest).map fun part => asmOperand (trimBlanks part)
  assemble (String.ofList mnemonic) operands

/-- A line of a host program (R38). -/
inductive HostLine where
  /-- `wr REG, v` -/
  | wr (r : Reg) (v : Word)
  /-- `rd REG` -/
  | rd (r : Reg)
  /-- `cmd COMMAND`, which is `wr CMD, encoding(COMMAND)` -/
  | cmd (i : Instr)
  /-- `wait` -/
  | wait
deriving DecidableEq, Repr

/-- The turn a host takes for a line (R38). -/
def HostLine.turn (agent : Agent) : HostLine → Turn
  | .wr r v => .external (.regWrite agent .bits32 (BitVec.ofNat 8 r.offset) v)
  | .rd r => .external (.regRead agent .bits32 (BitVec.ofNat 8 r.offset))
  | .cmd i => .external (.regWrite agent .bits32 (BitVec.ofNat 8 Reg.cmd.offset) (encode i))
  | .wait => .wait agent

/-- A host program is loaded: its lines are the turns to come. -/
def State.loadProgram (agent : Agent) (lines : List HostLine) (s : State) : State :=
  { s with pending := lines.map (HostLine.turn agent) }

/-- `mem A: b0 b1 ...` (R38): not an action, system memory holds these bytes at the start. -/
def State.withBytes (a : Nat) (bytes : List Byte) (s : State) : State :=
  { s with mem := (bytes.zipIdx).foldl (fun m x => Memory.write m (a + x.2) x.1) s.mem }

/-! ### The macros of R39 -/

/-- `bitmap B, L` -/
def macroBitmap (b l : Word) : List HostLine := [.wr .bmBase b, .wr .bmLen l]

/-- `setbit i` -/
def macroSetbit (i : Word) : List HostLine := [.wr .arg0 i, .cmd .bset, .wait]

/-- `clrbit i` -/
def macroClrbit (i : Word) : List HostLine := [.wr .arg0 i, .cmd .bclr, .wait]

/-- `testbit i` -/
def macroTestbit (i : Word) : List HostLine := [.wr .arg0 i, .cmd .btst, .wait, .rd .status, .rd .result]

/-- `testclr i` -/
def macroTestclr (i : Word) : List HostLine := [.wr .arg0 i, .cmd .btstc, .wait, .rd .status, .rd .result]

/-- `free s, n` -/
def macroFree (s n : Word) : List HostLine := [.wr .arg0 s, .wr .arg1 n, .cmd .bfree, .wait]

/-- `find s, e` -/
def macroFind (s e : Word) : List HostLine :=
  [.wr .arg0 s, .wr .arg1 e, .cmd .bfind, .wait, .rd .status, .rd .result]

/-- `name N, n` -/
def macroName (base len : Word) : List HostLine := [.wr .nameBase base, .wr .nameLen len]

/-- `seed s0, s1, s2, s3` -/
def macroSeed (s0 s1 s2 s3 : Word) : List HostLine :=
  [.wr (.seed 0) s0, .wr (.seed 1) s1, .wr (.seed 2) s2, .wr (.seed 3) s3]

/-- `dirhash alg` and `dirhash alg, seed` -/
def macroDirhash (alg : Nat) (seeded : Bool) : List HostLine :=
  [.cmd (.hash alg seeded), .wait, .rd .status, .rd .major, .rd .minor]

/-- `ack`: `wr CTRL, (reg[CTRL] & 1) | 2`, in the state whose CTRL the host last saw -/
def macroAck (s : State) : List HostLine := [.wr .ctrl ((s.ctrlWord &&& 1#32) ||| 2#32)]

end Sys2Proof.Machine
end

