-- ==== Sys2Proof/Safety.lean ====
section
/-! DEFINITION. Runs, the end of a run, and the invariant of the machine, in the terms claims use
(spec/70_reset_and_hazards.md R94). -/

namespace Sys2Proof.Machine

/-- A state reached by steps that answer a next state; a fault or a refusal reaches nothing. -/
inductive Reaches : State → State → Prop where
  | refl (s : State) : Reaches s s
  | tail {s t u : State} : Reaches s t → step t = .next u → Reaches s u

/-- The host program has made its last access and the engine phase is Idle (R94). -/
def State.ended (s : State) : Prop := s.pending = [] ∧ s.phase = .idle

/-- A run ends successfully (R94): it has ended, and no model fault was met on the way. -/
def EndsSuccessfully (s t : State) : Prop := Reaches s t ∧ t.ended

/-- The properties of a state that every step keeps. -/
structure Inv (s : State) : Prop where
  /-- Memory is in canonical form. -/
  memWf : Memory.wf s.mem = true
  /-- MAJOR has bit 0 = 0 (41_hash.md R55, R62 item 3; 10_state.md R24). -/
  majorEven : s.major.getLsbD 0 = false
  /-- MAJOR is never the shifted HTree EOF sentinel (R55, R62 item 3). -/
  majorNotSentinel : s.major ≠ 0xFFFFFFFE#32
  /-- STATUS.DONE is 0 while a command is in progress (R13, R14). -/
  busyNotDone : s.isBusy = true → s.done = false
  /-- STATUS.FOUND stands for a BFIND that completed without error (R13, R45). -/
  foundNoError : s.found = true → s.err = .noError
  /-- A found index is never 0xFFFFFFFF (R45). -/
  foundIndex : s.found = true → s.result ≠ 0xFFFFFFFF#32
  /-- ERRINFO is 0 when the last command completed without error (R19). -/
  errinfoZero : s.err = .noError → s.errinfo = 0#32
  /-- The model's bookkeeping of host caches are sets. -/
  uncleanNodup : s.unclean.Nodup
  /-- The same for the bytes a host's copy may be behind. -/
  staleNodup : s.stale.Nodup
  /-- The same for the copies that are not behind. -/
  freshNodup : s.fresh.Nodup

end Sys2Proof.Machine
end

