-- ==== Sys2Proof/Certificates/Slice0/Obligations.lean ====
section
/-! DEFINITION. The statements for the provers. `Sys2Proof.Claims` holds the words they are said in, written
from the rules of spec/ and not from the model's own helpers. -/

namespace Sys2Proof.Claims

open Sys2Proof.Machine

/-! ### How a command ends -/

/-- A command that ended normally (R73): nothing else of `s` is changed. -/
def okState (found : Bool) (s : State) : State :=
  { s with phase := .idle, done := true, found := found, err := .noError, errinfo := 0#32 }

/-- A command that ended with an error (R72): nothing else of `s` is changed. -/
def errState (e : ErrCode) (info : Word) (s : State) : State :=
  { s with phase := .idle, done := true, found := false, err := e, errinfo := info }

/-- A command refused with NOTSUP (41_hash.md, `notsup()`; R24). -/
def refusedState (c : Word) (s : State) : State :=
  errState .notsup c { s with major := 0#32, minor := 0#32 }

/-! ### The buffer and the name -/

/-- The byte of bit `i` lies inside the buffer (40_bitmap.md). -/
def InRange (s : State) (i : Nat) : Prop := i / 8 < s.bmLen.toNat

/-- Bit `i` of the bitmap (R27). -/
def bufBit (s : State) (i : Nat) : Bool :=
  (Memory.read s.mem (s.bmBase.toNat + i / 8)).getLsbD (i % 8)

/-- Byte `k` of the name (R27). -/
def nameByte (s : State) (k : Nat) : Byte := Memory.read s.mem (s.nameBase.toNat + k)

/-- The engine reads the byte without a bus error and as memory holds it (R26, R32). -/
def Readable (s : State) (a : Nat) : Prop := s.portOk a .read = true ∧ s.engineBlind a = false

/-- The engine reads and writes the byte without a bus error, and reads it as memory holds it. -/
def Accessible (s : State) (a : Nat) : Prop := Readable s a ∧ s.portOk a .write = true

/-- Bit `i` is one of the bits BFREE clears, in the buffer or not (R44). -/
def Freed (s : State) (i : Nat) : Prop := s.arg0.toNat ≤ i ∧ i < s.arg0.toNat + s.arg1.toNat

/-- Every bit of the byte of bit `i` is one BFREE clears, so that it is zeroed with no read (R44). -/
def WhollyFreed (s : State) (i : Nat) : Prop :=
  s.arg0.toNat ≤ 8 * (i / 8) ∧ 8 * (i / 8) + 8 ≤ s.arg0.toNat + s.arg1.toNat

/-- BFREE can do its accesses of the byte of bit `i`: a write, and a read if it clears only a part. -/
def FreeReady (s : State) (i : Nat) : Prop :=
  s.portOk (s.bmBase.toNat + i / 8) .write = true ∧
    (WhollyFreed s i ∨ Readable s (s.bmBase.toNat + i / 8))

/-- BFREE fails on the byte of bit `i`: its write, or the read it needs if it clears only a part. -/
def FreeFails (s : State) (i : Nat) : Prop :=
  s.portOk (s.bmBase.toNat + i / 8) .write = false ∨
    (¬ WhollyFreed s i ∧ s.portOk (s.bmBase.toNat + i / 8) .read = false)

/-! ### Words -/

/-- The OPC values of the commands of format Z (R35). -/
def zOpcodes : List Nat := [0x01, 0x02, 0x03, 0x04, 0x05, 0x06, 0x13, 0x14, 0x20, 0x21, 0x22]

/-- The words R36 makes ILLEGAL: a reserved OPC, or a nonzero bit in a field the format requires to be 0. -/
def Malformed (c : Word) : Prop :=
  c.toNat % 256 ∉ zOpcodes ++ [0x10, 0x11, 0x12, 0x15] ∨
  (c.toNat % 256 ∈ zOpcodes ∧ c.toNat / 2 ^ 8 ≠ 0) ∨
  (c.toNat % 256 ∈ [0x12, 0x15] ∧ c.toNat / 2 ^ 12 ≠ 0) ∨
  (c.toNat % 256 = 0x10 ∧ c.toNat / 2 ^ 13 ≠ 0) ∨
  (c.toNat % 256 = 0x11 ∧ (c.toNat / 2 ^ 13 ≠ 0 ∨ c.toNat / 2 ^ 8 % 16 ≠ 0))

/-- The command word of a hash command (R38). -/
def hashWord (opc alg : Nat) (seeded : Bool) : Word :=
  BitVec.ofNat 32 (opc + 256 * alg + if seeded then 4096 else 0)

/-! ### The hash functions, as 41_hash.md writes them -/

/-- The initial hash state (R56, R57). -/
def initialH (seeded : Bool) (s : State) : Vector Word 4 :=
  if seeded then s.seed else #v[0x67452301#32, 0xEFCDAB89#32, 0x98BADCFE#32, 0x10325476#32]

/-- `widen(b, uns)` (R50). -/
def widened (uns : Bool) (b : Byte) : Word :=
  if uns = true ∨ b.toNat < 0x80 then BitVec.ofNat 32 b.toNat
  else BitVec.ofNat 32 b.toNat ||| 0xFFFFFF00#32

/-- `combine(a, x)` (R51). -/
def joined (c : PackCombine) (a x : Word) : Word := if c = .orLane then a ||| x else a + x

/-- W after `prep` at offset `off` (R51): word j is the pad word with the bytes of group j shifted in. -/
def packed (s : State) (off : Nat) (uns : Bool) : Vector Word 8 :=
  Vector.ofFn fun j : Fin 8 =>
    (List.range (min 4 (min 32 (s.nameLen.toNat - off) - 4 * j.val))).foldl
      (fun v t => joined s.platform.combine (v <<< 8) (widened uns (nameByte s (off + 4 * j.val + t))))
      (BitVec.ofNat 32 ((s.nameLen.toNat - off) % 256 * 0x01010101))

/-- `rol32(v, s)` (R7). -/
def rotated (v : Word) (s : Nat) : Word := (v <<< s) ||| (v >>> (32 - s))

/-- `f`, `g`, `h` of R52. -/
def selection (x y z : Word) : Word := (x &&& y) ||| (~~~x &&& z)
/-- `g` of R52. -/
def majority (x y z : Word) : Word := (x &&& y) ||| (x &&& z) ||| (y &&& z)
/-- `h` of R52. -/
def parity (x y z : Word) : Word := x ^^^ y ^^^ z

/-- `STEP(fn, p, q, r, u, x, K, s)`: the new value of `p` (R52). -/
def stepped (fn : Word → Word → Word → Word) (p q r u x k : Word) (s : Nat) : Word :=
  rotated (p + fn q r u + x + k) s

/-- `md4_transform()` (R52): the 24 steps in the order the rule writes them. -/
def md4Spec (h : Vector Word 4) (w : Vector Word 8) : Vector Word 4 :=
  let k2 := 0x5A827999#32
  let k3 := 0x6ED9EBA1#32
  let (a, b, c, d) := (h[0], h[1], h[2], h[3])
  let a := stepped selection a b c d w[0] 0#32 3
  let d := stepped selection d a b c w[1] 0#32 7
  let c := stepped selection c d a b w[2] 0#32 11
  let b := stepped selection b c d a w[3] 0#32 19
  let a := stepped selection a b c d w[4] 0#32 3
  let d := stepped selection d a b c w[5] 0#32 7
  let c := stepped selection c d a b w[6] 0#32 11
  let b := stepped selection b c d a w[7] 0#32 19
  let a := stepped majority a b c d w[1] k2 3
  let d := stepped majority d a b c w[3] k2 5
  let c := stepped majority c d a b w[5] k2 9
  let b := stepped majority b c d a w[7] k2 13
  let a := stepped majority a b c d w[0] k2 3
  let d := stepped majority d a b c w[2] k2 5
  let c := stepped majority c d a b w[4] k2 9
  let b := stepped majority b c d a w[6] k2 13
  let a := stepped parity a b c d w[3] k3 3
  let d := stepped parity d a b c w[7] k3 9
  let c := stepped parity c d a b w[2] k3 11
  let b := stepped parity b c d a w[6] k3 15
  let a := stepped parity a b c d w[1] k3 3
  let d := stepped parity d a b c w[5] k3 9
  let c := stepped parity c d a b w[0] k3 11
  let b := stepped parity b c d a w[4] k3 15
  #v[h[0] + a, h[1] + b, h[2] + c, h[3] + d]

/-- One mixing step of R53 on (b0, b1, sum). -/
def teaStep (w : Vector Word 8) (v : Word × Word × Word) : Word × Word × Word :=
  let sum := v.2.2 + 0x9E3779B9#32
  let b0 := v.1 + (((v.2.1 <<< 4) + w[0]) ^^^ (v.2.1 + sum) ^^^ ((v.2.1 >>> 5) + w[1]))
  let b1 := v.2.1 + (((b0 <<< 4) + w[2]) ^^^ (b0 + sum) ^^^ ((b0 >>> 5) + w[3]))
  (b0, b1, sum)

/-- `tea_transform()` (R53). -/
def teaSpec (h : Vector Word 4) (w : Vector Word 8) : Vector Word 4 :=
  let v := (teaStep w)^[16] (h[0], h[1], 0#32)
  #v[h[0] + v.1, h[1] + v.2.1, h[2], h[3]]

/-- The two registers of the Legacy hash after its first `k` bytes (R54). -/
def legacySpec (s : State) (uns : Bool) (k : Nat) : Word × Word :=
  (List.range k).foldl
    (fun r t =>
      let sum := r.2 + (r.1 ^^^ (widened uns (nameByte s t) * 0x6D22F5#32))
      (if 2 ^ 31 ≤ sum.toNat then sum - 0x7FFFFFFF#32 else sum, r.1))
    (0x12A3FE2D#32, 0x37ABE8F9#32)

/-- `post(m)` (R55). -/
def posted (m : Word) : Word :=
  if m &&& 0xFFFFFFFE#32 = 0xFFFFFFFE#32 then 0xFFFFFFFC#32 else m &&& 0xFFFFFFFE#32

/-- H and W after the first `k` chunks of a name at a stride (R56). -/
def chunked (tr : Vector Word 4 → Vector Word 8 → Vector Word 4) (stride : Nat) (uns : Bool) (s : State)
    (h : Vector Word 4) (k : Nat) : Vector Word 4 × Vector Word 8 :=
  (List.range k).foldl
    (fun v c => (tr v.1 (packed s (stride * c) uns), packed s (stride * c) uns)) (h, s.w)

/-! ### The hash by its pipeline commands (R62 item 1) -/

/-- The state a command leaves. -/
def after (i : Instr) (s : State) : State :=
  match exec i s with
  | .next t => t
  | _ => s

/-- `count` times: NAME_OFF <- off, HPREP, then the block command, with off going up by the stride. -/
def pipelineChunks (alg stride : Nat) (block : Instr) : Nat → Nat → State → State
  | 0, _, s => s
  | count + 1, off, s =>
    pipelineChunks alg stride block count (off + stride)
      (after block (after (.hprep alg) { s with nameOff := BitVec.ofNat 32 off }))

/-- HINIT, then the chunks while `off < n`, then HFIN. -/
def pipeline (alg : Nat) (seeded : Bool) (stride : Nat) (block : Instr) (s : State) : State :=
  after (.hfin alg)
    (pipelineChunks alg stride block ((s.nameLen.toNat + stride - 1) / stride) 0
      (after (.hinit seeded) s))

/-! ### Footprints, as R29 lists them -/

/-- The bytes a command may read or write (R29). -/
def Touches (s : State) (a : Nat) : Instr → Prop
  | .bset | .bclr | .btst | .btstc =>
    s.arg0.toNat / 8 < s.bmLen.toNat ∧ a = s.bmBase.toNat + s.arg0.toNat / 8
  | .bfree =>
    0 < s.arg1.toNat ∧
      ∃ k, s.arg0.toNat / 8 ≤ k ∧ k ≤ (s.arg0.toNat + s.arg1.toNat - 1) / 8 ∧ k < s.bmLen.toNat ∧
        a = s.bmBase.toNat + k
  | .bfind =>
    s.arg0.toNat < s.arg1.toNat ∧
      ∃ k, s.arg0.toNat / 8 ≤ k ∧ k ≤ (s.arg1.toNat - 1) / 8 ∧ k < s.bmLen.toNat ∧
        a = s.bmBase.toNat + k
  | .hash alg _ =>
    1 ≤ s.nameLen.toNat ∧ s.nameLen.toNat ≤ 255 ∧ alg ≤ 5 ∧
      ∃ k, k < s.nameLen.toNat ∧ a = s.nameBase.toNat + k
  | .hprep alg =>
    1 ≤ s.nameLen.toNat ∧ s.nameLen.toNat ≤ 255 ∧ alg ≤ 5 ∧ s.nameOff.toNat < s.nameLen.toNat ∧
      ∃ k, k < min 32 (s.nameLen.toNat - s.nameOff.toNat) ∧
        a = s.nameBase.toNat + s.nameOff.toNat + k
  | .hinit _ | .hmd4 | .htea | .hfin _ | .nop | .clrst | .srst => False

/-- The commands that write memory (R29). -/
def Writer (i : Instr) : Prop := i = .bset ∨ i = .bclr ∨ i = .bfree

/-! ### The register window -/

/-- STATUS, bit by bit (R13, R71). -/
def statusBits (s : State) : Word :=
  BitVec.ofNat 32
    ((if s.phase = .idle then 0 else 1) + (if s.done then 2 else 0) + (if s.found then 4 else 0) +
      (if s.whb then 8 else 0) +
      256 * (match s.err with | .noError => 0 | .illegal => 1 | .notsup => 2 | .bounds => 3 | .buserr => 4))

/-- What an aligned 32-bit read at an offset shows while the engine is Idle (R10, R66). -/
def visible (s : State) (o : Nat) : Word :=
  match o with
  | 0x000 => 0x42480001#32
  | 0x004 => if s.irqen then 1#32 else 0#32
  | 0x008 => statusBits s
  | 0x010 => s.bmBase
  | 0x014 => s.bmLen
  | 0x018 => s.arg0
  | 0x01C => s.arg1
  | 0x020 => s.result
  | 0x024 => s.errinfo
  | 0x030 => s.nameBase
  | 0x034 => s.nameLen
  | 0x038 => s.nameOff
  | 0x040 => s.seed[0]
  | 0x044 => s.seed[1]
  | 0x048 => s.seed[2]
  | 0x04C => s.seed[3]
  | 0x050 => s.h[0]
  | 0x054 => s.h[1]
  | 0x058 => s.h[2]
  | 0x05C => s.h[3]
  | 0x060 => s.w[0]
  | 0x064 => s.w[1]
  | 0x068 => s.w[2]
  | 0x06C => s.w[3]
  | 0x070 => s.w[4]
  | 0x074 => s.w[5]
  | 0x078 => s.w[6]
  | 0x07C => s.w[7]
  | 0x080 => s.major
  | 0x084 => s.minor
  | _ => 0#32

/-- The reset column of R10. -/
def resetVisible (o : Nat) : Word :=
  match o with
  | 0x000 => 0x42480001#32
  | 0x050 => 0x67452301#32
  | 0x054 => 0xEFCDAB89#32
  | 0x058 => 0x98BADCFE#32
  | 0x05C => 0x10325476#32
  | _ => 0#32

/-- The offsets of the RW registers other than CTRL (R10). -/
def rwOffsets : List Nat :=
  [0x010, 0x014, 0x018, 0x01C, 0x030, 0x034, 0x038, 0x040, 0x044, 0x048, 0x04C, 0x050, 0x054, 0x058,
    0x05C, 0x060, 0x064, 0x068, 0x06C, 0x070, 0x074, 0x078, 0x07C]

/-- The offsets of the RO registers (R10). -/
def roOffsets : List Nat := [0x000, 0x008, 0x020, 0x024, 0x080, 0x084]

/-- The turn of an aligned or unaligned 32-bit write on the register port. -/
def writes (agent : Agent) (o : BitVec 8) (v : Word) : Turn :=
  .external (.regWrite agent .bits32 o v)

/-- The turn of a 32-bit read on the register port. -/
def reads (agent : Agent) (o : BitVec 8) : Turn := .external (.regRead agent .bits32 o)

/-- How many accesses a command performs at most (R91). -/
def accessBound (s : State) : Instr → Nat
  | .bset | .bclr => 2
  | .btst | .btstc => 1
  | .bfree => 28 + min (s.arg1.toNat / 8) s.bmLen.toNat
  | .bfind => s.arg1.toNat - s.arg0.toNat
  | .hash alg _ => if alg % 3 = 2 then 16 * 32 else 255
  | .hprep _ => 32
  | .hmd4 | .htea | .hinit _ | .hfin _ | .nop | .clrst | .srst => 0

end Sys2Proof.Claims

open Sys2Proof Sys2Proof.Machine Sys2Proof.Claims

/-! ### Encoding (R33 to R38) -/

/-- Decoding the encoding of a well-formed command gives it back (R33, R35, R38). -/
def Obligations.DecodeOfEncode : Prop :=
  ∀ i : Instr, i.wellFormed = true → decode (encode i) = .command i

/-- A word that decodes to a command is that command's encoding: no bit of the word is dropped (R35). -/
def Obligations.EncodeOfDecode : Prop :=
  ∀ (c : Word) (i : Instr), decode c = .command i → i.wellFormed = true ∧ encode i = c

/-- Words of 95_test_vectors.md 2.1, written out from the encoding table of R35. -/
def Obligations.DecodeSampleWords : Prop :=
  decode 0x00000001#32 = .command .bset ∧ decode 0x00000006#32 = .command .bfind ∧
  decode 0x00001210#32 = .command (.hash 2 true) ∧ decode 0x00001F10#32 = .command (.hash 15 true) ∧
  decode 0x00001011#32 = .command (.hinit true) ∧ decode 0x00000512#32 = .command (.hprep 5) ∧
  decode 0x00000F15#32 = .command (.hfin 15) ∧ decode 0x00000022#32 = .command .srst

/-- R36: which words are ILLEGAL; such a word is accepted like any other and completes at once; ALG 6 to 15
is not ILLEGAL, it decodes and is refused with NOTSUP. -/
def Obligations.IllegalWords : Prop :=
  (∀ c : Word, (∃ why, decode c = .illegal why) ↔ Malformed c) ∧
  (∀ (c : Word) (s : State), Malformed c → s.phase = .busy c → s.pending = [] →
    step s = .next (errState .illegal c s) ∧ (wordRun c s).trace = []) ∧
  (∀ (c : Word) (s : State) (agent : Agent), Malformed c → s.phase = .idle →
    s.pending = [writes agent 0x0C#8 c] →
    ∃ t, step s = .next t ∧ step t = .next (errState .illegal c { s with pending := [] })) ∧
  (∀ alg : Nat, 6 ≤ alg → alg ≤ 15 →
    (∀ seeded, decode (hashWord 0x10 alg seeded) = .command (.hash alg seeded)) ∧
    decode (hashWord 0x12 alg false) = .command (.hprep alg) ∧
    decode (hashWord 0x15 alg false) = .command (.hfin alg) ∧
    ∀ s : State,
      (∀ seeded, exec (.hash alg seeded) s = .next (refusedState (hashWord 0x10 alg seeded) s)) ∧
      exec (.hprep alg) s = .next (refusedState (hashWord 0x12 alg false) s) ∧
      exec (.hfin alg) s = .next (refusedState (hashWord 0x15 alg false) s))

/-! ### The step (R91) -/

/-- A step at the engine's turn runs the command the accepted word decodes to; the turn is taken off the
pending list, and a waiting host stays there. -/
def Obligations.StepRunsDecodedCommand : Prop :=
  ∀ (s : State) (c : Word) (i : Instr), s.phase = .busy c → decode c = .command i →
    (s.pending = [] → step s = exec i s) ∧
    (∀ rest, s.pending = .engine :: rest → step s = exec i { s with pending := rest }) ∧
    (∀ agent rest, s.pending = .wait agent :: rest → step s = exec i s)

/-- With nothing pending and the engine Idle nothing happens; the model's choice of what a step is then
(assumption log 18). -/
def Obligations.IdleMachineStays : Prop :=
  ∀ s : State, s.pending = [] → s.phase = .idle → step s = .next s

/-- R91: every accepted word completes at the engine's step, and a waiting host's wait ends. That the wait
ends in exactly two steps is the model's choice (assumption log 22: `wait` is one turn that takes the engine's
step while Busy); R38 makes it a loop of reads of no stated length. -/
def Obligations.AcceptedCommandsComplete : Prop :=
  ∀ (s : State) (c : Word), s.phase = .busy c →
    (s.pending = [] → ∃ t, step s = .next t ∧ t.phase = .idle ∧ t.done = true ∧ t.pending = []) ∧
    (∀ agent rest, s.pending = .wait agent :: rest →
      ∃ t u, step s = .next t ∧ step t = .next u ∧ u.phase = .idle ∧ u.pending = rest ∧
        u.reply = some (.word agent (statusBits t)) ∧ (statusBits t).getLsbD 0 = false)

/-! ### Bitmap unit (R40 to R47) -/

/-- R40, BSET on every form: out of range, unreadable, unwritable, done. -/
def Obligations.BsetSetsOneBit : Prop :=
  encode .bset = 0x00000001#32 ∧
  ∀ s : State,
    let a := s.bmBase.toNat + s.arg0.toNat / 8
    let v := s.readValue a ||| (1#8 <<< (s.arg0.toNat % 8))
    (¬ InRange s s.arg0.toNat →
      exec .bset s = .next (okState false s) ∧ (engineRun .bset s).trace = []) ∧
    (InRange s s.arg0.toNat → s.portOk a .read = false →
      exec .bset s = .next (errState .buserr (BitVec.ofNat 32 a) s) ∧ (engineRun .bset s).trace = []) ∧
    (InRange s s.arg0.toNat → s.portOk a .read = true → s.portOk a .write = false →
      (∃ d, exec .bset s = .next (errState .buserr (BitVec.ofNat 32 a) { s with draws := d })) ∧
      (engineRun .bset s).trace = [.read a]) ∧
    (InRange s s.arg0.toNat → s.portOk a .read = true → s.portOk a .write = true →
      Memory.wf s.mem = true →
      ∃ t, exec .bset s = .next t ∧
        t = okState false { s with mem := t.mem, stale := t.stale, fresh := t.fresh, draws := t.draws } ∧
        (engineRun .bset s).trace = [.read a, .write a v] ∧
        ∀ x, Memory.read t.mem x = if x = a then v else Memory.read s.mem x)

/-- R41, BCLR on every form. -/
def Obligations.BclrClearsOneBit : Prop :=
  encode .bclr = 0x00000002#32 ∧
  ∀ s : State,
    let a := s.bmBase.toNat + s.arg0.toNat / 8
    let v := s.readValue a &&& ~~~(1#8 <<< (s.arg0.toNat % 8))
    (¬ InRange s s.arg0.toNat →
      exec .bclr s = .next (okState false s) ∧ (engineRun .bclr s).trace = []) ∧
    (InRange s s.arg0.toNat → s.portOk a .read = false →
      exec .bclr s = .next (errState .buserr (BitVec.ofNat 32 a) s) ∧ (engineRun .bclr s).trace = []) ∧
    (InRange s s.arg0.toNat → s.portOk a .read = true → s.portOk a .write = false →
      (∃ d, exec .bclr s = .next (errState .buserr (BitVec.ofNat 32 a) { s with draws := d })) ∧
      (engineRun .bclr s).trace = [.read a]) ∧
    (InRange s s.arg0.toNat → s.portOk a .read = true → s.portOk a .write = true →
      Memory.wf s.mem = true →
      ∃ t, exec .bclr s = .next t ∧
        t = okState false { s with mem := t.mem, stale := t.stale, fresh := t.fresh, draws := t.draws } ∧
        (engineRun .bclr s).trace = [.read a, .write a v] ∧
        ∀ x, Memory.read t.mem x = if x = a then v else Memory.read s.mem x)

/-- R42, BTST: BOUNDS before any access, BUSERR, or RESULT 1 for set and 0 for clear. -/
def Obligations.BtstTestsForSet : Prop :=
  encode .btst = 0x00000003#32 ∧
  ∀ s : State,
    let a := s.bmBase.toNat + s.arg0.toNat / 8
    (¬ InRange s s.arg0.toNat →
      exec .btst s = .next (errState .bounds s.arg0 s) ∧ (engineRun .btst s).trace = []) ∧
    (InRange s s.arg0.toNat → s.portOk a .read = false →
      exec .btst s = .next (errState .buserr (BitVec.ofNat 32 a) s) ∧ (engineRun .btst s).trace = []) ∧
    (InRange s s.arg0.toNat → s.portOk a .read = true →
      (∃ d, exec .btst s = .next (okState false
        { s with
          result := if (s.readValue a).getLsbD (s.arg0.toNat % 8) then 1#32 else 0#32
          draws := d })) ∧
      (engineRun .btst s).trace = [.read a])

/-- R43, BTSTC: as BTST, with RESULT 1 for clear and 0 for set. -/
def Obligations.BtstcTestsForClear : Prop :=
  encode .btstc = 0x00000004#32 ∧
  ∀ s : State,
    let a := s.bmBase.toNat + s.arg0.toNat / 8
    (¬ InRange s s.arg0.toNat →
      exec .btstc s = .next (errState .bounds s.arg0 s) ∧ (engineRun .btstc s).trace = []) ∧
    (InRange s s.arg0.toNat → s.portOk a .read = false →
      exec .btstc s = .next (errState .buserr (BitVec.ofNat 32 a) s) ∧ (engineRun .btstc s).trace = []) ∧
    (InRange s s.arg0.toNat → s.portOk a .read = true →
      (∃ d, exec .btstc s = .next (okState false
        { s with
          result := if (s.readValue a).getLsbD (s.arg0.toNat % 8) then 0#32 else 1#32
          draws := d })) ∧
      (engineRun .btstc s).trace = [.read a])

/-- R44 and R47 item 4: when its accesses succeed BFREE clears exactly the bits of `[start, start + count)`
that lie in the buffer, and changes nothing else. -/
def Obligations.BfreeClearsExactlyTheRange : Prop :=
  encode .bfree = 0x00000005#32 ∧
  ∀ s : State, Memory.wf s.mem = true → (∀ i, Freed s i → InRange s i → FreeReady s i) →
    ∃ t, exec .bfree s = .next t ∧
      t = okState false { s with mem := t.mem, stale := t.stale, fresh := t.fresh } ∧
      (∀ i, InRange s i → (Freed s i → bufBit t i = false) ∧ (¬ Freed s i → bufBit t i = bufBit s i)) ∧
      (∀ x, x < s.bmBase.toNat ∨ s.bmBase.toNat + s.bmLen.toNat ≤ x →
        Memory.read t.mem x = Memory.read s.mem x)

/-- R44, corner cases: a count of 0, or a range wholly beyond the buffer, makes no access. -/
def Obligations.BfreeWithoutAccess : Prop :=
  ∀ s : State, s.arg1.toNat = 0 ∨ ¬ InRange s s.arg0.toNat →
    exec .bfree s = .next (okState false s) ∧ (engineRun .bfree s).trace = []

/-- R75 and R44: BFREE ends at the first byte it cannot access, of which bit `i` is the first one to clear;
the bits before it are cleared, everything else is unchanged. -/
def Obligations.BfreeStopsAtBusError : Prop :=
  ∀ (s : State) (i : Nat), Memory.wf s.mem = true → Freed s i → i = s.arg0.toNat ∨ i % 8 = 0 →
    InRange s i → (∀ j, Freed s j → j < i → FreeReady s j) → FreeFails s i →
    ∃ t, exec .bfree s = .next t ∧
      t = errState .buserr (BitVec.ofNat 32 (s.bmBase.toNat + i / 8))
        { s with mem := t.mem, stale := t.stale, fresh := t.fresh, draws := t.draws } ∧
      (∀ j, InRange s j →
        bufBit t j = if s.arg0.toNat ≤ j ∧ j < i then false else bufBit s j) ∧
      (∀ x, x < s.bmBase.toNat ∨ s.bmBase.toNat + s.bmLen.toNat ≤ x →
        Memory.read t.mem x = Memory.read s.mem x)

/-- R45, BFIND in its four outcomes: found, not found, BOUNDS, BUSERR; `Scanned n` says that the scan has
passed the indices before `n`. Its corner cases: an empty range makes no access, and with every bit in the
buffer set BOUNDS names max(start, 8L). -/
def Obligations.BfindFindsFirstClear : Prop :=
  encode .bfind = 0x00000006#32 ∧
  ∀ s : State,
    let Scanned := fun n : Nat => ∀ j, s.arg0.toNat ≤ j → j < n →
      InRange s j ∧ Readable s (s.bmBase.toNat + j / 8) ∧ bufBit s j = true
    (∀ i, s.arg0.toNat ≤ i → i < s.arg1.toNat → Scanned i → InRange s i →
      Readable s (s.bmBase.toNat + i / 8) → bufBit s i = false →
      exec .bfind s = .next (okState true { s with result := BitVec.ofNat 32 i })) ∧
    (Scanned s.arg1.toNat →
      exec .bfind s = .next (okState false { s with result := 0xFFFFFFFF#32 })) ∧
    (∀ i, s.arg0.toNat ≤ i → i < s.arg1.toNat → Scanned i → ¬ InRange s i →
      exec .bfind s = .next (errState .bounds (BitVec.ofNat 32 i) s)) ∧
    (∀ i, s.arg0.toNat ≤ i → i < s.arg1.toNat → Scanned i → InRange s i →
      s.portOk (s.bmBase.toNat + i / 8) .read = false →
      exec .bfind s = .next (errState .buserr (BitVec.ofNat 32 (s.bmBase.toNat + i / 8)) s)) ∧
    (s.arg1.toNat ≤ s.arg0.toNat → (engineRun .bfind s).trace = []) ∧
    (s.arg0.toNat < s.arg1.toNat → 8 * s.bmLen.toNat < s.arg1.toNat →
      (∀ j, s.arg0.toNat ≤ j → j < s.arg1.toNat → InRange s j →
        Readable s (s.bmBase.toNat + j / 8) ∧ bufBit s j = true) →
      exec .bfind s =
        .next (errState .bounds (BitVec.ofNat 32 (max s.arg0.toNat (8 * s.bmLen.toNat))) s))

/-- R46: the scan that reads each byte once and skips 0xFF bytes leaves the same state as the reference
scan, for every input (where no byte is hidden by an incoherent port). -/
def Obligations.BfindByBytesAgrees : Prop :=
  ∀ s : State, (∀ a, s.engineBlind a = false) → exec .bfind s = .next (runBfindBytes s).state

/-- R47 items 1 and 6: BSET then BTST gives 1, BCLR then BTSTC gives 1. -/
def Obligations.SetThenTestGivesOne : Prop :=
  ∀ s : State, Memory.wf s.mem = true → InRange s s.arg0.toNat →
    Accessible s (s.bmBase.toNat + s.arg0.toNat / 8) →
    (∃ t u, exec .bset s = .next t ∧ exec .btst t = .next u ∧ u.result = 1#32 ∧ u.err = .noError) ∧
    (∃ t u, exec .bclr s = .next t ∧ exec .btstc t = .next u ∧ u.result = 1#32 ∧ u.err = .noError)

/-- R47 item 2: issuing BSET or BCLR twice leaves the same buffer as issuing it once. -/
def Obligations.SetAndClearIdempotent : Prop :=
  ∀ (i : Instr) (s t u : State), i = .bset ∨ i = .bclr → Memory.wf s.mem = true →
    (∀ a, s.engineBlind a = false) → exec i s = .next t → exec i t = .next u → u.mem = t.mem

/-! ### Hash unit (R49 to R62) -/

/-- R55, the function `post(m)`, and that it never gives an odd value or the sentinel. That every MAJOR the
machine produces is post-processed is said by the statements of HASH and HFIN and by the invariant. -/
def Obligations.PostProcessing : Prop :=
  ∀ m : Word, post m = posted m ∧ (post m).getLsbD 0 = false ∧ post m ≠ 0xFFFFFFFE#32

/-- R57, HINIT: the IV, or the seed verbatim. -/
def Obligations.HinitSetsState : Prop :=
  encode (.hinit false) = 0x00000011#32 ∧ encode (.hinit true) = 0x00001011#32 ∧
  ∀ (seeded : Bool) (s : State),
    exec (.hinit seeded) s = .next (okState false { s with h := initialH seeded s })

/-- R58, HPREP: refused, done, or ended by a bus error with the words completed before it written. -/
def Obligations.HprepPacksChunk : Prop :=
  ∀ (alg : Nat) (s : State), alg < 16 →
    let n := s.nameLen.toNat
    let o := s.nameOff.toNat
    let uns := decide (3 ≤ alg)
    encode (.hprep alg) = hashWord 0x12 alg false ∧
    (n < 1 ∨ 255 < n ∨ 5 < alg ∨ n ≤ o →
      exec (.hprep alg) s = .next (refusedState (hashWord 0x12 alg false) s) ∧
      (engineRun (.hprep alg) s).trace = []) ∧
    (1 ≤ n → n ≤ 255 → alg ≤ 5 → o < n →
      (∀ k, k < min 32 (n - o) → Readable s (s.nameBase.toNat + o + k)) →
      exec (.hprep alg) s = .next (okState false { s with w := packed s o uns })) ∧
    (∀ t, 1 ≤ n → n ≤ 255 → alg ≤ 5 → o < n → t < min 32 (n - o) →
      (∀ k, k < t → Readable s (s.nameBase.toNat + o + k)) →
      s.portOk (s.nameBase.toNat + o + t) .read = false →
      exec (.hprep alg) s =
        .next (errState .buserr (BitVec.ofNat 32 (s.nameBase.toNat + o + t))
          { s with
            w := Vector.ofFn fun j : Fin 8 => if 4 * j.val + 4 ≤ t then (packed s o uns)[j] else s.w[j] }))

/-- R51: under an Unsigned id, OR and ADD pack the same words. -/
def Obligations.PackCombineAgreeUnsigned : Prop :=
  ∀ (s : State) (off : Nat) (c : PackCombine), 1 ≤ s.nameLen.toNat - off →
    (∀ k, k < min 32 (s.nameLen.toNat - off) → Readable s (s.nameBase.toNat + off + k)) →
    ∃ r r', prep off true (Run.start s) = .ok () r ∧
      prep off true (Run.start { s with platform := { s.platform with combine := c } }) = .ok () r' ∧
      r'.st.w = r.st.w

/-- R59 and R52, HMD4: one Half-MD4 block, the 24 steps as the rule writes them. -/
def Obligations.Hmd4TransformsBlock : Prop :=
  encode .hmd4 = 0x00000013#32 ∧
  ∀ s : State, exec .hmd4 s = .next (okState false { s with h := md4Spec s.h s.w })

/-- R60 and R53, HTEA: one TEA block; H2, H3 and W are kept. -/
def Obligations.HteaTransformsBlock : Prop :=
  encode .htea = 0x00000014#32 ∧
  ∀ s : State, exec .htea s = .next (okState false { s with h := teaSpec s.h s.w })

/-- R61, HFIN: refused for Legacy and unknown ids, else the selected pair, post-processed. -/
def Obligations.HfinSelectsResult : Prop :=
  ∀ (alg : Nat) (s : State), alg < 16 →
    encode (.hfin alg) = hashWord 0x15 alg false ∧
    (5 < alg ∨ alg % 3 = 0 →
      exec (.hfin alg) s = .next (refusedState (hashWord 0x15 alg false) s)) ∧
    (alg = 2 ∨ alg = 5 →
      exec (.hfin alg) s = .next (okState false { s with major := posted s.h[0], minor := s.h[1] })) ∧
    (alg = 1 ∨ alg = 4 →
      exec (.hfin alg) s = .next (okState false { s with major := posted s.h[1], minor := s.h[2] }))

/-- R56, fast failure of HASH: before any state setup or memory access. -/
def Obligations.HashFastFailure : Prop :=
  ∀ (alg : Nat) (seeded : Bool) (s : State), alg < 16 →
    s.nameLen.toNat < 1 ∨ 255 < s.nameLen.toNat ∨ 5 < alg →
    exec (.hash alg seeded) s = .next (refusedState (hashWord 0x10 alg seeded) s) ∧
    (engineRun (.hash alg seeded) s).trace = []

/-- R56: HASH of a readable name, for the six algorithms, equals the functions of R50 to R55 applied to the
name's bytes. -/
def Obligations.HashOfReadableName : Prop :=
  ∀ (alg : Nat) (seeded : Bool) (s : State), 1 ≤ s.nameLen.toNat → s.nameLen.toNat ≤ 255 → alg ≤ 5 →
    (∀ k, k < s.nameLen.toNat → Readable s (s.nameBase.toNat + k)) →
    let n := s.nameLen.toNat
    let uns := decide (3 ≤ alg)
    let h := initialH seeded s
    let md4 := chunked md4Spec 32 uns s h ((n + 31) / 32)
    let tea := chunked teaSpec 16 uns s h ((n + 15) / 16)
    exec (.hash alg seeded) s = .next (okState false
      (if alg % 3 = 0 then
        { s with h := h, major := posted ((legacySpec s uns n).1 <<< 1), minor := 0#32 }
      else if alg % 3 = 1 then
        { s with h := md4.1, w := md4.2, major := posted md4.1[1], minor := md4.1[2] }
      else { s with h := tea.1, w := tea.2, major := posted tea.1[0], minor := tea.1[1] }))

/-- R75, HASH ended by a bus error at name byte `t`: H as transformed so far, W as packed so far, MAJOR and
MINOR unchanged. TEA first meets byte `t` in its chunk 0, or in the chunk before the one `t` starts in. -/
def Obligations.HashStopsAtBusError : Prop :=
  ∀ (alg : Nat) (seeded : Bool) (s : State) (t : Nat),
    1 ≤ s.nameLen.toNat → s.nameLen.toNat ≤ 255 → alg ≤ 5 → t < s.nameLen.toNat →
    (∀ k, k < t → Readable s (s.nameBase.toNat + k)) →
    s.portOk (s.nameBase.toNat + t) .read = false →
    let uns := decide (3 ≤ alg)
    let h := initialH seeded s
    let partW := fun (w : Vector Word 8) (off : Nat) =>
      Vector.ofFn fun j : Fin 8 => if off + 4 * j.val + 4 ≤ t then (packed s off uns)[j] else w[j]
    let c := if t < 32 then 0 else t / 16 - 1
    let md4 := chunked md4Spec 32 uns s h (t / 32)
    let tea := chunked teaSpec 16 uns s h c
    exec (.hash alg seeded) s = .next (errState .buserr (BitVec.ofNat 32 (s.nameBase.toNat + t))
      (if alg % 3 = 0 then { s with h := h }
      else if alg % 3 = 1 then { s with h := md4.1, w := partW md4.2 (32 * (t / 32)) }
      else { s with h := tea.1, w := partW tea.2 (16 * c) }))

/-- R62 item 1: HASH leaves the same H, W, MAJOR and MINOR as HINIT, the HPREP and block commands chunk by
chunk, and HFIN, when there is no bus error. -/
def Obligations.PipelineEqualsHash : Prop :=
  ∀ (alg : Nat) (seeded : Bool) (s : State), 1 ≤ s.nameLen.toNat → s.nameLen.toNat ≤ 255 →
    (∀ k, k < s.nameLen.toNat → Readable s (s.nameBase.toNat + k)) →
    (alg = 1 ∨ alg = 4 → ∃ t, exec (.hash alg seeded) s = .next t ∧
      let p := pipeline alg seeded 32 .hmd4 s
      t.h = p.h ∧ t.w = p.w ∧ t.major = p.major ∧ t.minor = p.minor) ∧
    (alg = 2 ∨ alg = 5 → ∃ t, exec (.hash alg seeded) s = .next t ∧
      let p := pipeline alg seeded 16 .htea s
      t.h = p.h ∧ t.w = p.w ∧ t.major = p.major ∧ t.minor = p.minor)

/-- R62 item 2: the signed and the unsigned id of a family agree on a name whose bytes are below 0x80. -/
def Obligations.SignedUnsignedAgree : Prop :=
  ∀ (alg : Nat) (seeded : Bool) (s : State), alg ≤ 2 → 1 ≤ s.nameLen.toNat → s.nameLen.toNat ≤ 255 →
    (∀ k, k < s.nameLen.toNat →
      s.engineBlind (s.nameBase.toNat + k) = false ∧ (nameByte s k).toNat < 0x80) →
    exec (.hash alg seeded) s = exec (.hash (alg + 3) seeded) s

/-- R62 item 5: the result of HASH depends on the name's bytes, its length, ALG, S, the seed (if S = 1) and
`P_PACK_COMBINE` only: two states that agree on these get the same MAJOR and MINOR. -/
def Obligations.HashDependsOnNameAndSeed : Prop :=
  ∀ (alg : Nat) (seeded : Bool) (s s' : State), alg ≤ 5 → 1 ≤ s.nameLen.toNat →
    s.nameLen.toNat ≤ 255 → s'.nameLen = s.nameLen → s'.platform.combine = s.platform.combine →
    (seeded = true → s'.seed = s.seed) →
    (∀ k, k < s.nameLen.toNat → Readable s (s.nameBase.toNat + k) ∧
      Readable s' (s'.nameBase.toNat + k) ∧ nameByte s' k = nameByte s k) →
    ∃ t t', exec (.hash alg seeded) s = .next t ∧ exec (.hash alg seeded) s' = .next t' ∧
      t'.major = t.major ∧ t'.minor = t.minor ∧ t.err = .noError ∧ t'.err = .noError

/-- R62 item 4: a Legacy HASH gives MINOR = 0 and does not depend on the seed or on S. -/
def Obligations.LegacyIgnoresSeed : Prop :=
  ∀ (alg : Nat) (s : State) (seed : Vector Word 4), alg = 0 ∨ alg = 3 → 1 ≤ s.nameLen.toNat →
    s.nameLen.toNat ≤ 255 → (∀ k, k < s.nameLen.toNat → Readable s (s.nameBase.toNat + k)) →
    ∃ t u, exec (.hash alg false) s = .next t ∧ exec (.hash alg true) { s with seed := seed } = .next u ∧
      u.major = t.major ∧ t.minor = 0#32 ∧ u.minor = 0#32 ∧ t.w = s.w ∧ u.w = s.w ∧ u.h = seed

/-! ### System commands (R63 to R65) -/

/-- R63: NOP only ends normally. -/
def Obligations.NopOnlyCompletes : Prop :=
  encode .nop = 0x00000020#32 ∧ ∀ s : State, exec .nop s = .next (okState false s)

/-- R64: CLRST clears WHB when it is accepted, not when it completes, so a write dropped while it is busy
shows afterwards. -/
def Obligations.ClrstClearsWhbAtAcceptance : Prop :=
  encode .clrst = 0x00000021#32 ∧
  (∀ s : State, exec .clrst s = .next (okState false s)) ∧
  (∀ (s : State) (agent : Agent) (rest : List Turn), s.phase = .idle →
    s.pending = writes agent 0x0C#8 0x00000021#32 :: rest →
    step s = .next
      { s with pending := rest, phase := .busy 0x00000021#32, done := false, whb := false }) ∧
  (∀ (s : State) (agent : Agent) (o : BitVec 8) (v : Word), s.phase = .busy 0x00000021#32 →
    o.toNat % 4 = 0 → o ≠ 0x04#8 → s.pending = [writes agent o v] →
    ∃ t u, step s = .next t ∧ step t = .next u ∧ u.phase = .idle ∧ u.whb = true)

/-- R65: SRST sets every register to its reset value and completes; memory is not changed; its word is
dropped while another command is in progress. -/
def Obligations.SrstResetsRegisters : Prop :=
  encode .srst = 0x00000022#32 ∧
  (∀ s : State, ∃ t, exec .srst s = .next t ∧
    (∀ o, visible t o = if o = 0x008 then 0x00000002#32 else resetVisible o) ∧
    t.phase = .idle ∧ t.irq = false ∧ t.mem = s.mem ∧ t.platform = s.platform ∧ t.pending = s.pending ∧
    t.reply = s.reply ∧ t.unclean = s.unclean ∧ t.stale = s.stale ∧ t.fresh = s.fresh) ∧
  (∀ (s : State) (c : Word) (agent : Agent) (rest : List Turn), s.phase = .busy c →
    s.pending = writes agent 0x0C#8 0x00000022#32 :: rest →
    step s = .next { s with pending := rest, whb := true })

/-! ### All commands (R10, R13, R29, R72 to R75, R91) -/

/-- R72, R73, R13, R19: what the completion of every decoded command writes; FOUND only after a
BFIND without error, ERRINFO 0 after a completion without error. -/
def Obligations.CompletionFlags : Prop :=
  ∀ (i : Instr) (s t : State), exec i s = .next t →
    t.phase = .idle ∧ t.done = true ∧ (t.found = true → i = .bfind ∧ t.err = .noError) ∧
    (t.err = .noError → t.errinfo = 0#32) ∧ t.err ≠ .illegal

/-- R10, the column "written by commands": which commands can change which state at all. -/
def Obligations.CommandsWriteOnlyTheirRegisters : Prop :=
  ∀ (i : Instr) (s t : State), exec i s = .next t →
    (i ≠ .srst →
      t.irqen = s.irqen ∧ t.whb = s.whb ∧ t.bmBase = s.bmBase ∧ t.bmLen = s.bmLen ∧ t.arg0 = s.arg0 ∧
      t.arg1 = s.arg1 ∧ t.nameBase = s.nameBase ∧ t.nameLen = s.nameLen ∧ t.nameOff = s.nameOff ∧
      t.seed = s.seed) ∧
    (i ≠ .btst → i ≠ .btstc → i ≠ .bfind → i ≠ .srst → t.result = s.result) ∧
    ((∀ alg b, i ≠ .hash alg b) → (∀ b, i ≠ .hinit b) → i ≠ .hmd4 → i ≠ .htea → i ≠ .srst → t.h = s.h) ∧
    ((∀ alg b, i ≠ .hash alg b) → (∀ alg, i ≠ .hprep alg) → i ≠ .srst → t.w = s.w) ∧
    ((∀ alg b, i ≠ .hash alg b) → (∀ alg, i ≠ .hprep alg) → (∀ alg, i ≠ .hfin alg) → i ≠ .srst →
      t.major = s.major ∧ t.minor = s.minor) ∧
    (¬ Writer i → t.mem = s.mem ∧ t.stale = s.stale ∧ t.fresh = s.fresh) ∧
    t.platform = s.platform ∧ t.unclean = s.unclean ∧ t.reply = s.reply ∧ t.pending = s.pending

/-- R75, R72, R18: a command that ends with an error leaves RESULT as it was and FOUND 0; BTST, BTSTC and
BFIND then change nothing but STATUS and ERRINFO. -/
def Obligations.ErrorsLeaveResult : Prop :=
  ∀ (i : Instr) (s t : State), exec i s = .next t → t.err ≠ .noError →
    t.result = s.result ∧ t.found = false ∧
    (i = .btst ∨ i = .btstc ∨ i = .bfind →
      ∃ e info d, t = errState e info { s with draws := d })

/-- R29: every access a command performs lies in the footprint R29 lists, and only BSET, BCLR and BFREE
write. -/
def Obligations.AccessesStayInFootprint : Prop :=
  ∀ (i : Instr) (s : State) (x : Access), x ∈ (engineRun i s).trace →
    Touches s x.addr i ∧ (∀ a v, x = .write a v → Writer i)

/-- R29, the frame on memory: a byte outside the footprint reads as before, whatever the command did, and a
host's cached copy of it is no more behind than before. -/
def Obligations.MemoryOutsideFootprintKept : Prop :=
  ∀ (i : Instr) (s t : State) (a : Nat), Memory.wf s.mem = true → exec i s = .next t →
    ¬ Touches s a i →
    Memory.read t.mem a = Memory.read s.mem a ∧ (a ∈ t.stale ↔ a ∈ s.stale) ∧
    (∀ n : Nat, (⟨n, a⟩ : HostByte) ∈ t.fresh ↔ ⟨n, a⟩ ∈ s.fresh) ∧ t.unclean = s.unclean

/-- R91: the bound on the accesses of each command. -/
def Obligations.AccessCountBounded : Prop :=
  ∀ (i : Instr) (s : State), (engineRun i s).trace.length ≤ accessBound s i

/-! ### The master port (R26, R31, R32) -/

/-- R26: when an access completes, what it does, and that a refused one changes nothing; the own window is
always refused. -/
def Obligations.MasterPortAccess : Prop :=
  (∀ (s : State) (a : Nat) (k : AccessKind), s.portOk a k = true ↔
    a < 2 ^ 32 ∧ ¬ (s.platform.base.toNat ≤ a ∧ a < s.platform.base.toNat + 256) ∧
    ∃ g ∈ s.platform.memMap, g.base ≤ a ∧ a < g.base + g.size ∧
      (k = .read → g.readable = true) ∧ (k = .write → g.writable = true)) ∧
  (∀ (r : Run) (a : Nat), r.st.portOk a .read = false →
    memRead a r = .busErr (BitVec.ofNat 32 a) r) ∧
  (∀ (r : Run) (a : Nat), Readable r.st a →
    memRead a r = .ok (Memory.read r.st.mem a) ⟨r.st, r.trace ++ [.read a]⟩) ∧
  (∀ (r : Run) (a : Nat) (v : Byte), r.st.portOk a .write = false →
    memWrite a v r = .busErr (BitVec.ofNat 32 a) r) ∧
  (∀ (r : Run) (a : Nat) (v : Byte), r.st.portOk a .write = true → Memory.wf r.st.mem = true →
    ∃ r', memWrite a v r = .ok () r' ∧ r'.trace = r.trace ++ [.write a v] ∧
      r'.st = { r.st with mem := r'.st.mem, stale := r'.st.stale, fresh := r'.st.fresh } ∧
      ∀ x, Memory.read r'.st.mem x = if x = a then v else Memory.read r.st.mem x)

/-- R31 item 2 and R32: a byte a host wrote and then itself cleaned is the byte the engine reads, whatever
`P_COHERENT` is, when no other host has an unclean copy of it (assumption log 10). -/
def Obligations.EngineSeesCleanedWrite : Prop :=
  ∀ (s : State) (n : Nat) (addr : Word) (v : Byte) (rest : List Turn), s.phase = .idle →
    Memory.wf s.mem = true → Platform.inWindow s.platform addr.toNat = false →
    (∀ m, m ≠ n → s.hostUnclean m addr.toNat = false) →
    s.pending = .external (.memWrite (.host n) addr v) :: .external (.clean n addr) :: rest →
    ∃ t u, step s = .next t ∧ step t = .next u ∧ u.readValue addr.toNat = v ∧ u.pending = rest

/-- R31 item 3 and R32: after a command has written a byte, a host that invalidates its own copy and reads the
byte gets what memory holds, whatever `P_COHERENT` is, when no host has an unclean copy of it (assumption
log 10). -/
def Obligations.HostSeesEngineWrite : Prop :=
  ∀ (s : State) (n : Nat) (addr : Word) (rest : List Turn), s.phase = .idle →
    s.engineBlind addr.toNat = false → Platform.inWindow s.platform addr.toNat = false →
    s.pending = .external (.invalidate n addr) :: .external (.memRead (.host n) addr) :: rest →
    ∃ t u, step s = .next t ∧ step t = .next u ∧ u.mem = s.mem ∧
      u.reply = some (.byte (.host n) (Memory.read s.mem addr.toNat)) ∧ u.pending = rest

/-- R31 item 3 and R32: cache maintenance is each host's own. Where a host `n` has not cleaned its copy of a
byte, the engine's read stays any value after another host `m` cleans or invalidates the byte; where what
`n` reads is any value, it stays so (93_implementation_defined.md U8; assumption log 10). -/
def Obligations.MaintenanceIsEachHostsOwn : Prop :=
  ∀ (s : State) (n m : Nat) (addr : Word) (rest : List Turn), s.phase = .idle → m ≠ n →
    s.pending = .external (.clean m addr) :: rest ∨ s.pending = .external (.invalidate m addr) :: rest →
    ∃ t, step s = .next t ∧ t.pending = rest ∧
      (s.hostUnclean n addr.toNat = true →
        t.hostUnclean n addr.toNat = true ∧ t.engineBlind addr.toNat = true) ∧
      (s.hostBlind n addr.toNat = true → t.hostBlind n addr.toNat = true)

/-! ### The register port (R10 to R14, R66 to R68, R88, R89) -/

/-- R14, R67: a write of CMD while Idle is accepted; it raises BUSY and lowers DONE. -/
def Obligations.CmdWriteAccepted : Prop :=
  ∀ (s : State) (agent : Agent) (v : Word) (rest : List Turn), s.phase = .idle →
    s.pending = writes agent 0x0C#8 v :: rest →
    step s = .next
      { s with
        pending := rest, phase := .busy v, done := false
        whb := if v = 0x00000021#32 then false else s.whb }

/-- R89: while BUSY a write to any offset but CTRL is dropped and sets WHB; a write of CTRL is accepted. -/
def Obligations.BusyWritesDropped : Prop :=
  ∀ (s : State) (c : Word) (agent : Agent) (o : BitVec 8) (v : Word) (rest : List Turn),
    s.phase = .busy c → o.toNat % 4 = 0 → s.pending = writes agent o v :: rest →
    (o ≠ 0x04#8 → step s = .next { s with pending := rest, whb := true }) ∧
    (o = 0x04#8 →
      step s = .next
        { s with pending := rest, irqen := v.getLsbD 0, done := s.done && !(v.getLsbD 1) })

/-- R12, R67: a write of CTRL while Idle keeps IRQEN and acknowledges DONE; the other bits are ignored. -/
def Obligations.CtrlWrite : Prop :=
  ∀ (s : State) (agent : Agent) (v : Word) (rest : List Turn), s.phase = .idle →
    s.pending = writes agent 0x04#8 v :: rest →
    step s = .next
      { s with
        pending := rest, irqen := v.getLsbD 0, done := if v.getLsbD 1 then false else s.done }

/-- R66, R10: what a read shows at every aligned offset while Idle, and that it changes nothing. -/
def Obligations.IdleReads : Prop :=
  ∀ (s : State) (agent : Agent) (o : BitVec 8) (rest : List Turn), s.phase = .idle →
    o.toNat % 4 = 0 → s.pending = reads agent o :: rest →
    step s = .next { s with pending := rest, reply := some (.word agent (visible s o.toNat)) }

/-- R88: while BUSY, ID, CTRL and STATUS read as they are; a read of any other register answers some value
and changes no register and no memory. That CMD and reserved offsets read 0 is assumption log 8. -/
def Obligations.BusyReads : Prop :=
  ∀ (s : State) (c : Word) (agent : Agent) (o : BitVec 8) (rest : List Turn), s.phase = .busy c →
    o.toNat % 4 = 0 → s.pending = reads agent o :: rest →
    (o.toNat ∈ [0x000, 0x004, 0x008] →
      step s = .next { s with pending := rest, reply := some (.word agent (visible s o.toNat)) }) ∧
    (∃ v d, step s = .next { s with pending := rest, reply := some (.word agent v), draws := d })

/-- R67: a RW register other than CTRL keeps all 32 bits of a write, and no other offset changes. -/
def Obligations.RwRegistersKeepWrites : Prop :=
  ∀ (s : State) (agent : Agent) (o : BitVec 8) (v : Word) (rest : List Turn), s.phase = .idle →
    o.toNat ∈ rwOffsets → s.pending = writes agent o v :: rest →
    ∃ t, step s = .next t ∧ (∀ p, visible t p = if p = o.toNat then v else visible s p) ∧
      t.mem = s.mem ∧ t.phase = .idle ∧ t.platform = s.platform ∧ t.unclean = s.unclean ∧
      t.stale = s.stale ∧ t.fresh = s.fresh ∧ t.draws = s.draws ∧ t.reply = s.reply ∧ t.pending = rest

/-- R10, R67: while Idle, writes of RO registers and of reserved offsets are ignored. -/
def Obligations.ReadOnlyAndReservedWritesIgnored : Prop :=
  ∀ (s : State) (agent : Agent) (o : BitVec 8) (v : Word) (rest : List Turn), s.phase = .idle →
    o.toNat % 4 = 0 → o.toNat ∉ rwOffsets → o.toNat ≠ 0x004 → o.toNat ≠ 0x00C →
    s.pending = writes agent o v :: rest → step s = .next { s with pending := rest }

/-- R68: an access of another width, or at an offset that is not a multiple of 4, is the fault
HOST_ACCESS naming the access; no run through it ends successfully. -/
def Obligations.MisshapenAccessFaults : Prop :=
  ∀ (s : State) (agent : Agent) (width : Width) (o : BitVec 8) (v : Word) (rest : List Turn),
    width ≠ .bits32 ∨ o.toNat % 4 ≠ 0 →
    s.pending = .external (.regRead agent width o) :: rest ∨
      s.pending = .external (.regWrite agent width o v) :: rest →
    step s = .fault (.hostAccess agent width o) ∧ ∀ t, ¬ EndsSuccessfully s t

/-- R90, R29: while a command is in progress, another agent's access to a byte of its footprint is the
fault FOOTPRINT_HAZARD naming agent and address; no run through it ends successfully. A byte access to the
register window is HOST_ACCESS instead, in every phase (assumption log 20). -/
def Obligations.FootprintAccessFaults : Prop :=
  ∀ (s : State) (agent : Agent) (addr : Word) (v : Byte) (rest : List Turn),
    s.pending = .external (.memRead agent addr) :: rest ∨
      s.pending = .external (.memWrite agent addr v) :: rest →
    (∀ (c : Word) (i : Instr), s.phase = .busy c → decode c = .command i → Touches s addr.toNat i →
      Platform.inWindow s.platform addr.toNat = false →
      step s = .fault (.footprintHazard agent addr) ∧ ∀ t, ¬ EndsSuccessfully s t) ∧
    (∀ o : BitVec 8, addr.toNat = s.platform.base.toNat + o.toNat →
      step s = .fault (.hostAccess agent .bits8 o) ∧ ∀ t, ¬ EndsSuccessfully s t)

/-! ### Interrupt, reset, runs (R76, R85, R87, R94) -/

/-- R76: the interrupt is a level; with IRQEN the completion of every command but SRST raises it (SRST clears
IRQEN, R65); DONEACK, the next accepted word and IRQEN = 0 lower it. The completion of an ILLEGAL word is not
among the clauses. -/
def Obligations.InterruptLevel : Prop :=
  (∀ s : State, s.irq = true ↔ s.irqen = true ∧ s.done = true) ∧
  (∀ (i : Instr) (s t : State), i ≠ .srst → exec i s = .next t → t.irq = s.irqen) ∧
  (∀ (s : State) (v : Word), v.getLsbD 1 = true ∨ v.getLsbD 0 = false → (s.writeCtrl v).irq = false) ∧
  (∀ (s : State) (c : Word), (s.accept c).irq = false)

/-- R85, R10: what the machine holds right after reset; the hardware reset in any phase: every register at
its reset value, the engine Idle, no completion, memory unchanged when Idle, and while BUSY as after some
front part of the command's reference access sequence. After SRST the same holds, but for DONE. -/
def Obligations.HardwareReset : Prop :=
  ((∀ o, visible State.reset o = resetVisible o) ∧ State.reset.phase = .idle ∧ State.reset.irq = false) ∧
  (∀ (s : State) (rest : List Turn), s.pending = .external .hardReset :: rest →
    ∃ t, step s = .next t ∧ (∀ o, visible t o = resetVisible o) ∧ t.phase = .idle ∧ t.irq = false ∧
      t.pending = rest ∧ t.platform = s.platform ∧
      (s.phase = .idle → t.mem = s.mem) ∧
      (∀ c, s.phase = .busy c → ∃ n, n ≤ (wordRun c s).trace.length ∧
        t.mem = ((wordRun c s).trace.take n).foldl
          (fun m x => match x with | .read _ => m | .write a v => Memory.write m a v) s.mem)) ∧
  (∀ s t : State, exec .srst s = .next t →
    (∀ o, visible t o = if o = 0x008 then 0x00000002#32 else resetVisible o) ∧ t.phase = .idle ∧
    t.irq = false ∧ t.mem = s.mem)

/-- The invariant holds right after reset. -/
def Obligations.InvariantAtReset : Prop := Inv State.reset

/-- The invariant is kept by every step, from every state that has it: memory stays canonical, MAJOR stays
post-processed, DONE is 0 while BUSY, FOUND and ERRINFO agree with ERR. -/
def Obligations.InvariantKept : Prop :=
  ∀ s t : State, Inv s → step s = .next t → Inv t

/-- R6: no step changes the platform's parameters. -/
def Obligations.PlatformNeverChanges : Prop :=
  ∀ s t : State, step s = .next t → t.platform = s.platform

/-- R39, R38: the macro `setbit i` run by a host from an Idle machine leaves what one BSET with ARG0 = i
leaves, with STATUS answered to the host. That it takes four steps is the model's choice (assumption log 22:
`wait` is one turn that takes the engine's step while Busy); the rules give the polling loop no length. -/
def Obligations.SetbitMacroRuns : Prop :=
  ∀ (s : State) (agent : Agent) (i : Word), s.phase = .idle →
    s.pending = (macroSetbit i).map (HostLine.turn agent) →
    ∃ t u, exec .bset { s with arg0 := i, done := false, phase := .busy 0x00000001#32,
                               pending := [.wait agent] } = .next t ∧
      Host.Core.run Sys2Proof.core 4 s = .next u ∧
      u = { t with pending := [], reply := some (.word agent (statusBits t)) }
end

