-- ==== Sys2Proof/Laws/Memory.lean ====
section
/-! SUPPORT. The laws of system memory: a read after a write, the canonical form, and equality of memories
that read the same. -/

namespace Sys2Proof.Machine

@[simp] theorem Memory.read_nil (a : Nat) : Memory.read [] a = Memory.unlisted := rfl

theorem Memory.read_cons (k : Nat) (b : Byte) (m : Memory) (a : Nat) :
    Memory.read ((k, b) :: m) a = if k = a then b else Memory.read m a := rfl

@[simp] theorem Memory.wfFrom_nil (lo : Nat) : Memory.wfFrom lo [] = true := rfl

theorem Memory.wfFrom_cons (lo k : Nat) (b : Byte) (m : Memory) :
    Memory.wfFrom lo ((k, b) :: m) = true ↔
      lo ≤ k ∧ k < 2 ^ 32 ∧ b ≠ Memory.unlisted ∧ Memory.wfFrom (k + 1) m = true := by
  simp [Memory.wfFrom, and_assoc]

theorem Memory.wfFrom_mono {lo lo' : Nat} (h : lo' ≤ lo) {m : Memory} (hm : Memory.wfFrom lo m = true) :
    Memory.wfFrom lo' m = true := by
  cases m with
  | nil => rfl
  | cons e m =>
    obtain ⟨k, b⟩ := e
    rw [Memory.wfFrom_cons] at hm ⊢
    exact ⟨h.trans hm.1, hm.2⟩

/-- An address below every listed one reads as unlisted. -/
theorem Memory.read_below {lo : Nat} {m : Memory} (hm : Memory.wfFrom lo m = true) {a : Nat}
    (ha : a < lo) : Memory.read m a = Memory.unlisted := by
  induction m generalizing lo with
  | nil => rfl
  | cons e m ih =>
    obtain ⟨k, b⟩ := e
    rw [Memory.wfFrom_cons] at hm
    rw [Memory.read_cons, if_neg (by omega)]
    exact ih hm.2.2.2 (by omega)

theorem Memory.wfFrom_put {lo a : Nat} {v : Byte} {m : Memory} (hlo : lo ≤ a) (ha : a < 2 ^ 32)
    (hm : Memory.wfFrom (a + 1) m = true) : Memory.wfFrom lo (Memory.put a v m) = true := by
  unfold Memory.put
  split
  · exact Memory.wfFrom_mono (by omega) hm
  · next hv => exact (Memory.wfFrom_cons ..).2 ⟨hlo, ha, hv, hm⟩

/-- A write keeps the canonical form. -/
theorem Memory.wfFrom_write {lo : Nat} {m : Memory} (hm : Memory.wfFrom lo m = true) {a : Nat}
    (hlo : lo ≤ a) (ha : a < 2 ^ 32) (v : Byte) : Memory.wfFrom lo (Memory.write m a v) = true := by
  induction m generalizing lo with
  | nil => exact Memory.wfFrom_put hlo ha rfl
  | cons e m ih =>
    obtain ⟨k, b⟩ := e
    have hc := (Memory.wfFrom_cons ..).1 hm
    unfold Memory.write
    split
    · next h => exact Memory.wfFrom_put hlo ha ((Memory.wfFrom_cons ..).2 ⟨by omega, hc.2⟩)
    · split
      · next h => exact Memory.wfFrom_put hlo ha (h ▸ hc.2.2.2)
      · exact (Memory.wfFrom_cons ..).2 ⟨hc.1, hc.2.1, hc.2.2.1, ih hc.2.2.2 (by omega)⟩

/-- A write of an address that exists keeps the canonical form. -/
theorem Memory.write_wf {m : Memory} (hm : Memory.wf m = true) {a : Nat} (ha : a < 2 ^ 32) (v : Byte) :
    Memory.wf (Memory.write m a v) = true := Memory.wfFrom_write hm (Nat.zero_le a) ha v

theorem Memory.read_put {a : Nat} {v : Byte} {m : Memory} (b : Nat)
    (hm : Memory.read m a = Memory.unlisted ∨ v ≠ Memory.unlisted) :
    Memory.read (Memory.put a v m) b = if b = a then v else Memory.read m b := by
  unfold Memory.put
  by_cases hv : v = Memory.unlisted
  · rw [if_pos hv]
    by_cases hb : b = a
    · subst hb; rw [if_pos rfl, hv]; exact hm.resolve_right (by simp [hv])
    · rw [if_neg hb]
  · rw [if_neg hv, Memory.read_cons]
    by_cases hb : b = a
    · subst hb; simp
    · rw [if_neg (fun h => hb h.symm), if_neg hb]

theorem Memory.read_write_from {lo : Nat} {m : Memory} (hm : Memory.wfFrom lo m = true) (a : Nat)
    (v : Byte) (b : Nat) :
    Memory.read (Memory.write m a v) b = if b = a then v else Memory.read m b := by
  induction m generalizing lo with
  | nil => exact Memory.read_put b (.inl rfl)
  | cons e m ih =>
    obtain ⟨k, x⟩ := e
    have hc := (Memory.wfFrom_cons ..).1 hm
    unfold Memory.write
    split
    · next h =>
      exact Memory.read_put b (.inl (Memory.read_below
        ((Memory.wfFrom_cons ..).2 ⟨Nat.le_refl k, hc.2⟩) h))
    · split
      · next h =>
        subst h
        rw [Memory.read_put b (.inl (Memory.read_below hc.2.2.2 (by omega))), Memory.read_cons]
        by_cases hb : b = a
        · simp [hb]
        · rw [if_neg hb, if_neg hb, if_neg (fun h => hb h.symm)]
      · next h1 h2 =>
        rw [Memory.read_cons, Memory.read_cons, ih hc.2.2.2]
        by_cases hb : k = b
        · subst hb; rw [if_pos rfl, if_pos rfl, if_neg (fun h => h2 h.symm)]
        · rw [if_neg hb, if_neg hb]

/-- What a byte reads as after a write (R26): the value written there, every other byte as before. -/
theorem Memory.read_write {m : Memory} (hm : Memory.wf m = true) (a : Nat) (v : Byte) (b : Nat) :
    Memory.read (Memory.write m a v) b = if b = a then v else Memory.read m b :=
  Memory.read_write_from hm a v b

theorem Memory.read_write_same {m : Memory} (hm : Memory.wf m = true) (a : Nat) (v : Byte) :
    Memory.read (Memory.write m a v) a = v := by simp [Memory.read_write hm]

theorem Memory.read_write_other {m : Memory} (hm : Memory.wf m = true) {a b : Nat} (h : b ≠ a) (v : Byte) :
    Memory.read (Memory.write m a v) b = Memory.read m b := by simp [Memory.read_write hm, h]

theorem Memory.ext_from {lo : Nat} {m n : Memory} (hm : Memory.wfFrom lo m = true)
    (hn : Memory.wfFrom lo n = true) (h : ∀ a, Memory.read m a = Memory.read n a) : m = n := by
  induction m generalizing lo n with
  | nil =>
    cases n with
    | nil => rfl
    | cons e n =>
      obtain ⟨k, b⟩ := e
      have hc := (Memory.wfFrom_cons ..).1 hn
      have := h k
      rw [Memory.read_cons, if_pos rfl] at this
      exact absurd this.symm hc.2.2.1
  | cons e m ih =>
    obtain ⟨k, b⟩ := e
    have hc := (Memory.wfFrom_cons ..).1 hm
    cases n with
    | nil =>
      have := h k
      rw [Memory.read_cons, if_pos rfl] at this
      exact absurd this hc.2.2.1
    | cons e' n =>
      obtain ⟨k', b'⟩ := e'
      have hc' := (Memory.wfFrom_cons ..).1 hn
      have hk : k = k' := by
        rcases Nat.lt_trichotomy k k' with hlt | heq | hlt
        · have := h k
          rw [Memory.read_cons, if_pos rfl,
            Memory.read_below ((Memory.wfFrom_cons ..).2 ⟨Nat.le_refl k', hc'.2⟩) hlt] at this
          exact absurd this hc.2.2.1
        · exact heq
        · have := h k'
          rw [Memory.read_cons k' b', if_pos rfl,
            Memory.read_below ((Memory.wfFrom_cons ..).2 ⟨Nat.le_refl k, hc.2⟩) hlt] at this
          exact absurd this.symm hc'.2.2.1
      subst hk
      have hb : b = b' := by
        have := h k
        rwa [Memory.read_cons, if_pos rfl, Memory.read_cons, if_pos rfl] at this
      subst hb
      have : m = n := by
        refine ih hc.2.2.2 hc'.2.2.2 fun a => ?_
        by_cases ha : k = a
        · subst ha
          rw [Memory.read_below hc.2.2.2 (Nat.lt_succ_self k), Memory.read_below hc'.2.2.2 (Nat.lt_succ_self k)]
        · have := h a
          rwa [Memory.read_cons, if_neg ha, Memory.read_cons, if_neg ha] at this
      rw [this]

/-- Equal memories are equal data: two canonical memories that read the same are the same list. -/
theorem Memory.ext_of_read {m n : Memory} (hm : Memory.wf m = true) (hn : Memory.wf n = true)
    (h : ∀ a, Memory.read m a = Memory.read n a) : m = n := Memory.ext_from hm hn h

end Sys2Proof.Machine
end

