-- ==== Sys2Proof/Laws/State.lean ====
section
/-! SUPPORT. One lemma per field per named update of the state, each true by unfolding. -/

namespace Sys2Proof.Machine

variable (s : State)

/-! ### `State.complete` -/

@[simp] theorem State.complete_phase (b : Bool) : (s.complete b).phase = .idle := rfl
@[simp] theorem State.complete_irqen (b : Bool) : (s.complete b).irqen = s.irqen := rfl
@[simp] theorem State.complete_done (b : Bool) : (s.complete b).done = true := rfl
@[simp] theorem State.complete_found (b : Bool) : (s.complete b).found = b := rfl
@[simp] theorem State.complete_whb (b : Bool) : (s.complete b).whb = s.whb := rfl
@[simp] theorem State.complete_err (b : Bool) : (s.complete b).err = .noError := rfl
@[simp] theorem State.complete_bmBase (b : Bool) : (s.complete b).bmBase = s.bmBase := rfl
@[simp] theorem State.complete_bmLen (b : Bool) : (s.complete b).bmLen = s.bmLen := rfl
@[simp] theorem State.complete_arg0 (b : Bool) : (s.complete b).arg0 = s.arg0 := rfl
@[simp] theorem State.complete_arg1 (b : Bool) : (s.complete b).arg1 = s.arg1 := rfl
@[simp] theorem State.complete_result (b : Bool) : (s.complete b).result = s.result := rfl
@[simp] theorem State.complete_errinfo (b : Bool) : (s.complete b).errinfo = 0#32 := rfl
@[simp] theorem State.complete_nameBase (b : Bool) : (s.complete b).nameBase = s.nameBase := rfl
@[simp] theorem State.complete_nameLen (b : Bool) : (s.complete b).nameLen = s.nameLen := rfl
@[simp] theorem State.complete_nameOff (b : Bool) : (s.complete b).nameOff = s.nameOff := rfl
@[simp] theorem State.complete_seed (b : Bool) : (s.complete b).seed = s.seed := rfl
@[simp] theorem State.complete_h (b : Bool) : (s.complete b).h = s.h := rfl
@[simp] theorem State.complete_w (b : Bool) : (s.complete b).w = s.w := rfl
@[simp] theorem State.complete_major (b : Bool) : (s.complete b).major = s.major := rfl
@[simp] theorem State.complete_minor (b : Bool) : (s.complete b).minor = s.minor := rfl
@[simp] theorem State.complete_mem (b : Bool) : (s.complete b).mem = s.mem := rfl
@[simp] theorem State.complete_platform (b : Bool) : (s.complete b).platform = s.platform := rfl
@[simp] theorem State.complete_unclean (b : Bool) : (s.complete b).unclean = s.unclean := rfl
@[simp] theorem State.complete_stale (b : Bool) : (s.complete b).stale = s.stale := rfl
@[simp] theorem State.complete_fresh (b : Bool) : (s.complete b).fresh = s.fresh := rfl
@[simp] theorem State.complete_draws (b : Bool) : (s.complete b).draws = s.draws := rfl
@[simp] theorem State.complete_reply (b : Bool) : (s.complete b).reply = s.reply := rfl
@[simp] theorem State.complete_pending (b : Bool) : (s.complete b).pending = s.pending := rfl

/-! ### `State.raise` -/

@[simp] theorem State.raise_phase (e : ErrCode) (i : Word) : (s.raise e i).phase = .idle := rfl
@[simp] theorem State.raise_irqen (e : ErrCode) (i : Word) : (s.raise e i).irqen = s.irqen := rfl
@[simp] theorem State.raise_done (e : ErrCode) (i : Word) : (s.raise e i).done = true := rfl
@[simp] theorem State.raise_found (e : ErrCode) (i : Word) : (s.raise e i).found = false := rfl
@[simp] theorem State.raise_whb (e : ErrCode) (i : Word) : (s.raise e i).whb = s.whb := rfl
@[simp] theorem State.raise_err (e : ErrCode) (i : Word) : (s.raise e i).err = e := rfl
@[simp] theorem State.raise_bmBase (e : ErrCode) (i : Word) : (s.raise e i).bmBase = s.bmBase := rfl
@[simp] theorem State.raise_bmLen (e : ErrCode) (i : Word) : (s.raise e i).bmLen = s.bmLen := rfl
@[simp] theorem State.raise_arg0 (e : ErrCode) (i : Word) : (s.raise e i).arg0 = s.arg0 := rfl
@[simp] theorem State.raise_arg1 (e : ErrCode) (i : Word) : (s.raise e i).arg1 = s.arg1 := rfl
@[simp] theorem State.raise_result (e : ErrCode) (i : Word) : (s.raise e i).result = s.result := rfl
@[simp] theorem State.raise_errinfo (e : ErrCode) (i : Word) : (s.raise e i).errinfo = i := rfl
@[simp] theorem State.raise_nameBase (e : ErrCode) (i : Word) : (s.raise e i).nameBase = s.nameBase := rfl
@[simp] theorem State.raise_nameLen (e : ErrCode) (i : Word) : (s.raise e i).nameLen = s.nameLen := rfl
@[simp] theorem State.raise_nameOff (e : ErrCode) (i : Word) : (s.raise e i).nameOff = s.nameOff := rfl
@[simp] theorem State.raise_seed (e : ErrCode) (i : Word) : (s.raise e i).seed = s.seed := rfl
@[simp] theorem State.raise_h (e : ErrCode) (i : Word) : (s.raise e i).h = s.h := rfl
@[simp] theorem State.raise_w (e : ErrCode) (i : Word) : (s.raise e i).w = s.w := rfl
@[simp] theorem State.raise_major (e : ErrCode) (i : Word) : (s.raise e i).major = s.major := rfl
@[simp] theorem State.raise_minor (e : ErrCode) (i : Word) : (s.raise e i).minor = s.minor := rfl
@[simp] theorem State.raise_mem (e : ErrCode) (i : Word) : (s.raise e i).mem = s.mem := rfl
@[simp] theorem State.raise_platform (e : ErrCode) (i : Word) : (s.raise e i).platform = s.platform := rfl
@[simp] theorem State.raise_unclean (e : ErrCode) (i : Word) : (s.raise e i).unclean = s.unclean := rfl
@[simp] theorem State.raise_stale (e : ErrCode) (i : Word) : (s.raise e i).stale = s.stale := rfl
@[simp] theorem State.raise_fresh (e : ErrCode) (i : Word) : (s.raise e i).fresh = s.fresh := rfl
@[simp] theorem State.raise_draws (e : ErrCode) (i : Word) : (s.raise e i).draws = s.draws := rfl
@[simp] theorem State.raise_reply (e : ErrCode) (i : Word) : (s.raise e i).reply = s.reply := rfl
@[simp] theorem State.raise_pending (e : ErrCode) (i : Word) : (s.raise e i).pending = s.pending := rfl

/-! ### `State.accept` -/

@[simp] theorem State.accept_phase (c : Word) : (s.accept c).phase = .busy c := rfl
@[simp] theorem State.accept_irqen (c : Word) : (s.accept c).irqen = s.irqen := rfl
@[simp] theorem State.accept_done (c : Word) : (s.accept c).done = false := rfl
@[simp] theorem State.accept_found (c : Word) : (s.accept c).found = s.found := rfl
@[simp] theorem State.accept_whb (c : Word) :
    (s.accept c).whb = (if c = encode .clrst then false else s.whb) := rfl
@[simp] theorem State.accept_err (c : Word) : (s.accept c).err = s.err := rfl
@[simp] theorem State.accept_bmBase (c : Word) : (s.accept c).bmBase = s.bmBase := rfl
@[simp] theorem State.accept_bmLen (c : Word) : (s.accept c).bmLen = s.bmLen := rfl
@[simp] theorem State.accept_arg0 (c : Word) : (s.accept c).arg0 = s.arg0 := rfl
@[simp] theorem State.accept_arg1 (c : Word) : (s.accept c).arg1 = s.arg1 := rfl
@[simp] theorem State.accept_result (c : Word) : (s.accept c).result = s.result := rfl
@[simp] theorem State.accept_errinfo (c : Word) : (s.accept c).errinfo = s.errinfo := rfl
@[simp] theorem State.accept_nameBase (c : Word) : (s.accept c).nameBase = s.nameBase := rfl
@[simp] theorem State.accept_nameLen (c : Word) : (s.accept c).nameLen = s.nameLen := rfl
@[simp] theorem State.accept_nameOff (c : Word) : (s.accept c).nameOff = s.nameOff := rfl
@[simp] theorem State.accept_seed (c : Word) : (s.accept c).seed = s.seed := rfl
@[simp] theorem State.accept_h (c : Word) : (s.accept c).h = s.h := rfl
@[simp] theorem State.accept_w (c : Word) : (s.accept c).w = s.w := rfl
@[simp] theorem State.accept_major (c : Word) : (s.accept c).major = s.major := rfl
@[simp] theorem State.accept_minor (c : Word) : (s.accept c).minor = s.minor := rfl
@[simp] theorem State.accept_mem (c : Word) : (s.accept c).mem = s.mem := rfl
@[simp] theorem State.accept_platform (c : Word) : (s.accept c).platform = s.platform := rfl
@[simp] theorem State.accept_unclean (c : Word) : (s.accept c).unclean = s.unclean := rfl
@[simp] theorem State.accept_stale (c : Word) : (s.accept c).stale = s.stale := rfl
@[simp] theorem State.accept_fresh (c : Word) : (s.accept c).fresh = s.fresh := rfl
@[simp] theorem State.accept_draws (c : Word) : (s.accept c).draws = s.draws := rfl
@[simp] theorem State.accept_reply (c : Word) : (s.accept c).reply = s.reply := rfl
@[simp] theorem State.accept_pending (c : Word) : (s.accept c).pending = s.pending := rfl

/-! ### `State.resetRegisters` -/

@[simp] theorem State.resetRegisters_phase : (s.resetRegisters).phase = .idle := rfl
@[simp] theorem State.resetRegisters_irqen : (s.resetRegisters).irqen = false := rfl
@[simp] theorem State.resetRegisters_done : (s.resetRegisters).done = false := rfl
@[simp] theorem State.resetRegisters_found : (s.resetRegisters).found = false := rfl
@[simp] theorem State.resetRegisters_whb : (s.resetRegisters).whb = false := rfl
@[simp] theorem State.resetRegisters_err : (s.resetRegisters).err = .noError := rfl
@[simp] theorem State.resetRegisters_bmBase : (s.resetRegisters).bmBase = 0#32 := rfl
@[simp] theorem State.resetRegisters_bmLen : (s.resetRegisters).bmLen = 0#32 := rfl
@[simp] theorem State.resetRegisters_arg0 : (s.resetRegisters).arg0 = 0#32 := rfl
@[simp] theorem State.resetRegisters_arg1 : (s.resetRegisters).arg1 = 0#32 := rfl
@[simp] theorem State.resetRegisters_result : (s.resetRegisters).result = 0#32 := rfl
@[simp] theorem State.resetRegisters_errinfo : (s.resetRegisters).errinfo = 0#32 := rfl
@[simp] theorem State.resetRegisters_nameBase : (s.resetRegisters).nameBase = 0#32 := rfl
@[simp] theorem State.resetRegisters_nameLen : (s.resetRegisters).nameLen = 0#32 := rfl
@[simp] theorem State.resetRegisters_nameOff : (s.resetRegisters).nameOff = 0#32 := rfl
@[simp] theorem State.resetRegisters_seed : (s.resetRegisters).seed = #v[0#32, 0#32, 0#32, 0#32] := rfl
@[simp] theorem State.resetRegisters_h : (s.resetRegisters).h = md4Iv := rfl
@[simp] theorem State.resetRegisters_w :
    (s.resetRegisters).w = #v[0#32, 0#32, 0#32, 0#32, 0#32, 0#32, 0#32, 0#32] := rfl
@[simp] theorem State.resetRegisters_major : (s.resetRegisters).major = 0#32 := rfl
@[simp] theorem State.resetRegisters_minor : (s.resetRegisters).minor = 0#32 := rfl
@[simp] theorem State.resetRegisters_mem : (s.resetRegisters).mem = s.mem := rfl
@[simp] theorem State.resetRegisters_platform : (s.resetRegisters).platform = s.platform := rfl
@[simp] theorem State.resetRegisters_unclean : (s.resetRegisters).unclean = s.unclean := rfl
@[simp] theorem State.resetRegisters_stale : (s.resetRegisters).stale = s.stale := rfl
@[simp] theorem State.resetRegisters_fresh : (s.resetRegisters).fresh = s.fresh := rfl
@[simp] theorem State.resetRegisters_draws : (s.resetRegisters).draws = s.draws := rfl
@[simp] theorem State.resetRegisters_reply : (s.resetRegisters).reply = s.reply := rfl
@[simp] theorem State.resetRegisters_pending : (s.resetRegisters).pending = s.pending := rfl

/-! ### `State.drawn` -/

@[simp] theorem State.drawn_phase : (s.drawn).phase = s.phase := rfl
@[simp] theorem State.drawn_irqen : (s.drawn).irqen = s.irqen := rfl
@[simp] theorem State.drawn_done : (s.drawn).done = s.done := rfl
@[simp] theorem State.drawn_found : (s.drawn).found = s.found := rfl
@[simp] theorem State.drawn_whb : (s.drawn).whb = s.whb := rfl
@[simp] theorem State.drawn_err : (s.drawn).err = s.err := rfl
@[simp] theorem State.drawn_bmBase : (s.drawn).bmBase = s.bmBase := rfl
@[simp] theorem State.drawn_bmLen : (s.drawn).bmLen = s.bmLen := rfl
@[simp] theorem State.drawn_arg0 : (s.drawn).arg0 = s.arg0 := rfl
@[simp] theorem State.drawn_arg1 : (s.drawn).arg1 = s.arg1 := rfl
@[simp] theorem State.drawn_result : (s.drawn).result = s.result := rfl
@[simp] theorem State.drawn_errinfo : (s.drawn).errinfo = s.errinfo := rfl
@[simp] theorem State.drawn_nameBase : (s.drawn).nameBase = s.nameBase := rfl
@[simp] theorem State.drawn_nameLen : (s.drawn).nameLen = s.nameLen := rfl
@[simp] theorem State.drawn_nameOff : (s.drawn).nameOff = s.nameOff := rfl
@[simp] theorem State.drawn_seed : (s.drawn).seed = s.seed := rfl
@[simp] theorem State.drawn_h : (s.drawn).h = s.h := rfl
@[simp] theorem State.drawn_w : (s.drawn).w = s.w := rfl
@[simp] theorem State.drawn_major : (s.drawn).major = s.major := rfl
@[simp] theorem State.drawn_minor : (s.drawn).minor = s.minor := rfl
@[simp] theorem State.drawn_mem : (s.drawn).mem = s.mem := rfl
@[simp] theorem State.drawn_platform : (s.drawn).platform = s.platform := rfl
@[simp] theorem State.drawn_unclean : (s.drawn).unclean = s.unclean := rfl
@[simp] theorem State.drawn_stale : (s.drawn).stale = s.stale := rfl
@[simp] theorem State.drawn_fresh : (s.drawn).fresh = s.fresh := rfl
@[simp] theorem State.drawn_draws : (s.drawn).draws = s.draws + 1 := rfl
@[simp] theorem State.drawn_reply : (s.drawn).reply = s.reply := rfl
@[simp] theorem State.drawn_pending : (s.drawn).pending = s.pending := rfl

/-! ### `State.setResult` -/

@[simp] theorem State.setResult_phase (v : Word) : (s.setResult v).phase = s.phase := rfl
@[simp] theorem State.setResult_irqen (v : Word) : (s.setResult v).irqen = s.irqen := rfl
@[simp] theorem State.setResult_done (v : Word) : (s.setResult v).done = s.done := rfl
@[simp] theorem State.setResult_found (v : Word) : (s.setResult v).found = s.found := rfl
@[simp] theorem State.setResult_whb (v : Word) : (s.setResult v).whb = s.whb := rfl
@[simp] theorem State.setResult_err (v : Word) : (s.setResult v).err = s.err := rfl
@[simp] theorem State.setResult_bmBase (v : Word) : (s.setResult v).bmBase = s.bmBase := rfl
@[simp] theorem State.setResult_bmLen (v : Word) : (s.setResult v).bmLen = s.bmLen := rfl
@[simp] theorem State.setResult_arg0 (v : Word) : (s.setResult v).arg0 = s.arg0 := rfl
@[simp] theorem State.setResult_arg1 (v : Word) : (s.setResult v).arg1 = s.arg1 := rfl
@[simp] theorem State.setResult_result (v : Word) : (s.setResult v).result = v := rfl
@[simp] theorem State.setResult_errinfo (v : Word) : (s.setResult v).errinfo = s.errinfo := rfl
@[simp] theorem State.setResult_nameBase (v : Word) : (s.setResult v).nameBase = s.nameBase := rfl
@[simp] theorem State.setResult_nameLen (v : Word) : (s.setResult v).nameLen = s.nameLen := rfl
@[simp] theorem State.setResult_nameOff (v : Word) : (s.setResult v).nameOff = s.nameOff := rfl
@[simp] theorem State.setResult_seed (v : Word) : (s.setResult v).seed = s.seed := rfl
@[simp] theorem State.setResult_h (v : Word) : (s.setResult v).h = s.h := rfl
@[simp] theorem State.setResult_w (v : Word) : (s.setResult v).w = s.w := rfl
@[simp] theorem State.setResult_major (v : Word) : (s.setResult v).major = s.major := rfl
@[simp] theorem State.setResult_minor (v : Word) : (s.setResult v).minor = s.minor := rfl
@[simp] theorem State.setResult_mem (v : Word) : (s.setResult v).mem = s.mem := rfl
@[simp] theorem State.setResult_platform (v : Word) : (s.setResult v).platform = s.platform := rfl
@[simp] theorem State.setResult_unclean (v : Word) : (s.setResult v).unclean = s.unclean := rfl
@[simp] theorem State.setResult_stale (v : Word) : (s.setResult v).stale = s.stale := rfl
@[simp] theorem State.setResult_fresh (v : Word) : (s.setResult v).fresh = s.fresh := rfl
@[simp] theorem State.setResult_draws (v : Word) : (s.setResult v).draws = s.draws := rfl
@[simp] theorem State.setResult_reply (v : Word) : (s.setResult v).reply = s.reply := rfl
@[simp] theorem State.setResult_pending (v : Word) : (s.setResult v).pending = s.pending := rfl

/-! ### `State.setH` -/

@[simp] theorem State.setH_phase (v : Vector Word 4) : (s.setH v).phase = s.phase := rfl
@[simp] theorem State.setH_irqen (v : Vector Word 4) : (s.setH v).irqen = s.irqen := rfl
@[simp] theorem State.setH_done (v : Vector Word 4) : (s.setH v).done = s.done := rfl
@[simp] theorem State.setH_found (v : Vector Word 4) : (s.setH v).found = s.found := rfl
@[simp] theorem State.setH_whb (v : Vector Word 4) : (s.setH v).whb = s.whb := rfl
@[simp] theorem State.setH_err (v : Vector Word 4) : (s.setH v).err = s.err := rfl
@[simp] theorem State.setH_bmBase (v : Vector Word 4) : (s.setH v).bmBase = s.bmBase := rfl
@[simp] theorem State.setH_bmLen (v : Vector Word 4) : (s.setH v).bmLen = s.bmLen := rfl
@[simp] theorem State.setH_arg0 (v : Vector Word 4) : (s.setH v).arg0 = s.arg0 := rfl
@[simp] theorem State.setH_arg1 (v : Vector Word 4) : (s.setH v).arg1 = s.arg1 := rfl
@[simp] theorem State.setH_result (v : Vector Word 4) : (s.setH v).result = s.result := rfl
@[simp] theorem State.setH_errinfo (v : Vector Word 4) : (s.setH v).errinfo = s.errinfo := rfl
@[simp] theorem State.setH_nameBase (v : Vector Word 4) : (s.setH v).nameBase = s.nameBase := rfl
@[simp] theorem State.setH_nameLen (v : Vector Word 4) : (s.setH v).nameLen = s.nameLen := rfl
@[simp] theorem State.setH_nameOff (v : Vector Word 4) : (s.setH v).nameOff = s.nameOff := rfl
@[simp] theorem State.setH_seed (v : Vector Word 4) : (s.setH v).seed = s.seed := rfl
@[simp] theorem State.setH_h (v : Vector Word 4) : (s.setH v).h = v := rfl
@[simp] theorem State.setH_w (v : Vector Word 4) : (s.setH v).w = s.w := rfl
@[simp] theorem State.setH_major (v : Vector Word 4) : (s.setH v).major = s.major := rfl
@[simp] theorem State.setH_minor (v : Vector Word 4) : (s.setH v).minor = s.minor := rfl
@[simp] theorem State.setH_mem (v : Vector Word 4) : (s.setH v).mem = s.mem := rfl
@[simp] theorem State.setH_platform (v : Vector Word 4) : (s.setH v).platform = s.platform := rfl
@[simp] theorem State.setH_unclean (v : Vector Word 4) : (s.setH v).unclean = s.unclean := rfl
@[simp] theorem State.setH_stale (v : Vector Word 4) : (s.setH v).stale = s.stale := rfl
@[simp] theorem State.setH_fresh (v : Vector Word 4) : (s.setH v).fresh = s.fresh := rfl
@[simp] theorem State.setH_draws (v : Vector Word 4) : (s.setH v).draws = s.draws := rfl
@[simp] theorem State.setH_reply (v : Vector Word 4) : (s.setH v).reply = s.reply := rfl
@[simp] theorem State.setH_pending (v : Vector Word 4) : (s.setH v).pending = s.pending := rfl

/-! ### `State.setW` -/

@[simp] theorem State.setW_phase (v : Vector Word 8) : (s.setW v).phase = s.phase := rfl
@[simp] theorem State.setW_irqen (v : Vector Word 8) : (s.setW v).irqen = s.irqen := rfl
@[simp] theorem State.setW_done (v : Vector Word 8) : (s.setW v).done = s.done := rfl
@[simp] theorem State.setW_found (v : Vector Word 8) : (s.setW v).found = s.found := rfl
@[simp] theorem State.setW_whb (v : Vector Word 8) : (s.setW v).whb = s.whb := rfl
@[simp] theorem State.setW_err (v : Vector Word 8) : (s.setW v).err = s.err := rfl
@[simp] theorem State.setW_bmBase (v : Vector Word 8) : (s.setW v).bmBase = s.bmBase := rfl
@[simp] theorem State.setW_bmLen (v : Vector Word 8) : (s.setW v).bmLen = s.bmLen := rfl
@[simp] theorem State.setW_arg0 (v : Vector Word 8) : (s.setW v).arg0 = s.arg0 := rfl
@[simp] theorem State.setW_arg1 (v : Vector Word 8) : (s.setW v).arg1 = s.arg1 := rfl
@[simp] theorem State.setW_result (v : Vector Word 8) : (s.setW v).result = s.result := rfl
@[simp] theorem State.setW_errinfo (v : Vector Word 8) : (s.setW v).errinfo = s.errinfo := rfl
@[simp] theorem State.setW_nameBase (v : Vector Word 8) : (s.setW v).nameBase = s.nameBase := rfl
@[simp] theorem State.setW_nameLen (v : Vector Word 8) : (s.setW v).nameLen = s.nameLen := rfl
@[simp] theorem State.setW_nameOff (v : Vector Word 8) : (s.setW v).nameOff = s.nameOff := rfl
@[simp] theorem State.setW_seed (v : Vector Word 8) : (s.setW v).seed = s.seed := rfl
@[simp] theorem State.setW_h (v : Vector Word 8) : (s.setW v).h = s.h := rfl
@[simp] theorem State.setW_w (v : Vector Word 8) : (s.setW v).w = v := rfl
@[simp] theorem State.setW_major (v : Vector Word 8) : (s.setW v).major = s.major := rfl
@[simp] theorem State.setW_minor (v : Vector Word 8) : (s.setW v).minor = s.minor := rfl
@[simp] theorem State.setW_mem (v : Vector Word 8) : (s.setW v).mem = s.mem := rfl
@[simp] theorem State.setW_platform (v : Vector Word 8) : (s.setW v).platform = s.platform := rfl
@[simp] theorem State.setW_unclean (v : Vector Word 8) : (s.setW v).unclean = s.unclean := rfl
@[simp] theorem State.setW_stale (v : Vector Word 8) : (s.setW v).stale = s.stale := rfl
@[simp] theorem State.setW_fresh (v : Vector Word 8) : (s.setW v).fresh = s.fresh := rfl
@[simp] theorem State.setW_draws (v : Vector Word 8) : (s.setW v).draws = s.draws := rfl
@[simp] theorem State.setW_reply (v : Vector Word 8) : (s.setW v).reply = s.reply := rfl
@[simp] theorem State.setW_pending (v : Vector Word 8) : (s.setW v).pending = s.pending := rfl

/-! ### `State.setHash` -/

@[simp] theorem State.setHash_phase (x y : Word) : (s.setHash x y).phase = s.phase := rfl
@[simp] theorem State.setHash_irqen (x y : Word) : (s.setHash x y).irqen = s.irqen := rfl
@[simp] theorem State.setHash_done (x y : Word) : (s.setHash x y).done = s.done := rfl
@[simp] theorem State.setHash_found (x y : Word) : (s.setHash x y).found = s.found := rfl
@[simp] theorem State.setHash_whb (x y : Word) : (s.setHash x y).whb = s.whb := rfl
@[simp] theorem State.setHash_err (x y : Word) : (s.setHash x y).err = s.err := rfl
@[simp] theorem State.setHash_bmBase (x y : Word) : (s.setHash x y).bmBase = s.bmBase := rfl
@[simp] theorem State.setHash_bmLen (x y : Word) : (s.setHash x y).bmLen = s.bmLen := rfl
@[simp] theorem State.setHash_arg0 (x y : Word) : (s.setHash x y).arg0 = s.arg0 := rfl
@[simp] theorem State.setHash_arg1 (x y : Word) : (s.setHash x y).arg1 = s.arg1 := rfl
@[simp] theorem State.setHash_result (x y : Word) : (s.setHash x y).result = s.result := rfl
@[simp] theorem State.setHash_errinfo (x y : Word) : (s.setHash x y).errinfo = s.errinfo := rfl
@[simp] theorem State.setHash_nameBase (x y : Word) : (s.setHash x y).nameBase = s.nameBase := rfl
@[simp] theorem State.setHash_nameLen (x y : Word) : (s.setHash x y).nameLen = s.nameLen := rfl
@[simp] theorem State.setHash_nameOff (x y : Word) : (s.setHash x y).nameOff = s.nameOff := rfl
@[simp] theorem State.setHash_seed (x y : Word) : (s.setHash x y).seed = s.seed := rfl
@[simp] theorem State.setHash_h (x y : Word) : (s.setHash x y).h = s.h := rfl
@[simp] theorem State.setHash_w (x y : Word) : (s.setHash x y).w = s.w := rfl
@[simp] theorem State.setHash_major (x y : Word) : (s.setHash x y).major = x := rfl
@[simp] theorem State.setHash_minor (x y : Word) : (s.setHash x y).minor = y := rfl
@[simp] theorem State.setHash_mem (x y : Word) : (s.setHash x y).mem = s.mem := rfl
@[simp] theorem State.setHash_platform (x y : Word) : (s.setHash x y).platform = s.platform := rfl
@[simp] theorem State.setHash_unclean (x y : Word) : (s.setHash x y).unclean = s.unclean := rfl
@[simp] theorem State.setHash_stale (x y : Word) : (s.setHash x y).stale = s.stale := rfl
@[simp] theorem State.setHash_fresh (x y : Word) : (s.setHash x y).fresh = s.fresh := rfl
@[simp] theorem State.setHash_draws (x y : Word) : (s.setHash x y).draws = s.draws := rfl
@[simp] theorem State.setHash_reply (x y : Word) : (s.setHash x y).reply = s.reply := rfl
@[simp] theorem State.setHash_pending (x y : Word) : (s.setHash x y).pending = s.pending := rfl

/-! ### `State.overtake` -/

@[simp] theorem State.overtake_phase (n : Option Nat) (a : Nat) : (s.overtake n a).phase = s.phase := rfl
@[simp] theorem State.overtake_irqen (n : Option Nat) (a : Nat) : (s.overtake n a).irqen = s.irqen := rfl
@[simp] theorem State.overtake_done (n : Option Nat) (a : Nat) : (s.overtake n a).done = s.done := rfl
@[simp] theorem State.overtake_found (n : Option Nat) (a : Nat) : (s.overtake n a).found = s.found := rfl
@[simp] theorem State.overtake_whb (n : Option Nat) (a : Nat) : (s.overtake n a).whb = s.whb := rfl
@[simp] theorem State.overtake_err (n : Option Nat) (a : Nat) : (s.overtake n a).err = s.err := rfl
@[simp] theorem State.overtake_bmBase (n : Option Nat) (a : Nat) : (s.overtake n a).bmBase = s.bmBase := rfl
@[simp] theorem State.overtake_bmLen (n : Option Nat) (a : Nat) : (s.overtake n a).bmLen = s.bmLen := rfl
@[simp] theorem State.overtake_arg0 (n : Option Nat) (a : Nat) : (s.overtake n a).arg0 = s.arg0 := rfl
@[simp] theorem State.overtake_arg1 (n : Option Nat) (a : Nat) : (s.overtake n a).arg1 = s.arg1 := rfl
@[simp] theorem State.overtake_result (n : Option Nat) (a : Nat) : (s.overtake n a).result = s.result := rfl
@[simp] theorem State.overtake_errinfo (n : Option Nat) (a : Nat) :
    (s.overtake n a).errinfo = s.errinfo := rfl
@[simp] theorem State.overtake_nameBase (n : Option Nat) (a : Nat) :
    (s.overtake n a).nameBase = s.nameBase := rfl
@[simp] theorem State.overtake_nameLen (n : Option Nat) (a : Nat) :
    (s.overtake n a).nameLen = s.nameLen := rfl
@[simp] theorem State.overtake_nameOff (n : Option Nat) (a : Nat) :
    (s.overtake n a).nameOff = s.nameOff := rfl
@[simp] theorem State.overtake_seed (n : Option Nat) (a : Nat) : (s.overtake n a).seed = s.seed := rfl
@[simp] theorem State.overtake_h (n : Option Nat) (a : Nat) : (s.overtake n a).h = s.h := rfl
@[simp] theorem State.overtake_w (n : Option Nat) (a : Nat) : (s.overtake n a).w = s.w := rfl
@[simp] theorem State.overtake_major (n : Option Nat) (a : Nat) : (s.overtake n a).major = s.major := rfl
@[simp] theorem State.overtake_minor (n : Option Nat) (a : Nat) : (s.overtake n a).minor = s.minor := rfl
@[simp] theorem State.overtake_mem (n : Option Nat) (a : Nat) : (s.overtake n a).mem = s.mem := rfl
@[simp] theorem State.overtake_platform (n : Option Nat) (a : Nat) :
    (s.overtake n a).platform = s.platform := rfl
@[simp] theorem State.overtake_unclean (n : Option Nat) (a : Nat) :
    (s.overtake n a).unclean = s.unclean := rfl
@[simp] theorem State.overtake_stale (n : Option Nat) (a : Nat) :
    (s.overtake n a).stale = (if s.platform.coherent then s.stale else addTo a s.stale) := rfl
@[simp] theorem State.overtake_fresh (n : Option Nat) (a : Nat) :
    (s.overtake n a).fresh = (if s.platform.coherent then s.fresh else freshAfter n a s.fresh) := rfl
@[simp] theorem State.overtake_draws (n : Option Nat) (a : Nat) : (s.overtake n a).draws = s.draws := rfl
@[simp] theorem State.overtake_reply (n : Option Nat) (a : Nat) : (s.overtake n a).reply = s.reply := rfl
@[simp] theorem State.overtake_pending (n : Option Nat) (a : Nat) :
    (s.overtake n a).pending = s.pending := rfl

/-! ### `State.changeByte` -/

@[simp] theorem State.changeByte_phase (n : Option Nat) (a : Nat) (v : Byte) :
    (s.changeByte n a v).phase = s.phase := rfl
@[simp] theorem State.changeByte_irqen (n : Option Nat) (a : Nat) (v : Byte) :
    (s.changeByte n a v).irqen = s.irqen := rfl
@[simp] theorem State.changeByte_done (n : Option Nat) (a : Nat) (v : Byte) :
    (s.changeByte n a v).done = s.done := rfl
@[simp] theorem State.changeByte_found (n : Option Nat) (a : Nat) (v : Byte) :
    (s.changeByte n a v).found = s.found := rfl
@[simp] theorem State.changeByte_whb (n : Option Nat) (a : Nat) (v : Byte) :
    (s.changeByte n a v).whb = s.whb := rfl
@[simp] theorem State.changeByte_err (n : Option Nat) (a : Nat) (v : Byte) :
    (s.changeByte n a v).err = s.err := rfl
@[simp] theorem State.changeByte_bmBase (n : Option Nat) (a : Nat) (v : Byte) :
    (s.changeByte n a v).bmBase = s.bmBase := rfl
@[simp] theorem State.changeByte_bmLen (n : Option Nat) (a : Nat) (v : Byte) :
    (s.changeByte n a v).bmLen = s.bmLen := rfl
@[simp] theorem State.changeByte_arg0 (n : Option Nat) (a : Nat) (v : Byte) :
    (s.changeByte n a v).arg0 = s.arg0 := rfl
@[simp] theorem State.changeByte_arg1 (n : Option Nat) (a : Nat) (v : Byte) :
    (s.changeByte n a v).arg1 = s.arg1 := rfl
@[simp] theorem State.changeByte_result (n : Option Nat) (a : Nat) (v : Byte) :
    (s.changeByte n a v).result = s.result := rfl
@[simp] theorem State.changeByte_errinfo (n : Option Nat) (a : Nat) (v : Byte) :
    (s.changeByte n a v).errinfo = s.errinfo := rfl
@[simp] theorem State.changeByte_nameBase (n : Option Nat) (a : Nat) (v : Byte) :
    (s.changeByte n a v).nameBase = s.nameBase := rfl
@[simp] theorem State.changeByte_nameLen (n : Option Nat) (a : Nat) (v : Byte) :
    (s.changeByte n a v).nameLen = s.nameLen := rfl
@[simp] theorem State.changeByte_nameOff (n : Option Nat) (a : Nat) (v : Byte) :
    (s.changeByte n a v).nameOff = s.nameOff := rfl
@[simp] theorem State.changeByte_seed (n : Option Nat) (a : Nat) (v : Byte) :
    (s.changeByte n a v).seed = s.seed := rfl
@[simp] theorem State.changeByte_h (n : Option Nat) (a : Nat) (v : Byte) : (s.changeByte n a v).h = s.h := rfl
@[simp] theorem State.changeByte_w (n : Option Nat) (a : Nat) (v : Byte) : (s.changeByte n a v).w = s.w := rfl
@[simp] theorem State.changeByte_major (n : Option Nat) (a : Nat) (v : Byte) :
    (s.changeByte n a v).major = s.major := rfl
@[simp] theorem State.changeByte_minor (n : Option Nat) (a : Nat) (v : Byte) :
    (s.changeByte n a v).minor = s.minor := rfl
@[simp] theorem State.changeByte_mem (n : Option Nat) (a : Nat) (v : Byte) :
    (s.changeByte n a v).mem = Memory.write s.mem a v := rfl
@[simp] theorem State.changeByte_platform (n : Option Nat) (a : Nat) (v : Byte) :
    (s.changeByte n a v).platform = s.platform := rfl
@[simp] theorem State.changeByte_unclean (n : Option Nat) (a : Nat) (v : Byte) :
    (s.changeByte n a v).unclean = s.unclean := rfl
@[simp] theorem State.changeByte_stale (n : Option Nat) (a : Nat) (v : Byte) :
    (s.changeByte n a v).stale = (if s.platform.coherent then s.stale else addTo a s.stale) := rfl
@[simp] theorem State.changeByte_fresh (n : Option Nat) (a : Nat) (v : Byte) :
    (s.changeByte n a v).fresh = (if s.platform.coherent then s.fresh else freshAfter n a s.fresh) := rfl
@[simp] theorem State.changeByte_draws (n : Option Nat) (a : Nat) (v : Byte) :
    (s.changeByte n a v).draws = s.draws := rfl
@[simp] theorem State.changeByte_reply (n : Option Nat) (a : Nat) (v : Byte) :
    (s.changeByte n a v).reply = s.reply := rfl
@[simp] theorem State.changeByte_pending (n : Option Nat) (a : Nat) (v : Byte) :
    (s.changeByte n a v).pending = s.pending := rfl

/-! ### `State.storeByte` -/

@[simp] theorem State.storeByte_phase (a : Nat) (v : Byte) : (s.storeByte a v).phase = s.phase := rfl
@[simp] theorem State.storeByte_irqen (a : Nat) (v : Byte) : (s.storeByte a v).irqen = s.irqen := rfl
@[simp] theorem State.storeByte_done (a : Nat) (v : Byte) : (s.storeByte a v).done = s.done := rfl
@[simp] theorem State.storeByte_found (a : Nat) (v : Byte) : (s.storeByte a v).found = s.found := rfl
@[simp] theorem State.storeByte_whb (a : Nat) (v : Byte) : (s.storeByte a v).whb = s.whb := rfl
@[simp] theorem State.storeByte_err (a : Nat) (v : Byte) : (s.storeByte a v).err = s.err := rfl
@[simp] theorem State.storeByte_bmBase (a : Nat) (v : Byte) : (s.storeByte a v).bmBase = s.bmBase := rfl
@[simp] theorem State.storeByte_bmLen (a : Nat) (v : Byte) : (s.storeByte a v).bmLen = s.bmLen := rfl
@[simp] theorem State.storeByte_arg0 (a : Nat) (v : Byte) : (s.storeByte a v).arg0 = s.arg0 := rfl
@[simp] theorem State.storeByte_arg1 (a : Nat) (v : Byte) : (s.storeByte a v).arg1 = s.arg1 := rfl
@[simp] theorem State.storeByte_result (a : Nat) (v : Byte) : (s.storeByte a v).result = s.result := rfl
@[simp] theorem State.storeByte_errinfo (a : Nat) (v : Byte) : (s.storeByte a v).errinfo = s.errinfo := rfl
@[simp] theorem State.storeByte_nameBase (a : Nat) (v : Byte) : (s.storeByte a v).nameBase = s.nameBase := rfl
@[simp] theorem State.storeByte_nameLen (a : Nat) (v : Byte) : (s.storeByte a v).nameLen = s.nameLen := rfl
@[simp] theorem State.storeByte_nameOff (a : Nat) (v : Byte) : (s.storeByte a v).nameOff = s.nameOff := rfl
@[simp] theorem State.storeByte_seed (a : Nat) (v : Byte) : (s.storeByte a v).seed = s.seed := rfl
@[simp] theorem State.storeByte_h (a : Nat) (v : Byte) : (s.storeByte a v).h = s.h := rfl
@[simp] theorem State.storeByte_w (a : Nat) (v : Byte) : (s.storeByte a v).w = s.w := rfl
@[simp] theorem State.storeByte_major (a : Nat) (v : Byte) : (s.storeByte a v).major = s.major := rfl
@[simp] theorem State.storeByte_minor (a : Nat) (v : Byte) : (s.storeByte a v).minor = s.minor := rfl
@[simp] theorem State.storeByte_mem (a : Nat) (v : Byte) :
    (s.storeByte a v).mem = Memory.write s.mem a v := rfl
@[simp] theorem State.storeByte_platform (a : Nat) (v : Byte) : (s.storeByte a v).platform = s.platform := rfl
@[simp] theorem State.storeByte_unclean (a : Nat) (v : Byte) : (s.storeByte a v).unclean = s.unclean := rfl
@[simp] theorem State.storeByte_stale (a : Nat) (v : Byte) :
    (s.storeByte a v).stale = (if s.platform.coherent then s.stale else addTo a s.stale) := rfl
@[simp] theorem State.storeByte_fresh (a : Nat) (v : Byte) :
    (s.storeByte a v).fresh = (if s.platform.coherent then s.fresh else freshAfter none a s.fresh) := rfl
@[simp] theorem State.storeByte_draws (a : Nat) (v : Byte) : (s.storeByte a v).draws = s.draws := rfl
@[simp] theorem State.storeByte_reply (a : Nat) (v : Byte) : (s.storeByte a v).reply = s.reply := rfl
@[simp] theorem State.storeByte_pending (a : Nat) (v : Byte) : (s.storeByte a v).pending = s.pending := rfl

/-! ### `State.withPending` -/

@[simp] theorem State.withPending_phase (l : List Turn) : (s.withPending l).phase = s.phase := rfl
@[simp] theorem State.withPending_irqen (l : List Turn) : (s.withPending l).irqen = s.irqen := rfl
@[simp] theorem State.withPending_done (l : List Turn) : (s.withPending l).done = s.done := rfl
@[simp] theorem State.withPending_found (l : List Turn) : (s.withPending l).found = s.found := rfl
@[simp] theorem State.withPending_whb (l : List Turn) : (s.withPending l).whb = s.whb := rfl
@[simp] theorem State.withPending_err (l : List Turn) : (s.withPending l).err = s.err := rfl
@[simp] theorem State.withPending_bmBase (l : List Turn) : (s.withPending l).bmBase = s.bmBase := rfl
@[simp] theorem State.withPending_bmLen (l : List Turn) : (s.withPending l).bmLen = s.bmLen := rfl
@[simp] theorem State.withPending_arg0 (l : List Turn) : (s.withPending l).arg0 = s.arg0 := rfl
@[simp] theorem State.withPending_arg1 (l : List Turn) : (s.withPending l).arg1 = s.arg1 := rfl
@[simp] theorem State.withPending_result (l : List Turn) : (s.withPending l).result = s.result := rfl
@[simp] theorem State.withPending_errinfo (l : List Turn) : (s.withPending l).errinfo = s.errinfo := rfl
@[simp] theorem State.withPending_nameBase (l : List Turn) : (s.withPending l).nameBase = s.nameBase := rfl
@[simp] theorem State.withPending_nameLen (l : List Turn) : (s.withPending l).nameLen = s.nameLen := rfl
@[simp] theorem State.withPending_nameOff (l : List Turn) : (s.withPending l).nameOff = s.nameOff := rfl
@[simp] theorem State.withPending_seed (l : List Turn) : (s.withPending l).seed = s.seed := rfl
@[simp] theorem State.withPending_h (l : List Turn) : (s.withPending l).h = s.h := rfl
@[simp] theorem State.withPending_w (l : List Turn) : (s.withPending l).w = s.w := rfl
@[simp] theorem State.withPending_major (l : List Turn) : (s.withPending l).major = s.major := rfl
@[simp] theorem State.withPending_minor (l : List Turn) : (s.withPending l).minor = s.minor := rfl
@[simp] theorem State.withPending_mem (l : List Turn) : (s.withPending l).mem = s.mem := rfl
@[simp] theorem State.withPending_platform (l : List Turn) : (s.withPending l).platform = s.platform := rfl
@[simp] theorem State.withPending_unclean (l : List Turn) : (s.withPending l).unclean = s.unclean := rfl
@[simp] theorem State.withPending_stale (l : List Turn) : (s.withPending l).stale = s.stale := rfl
@[simp] theorem State.withPending_fresh (l : List Turn) : (s.withPending l).fresh = s.fresh := rfl
@[simp] theorem State.withPending_draws (l : List Turn) : (s.withPending l).draws = s.draws := rfl
@[simp] theorem State.withPending_reply (l : List Turn) : (s.withPending l).reply = s.reply := rfl
@[simp] theorem State.withPending_pending (l : List Turn) : (s.withPending l).pending = l := rfl

/-! ### `State.answer` -/

@[simp] theorem State.answer_phase (x : Reply) : (s.answer x).phase = s.phase := rfl
@[simp] theorem State.answer_irqen (x : Reply) : (s.answer x).irqen = s.irqen := rfl
@[simp] theorem State.answer_done (x : Reply) : (s.answer x).done = s.done := rfl
@[simp] theorem State.answer_found (x : Reply) : (s.answer x).found = s.found := rfl
@[simp] theorem State.answer_whb (x : Reply) : (s.answer x).whb = s.whb := rfl
@[simp] theorem State.answer_err (x : Reply) : (s.answer x).err = s.err := rfl
@[simp] theorem State.answer_bmBase (x : Reply) : (s.answer x).bmBase = s.bmBase := rfl
@[simp] theorem State.answer_bmLen (x : Reply) : (s.answer x).bmLen = s.bmLen := rfl
@[simp] theorem State.answer_arg0 (x : Reply) : (s.answer x).arg0 = s.arg0 := rfl
@[simp] theorem State.answer_arg1 (x : Reply) : (s.answer x).arg1 = s.arg1 := rfl
@[simp] theorem State.answer_result (x : Reply) : (s.answer x).result = s.result := rfl
@[simp] theorem State.answer_errinfo (x : Reply) : (s.answer x).errinfo = s.errinfo := rfl
@[simp] theorem State.answer_nameBase (x : Reply) : (s.answer x).nameBase = s.nameBase := rfl
@[simp] theorem State.answer_nameLen (x : Reply) : (s.answer x).nameLen = s.nameLen := rfl
@[simp] theorem State.answer_nameOff (x : Reply) : (s.answer x).nameOff = s.nameOff := rfl
@[simp] theorem State.answer_seed (x : Reply) : (s.answer x).seed = s.seed := rfl
@[simp] theorem State.answer_h (x : Reply) : (s.answer x).h = s.h := rfl
@[simp] theorem State.answer_w (x : Reply) : (s.answer x).w = s.w := rfl
@[simp] theorem State.answer_major (x : Reply) : (s.answer x).major = s.major := rfl
@[simp] theorem State.answer_minor (x : Reply) : (s.answer x).minor = s.minor := rfl
@[simp] theorem State.answer_mem (x : Reply) : (s.answer x).mem = s.mem := rfl
@[simp] theorem State.answer_platform (x : Reply) : (s.answer x).platform = s.platform := rfl
@[simp] theorem State.answer_unclean (x : Reply) : (s.answer x).unclean = s.unclean := rfl
@[simp] theorem State.answer_stale (x : Reply) : (s.answer x).stale = s.stale := rfl
@[simp] theorem State.answer_fresh (x : Reply) : (s.answer x).fresh = s.fresh := rfl
@[simp] theorem State.answer_draws (x : Reply) : (s.answer x).draws = s.draws := rfl
@[simp] theorem State.answer_reply (x : Reply) : (s.answer x).reply = some x := rfl
@[simp] theorem State.answer_pending (x : Reply) : (s.answer x).pending = s.pending := rfl

/-! ### `State.dropWrite` -/

@[simp] theorem State.dropWrite_phase : (s.dropWrite).phase = s.phase := rfl
@[simp] theorem State.dropWrite_irqen : (s.dropWrite).irqen = s.irqen := rfl
@[simp] theorem State.dropWrite_done : (s.dropWrite).done = s.done := rfl
@[simp] theorem State.dropWrite_found : (s.dropWrite).found = s.found := rfl
@[simp] theorem State.dropWrite_whb : (s.dropWrite).whb = true := rfl
@[simp] theorem State.dropWrite_err : (s.dropWrite).err = s.err := rfl
@[simp] theorem State.dropWrite_bmBase : (s.dropWrite).bmBase = s.bmBase := rfl
@[simp] theorem State.dropWrite_bmLen : (s.dropWrite).bmLen = s.bmLen := rfl
@[simp] theorem State.dropWrite_arg0 : (s.dropWrite).arg0 = s.arg0 := rfl
@[simp] theorem State.dropWrite_arg1 : (s.dropWrite).arg1 = s.arg1 := rfl
@[simp] theorem State.dropWrite_result : (s.dropWrite).result = s.result := rfl
@[simp] theorem State.dropWrite_errinfo : (s.dropWrite).errinfo = s.errinfo := rfl
@[simp] theorem State.dropWrite_nameBase : (s.dropWrite).nameBase = s.nameBase := rfl
@[simp] theorem State.dropWrite_nameLen : (s.dropWrite).nameLen = s.nameLen := rfl
@[simp] theorem State.dropWrite_nameOff : (s.dropWrite).nameOff = s.nameOff := rfl
@[simp] theorem State.dropWrite_seed : (s.dropWrite).seed = s.seed := rfl
@[simp] theorem State.dropWrite_h : (s.dropWrite).h = s.h := rfl
@[simp] theorem State.dropWrite_w : (s.dropWrite).w = s.w := rfl
@[simp] theorem State.dropWrite_major : (s.dropWrite).major = s.major := rfl
@[simp] theorem State.dropWrite_minor : (s.dropWrite).minor = s.minor := rfl
@[simp] theorem State.dropWrite_mem : (s.dropWrite).mem = s.mem := rfl
@[simp] theorem State.dropWrite_platform : (s.dropWrite).platform = s.platform := rfl
@[simp] theorem State.dropWrite_unclean : (s.dropWrite).unclean = s.unclean := rfl
@[simp] theorem State.dropWrite_stale : (s.dropWrite).stale = s.stale := rfl
@[simp] theorem State.dropWrite_fresh : (s.dropWrite).fresh = s.fresh := rfl
@[simp] theorem State.dropWrite_draws : (s.dropWrite).draws = s.draws := rfl
@[simp] theorem State.dropWrite_reply : (s.dropWrite).reply = s.reply := rfl
@[simp] theorem State.dropWrite_pending : (s.dropWrite).pending = s.pending := rfl

/-! ### `State.writeCtrl` -/

@[simp] theorem State.writeCtrl_phase (v : Word) : (s.writeCtrl v).phase = s.phase := rfl
@[simp] theorem State.writeCtrl_irqen (v : Word) : (s.writeCtrl v).irqen = v.getLsbD 0 := rfl
@[simp] theorem State.writeCtrl_done (v : Word) : (s.writeCtrl v).done = (s.done && !(v.getLsbD 1)) := rfl
@[simp] theorem State.writeCtrl_found (v : Word) : (s.writeCtrl v).found = s.found := rfl
@[simp] theorem State.writeCtrl_whb (v : Word) : (s.writeCtrl v).whb = s.whb := rfl
@[simp] theorem State.writeCtrl_err (v : Word) : (s.writeCtrl v).err = s.err := rfl
@[simp] theorem State.writeCtrl_bmBase (v : Word) : (s.writeCtrl v).bmBase = s.bmBase := rfl
@[simp] theorem State.writeCtrl_bmLen (v : Word) : (s.writeCtrl v).bmLen = s.bmLen := rfl
@[simp] theorem State.writeCtrl_arg0 (v : Word) : (s.writeCtrl v).arg0 = s.arg0 := rfl
@[simp] theorem State.writeCtrl_arg1 (v : Word) : (s.writeCtrl v).arg1 = s.arg1 := rfl
@[simp] theorem State.writeCtrl_result (v : Word) : (s.writeCtrl v).result = s.result := rfl
@[simp] theorem State.writeCtrl_errinfo (v : Word) : (s.writeCtrl v).errinfo = s.errinfo := rfl
@[simp] theorem State.writeCtrl_nameBase (v : Word) : (s.writeCtrl v).nameBase = s.nameBase := rfl
@[simp] theorem State.writeCtrl_nameLen (v : Word) : (s.writeCtrl v).nameLen = s.nameLen := rfl
@[simp] theorem State.writeCtrl_nameOff (v : Word) : (s.writeCtrl v).nameOff = s.nameOff := rfl
@[simp] theorem State.writeCtrl_seed (v : Word) : (s.writeCtrl v).seed = s.seed := rfl
@[simp] theorem State.writeCtrl_h (v : Word) : (s.writeCtrl v).h = s.h := rfl
@[simp] theorem State.writeCtrl_w (v : Word) : (s.writeCtrl v).w = s.w := rfl
@[simp] theorem State.writeCtrl_major (v : Word) : (s.writeCtrl v).major = s.major := rfl
@[simp] theorem State.writeCtrl_minor (v : Word) : (s.writeCtrl v).minor = s.minor := rfl
@[simp] theorem State.writeCtrl_mem (v : Word) : (s.writeCtrl v).mem = s.mem := rfl
@[simp] theorem State.writeCtrl_platform (v : Word) : (s.writeCtrl v).platform = s.platform := rfl
@[simp] theorem State.writeCtrl_unclean (v : Word) : (s.writeCtrl v).unclean = s.unclean := rfl
@[simp] theorem State.writeCtrl_stale (v : Word) : (s.writeCtrl v).stale = s.stale := rfl
@[simp] theorem State.writeCtrl_fresh (v : Word) : (s.writeCtrl v).fresh = s.fresh := rfl
@[simp] theorem State.writeCtrl_draws (v : Word) : (s.writeCtrl v).draws = s.draws := rfl
@[simp] theorem State.writeCtrl_reply (v : Word) : (s.writeCtrl v).reply = s.reply := rfl
@[simp] theorem State.writeCtrl_pending (v : Word) : (s.writeCtrl v).pending = s.pending := rfl

/-! ### `State.hostStore` -/

@[simp] theorem State.hostStore_phase (n a : Nat) (v : Byte) : (s.hostStore n a v).phase = s.phase := rfl
@[simp] theorem State.hostStore_irqen (n a : Nat) (v : Byte) : (s.hostStore n a v).irqen = s.irqen := rfl
@[simp] theorem State.hostStore_done (n a : Nat) (v : Byte) : (s.hostStore n a v).done = s.done := rfl
@[simp] theorem State.hostStore_found (n a : Nat) (v : Byte) : (s.hostStore n a v).found = s.found := rfl
@[simp] theorem State.hostStore_whb (n a : Nat) (v : Byte) : (s.hostStore n a v).whb = s.whb := rfl
@[simp] theorem State.hostStore_err (n a : Nat) (v : Byte) : (s.hostStore n a v).err = s.err := rfl
@[simp] theorem State.hostStore_bmBase (n a : Nat) (v : Byte) : (s.hostStore n a v).bmBase = s.bmBase := rfl
@[simp] theorem State.hostStore_bmLen (n a : Nat) (v : Byte) : (s.hostStore n a v).bmLen = s.bmLen := rfl
@[simp] theorem State.hostStore_arg0 (n a : Nat) (v : Byte) : (s.hostStore n a v).arg0 = s.arg0 := rfl
@[simp] theorem State.hostStore_arg1 (n a : Nat) (v : Byte) : (s.hostStore n a v).arg1 = s.arg1 := rfl
@[simp] theorem State.hostStore_result (n a : Nat) (v : Byte) : (s.hostStore n a v).result = s.result := rfl
@[simp] theorem State.hostStore_errinfo (n a : Nat) (v : Byte) :
    (s.hostStore n a v).errinfo = s.errinfo := rfl
@[simp] theorem State.hostStore_nameBase (n a : Nat) (v : Byte) :
    (s.hostStore n a v).nameBase = s.nameBase := rfl
@[simp] theorem State.hostStore_nameLen (n a : Nat) (v : Byte) :
    (s.hostStore n a v).nameLen = s.nameLen := rfl
@[simp] theorem State.hostStore_nameOff (n a : Nat) (v : Byte) :
    (s.hostStore n a v).nameOff = s.nameOff := rfl
@[simp] theorem State.hostStore_seed (n a : Nat) (v : Byte) : (s.hostStore n a v).seed = s.seed := rfl
@[simp] theorem State.hostStore_h (n a : Nat) (v : Byte) : (s.hostStore n a v).h = s.h := rfl
@[simp] theorem State.hostStore_w (n a : Nat) (v : Byte) : (s.hostStore n a v).w = s.w := rfl
@[simp] theorem State.hostStore_major (n a : Nat) (v : Byte) : (s.hostStore n a v).major = s.major := rfl
@[simp] theorem State.hostStore_minor (n a : Nat) (v : Byte) : (s.hostStore n a v).minor = s.minor := rfl
@[simp] theorem State.hostStore_mem (n a : Nat) (v : Byte) :
    (s.hostStore n a v).mem = Memory.write s.mem a v := rfl
@[simp] theorem State.hostStore_platform (n a : Nat) (v : Byte) :
    (s.hostStore n a v).platform = s.platform := rfl
@[simp] theorem State.hostStore_unclean (n a : Nat) (v : Byte) :
    (s.hostStore n a v).unclean = (if s.platform.coherent then s.unclean else addTo ⟨n, a⟩ s.unclean) := rfl
@[simp] theorem State.hostStore_stale (n a : Nat) (v : Byte) :
    (s.hostStore n a v).stale = (if s.platform.coherent then s.stale else addTo a s.stale) := rfl
@[simp] theorem State.hostStore_fresh (n a : Nat) (v : Byte) :
    (s.hostStore n a v).fresh = (if s.platform.coherent then s.fresh else freshAfter (some n) a s.fresh) := rfl
@[simp] theorem State.hostStore_draws (n a : Nat) (v : Byte) : (s.hostStore n a v).draws = s.draws := rfl
@[simp] theorem State.hostStore_reply (n a : Nat) (v : Byte) : (s.hostStore n a v).reply = s.reply := rfl
@[simp] theorem State.hostStore_pending (n a : Nat) (v : Byte) :
    (s.hostStore n a v).pending = s.pending := rfl

/-! ### `State.scramble` -/

@[simp] theorem State.scramble_phase (n : Option Nat) (a : Nat) : (s.scramble n a).phase = s.phase := rfl
@[simp] theorem State.scramble_irqen (n : Option Nat) (a : Nat) : (s.scramble n a).irqen = s.irqen := rfl
@[simp] theorem State.scramble_done (n : Option Nat) (a : Nat) : (s.scramble n a).done = s.done := rfl
@[simp] theorem State.scramble_found (n : Option Nat) (a : Nat) : (s.scramble n a).found = s.found := rfl
@[simp] theorem State.scramble_whb (n : Option Nat) (a : Nat) : (s.scramble n a).whb = s.whb := rfl
@[simp] theorem State.scramble_err (n : Option Nat) (a : Nat) : (s.scramble n a).err = s.err := rfl
@[simp] theorem State.scramble_bmBase (n : Option Nat) (a : Nat) : (s.scramble n a).bmBase = s.bmBase := rfl
@[simp] theorem State.scramble_bmLen (n : Option Nat) (a : Nat) : (s.scramble n a).bmLen = s.bmLen := rfl
@[simp] theorem State.scramble_arg0 (n : Option Nat) (a : Nat) : (s.scramble n a).arg0 = s.arg0 := rfl
@[simp] theorem State.scramble_arg1 (n : Option Nat) (a : Nat) : (s.scramble n a).arg1 = s.arg1 := rfl
@[simp] theorem State.scramble_result (n : Option Nat) (a : Nat) : (s.scramble n a).result = s.result := rfl
@[simp] theorem State.scramble_errinfo (n : Option Nat) (a : Nat) :
    (s.scramble n a).errinfo = s.errinfo := rfl
@[simp] theorem State.scramble_nameBase (n : Option Nat) (a : Nat) :
    (s.scramble n a).nameBase = s.nameBase := rfl
@[simp] theorem State.scramble_nameLen (n : Option Nat) (a : Nat) :
    (s.scramble n a).nameLen = s.nameLen := rfl
@[simp] theorem State.scramble_nameOff (n : Option Nat) (a : Nat) :
    (s.scramble n a).nameOff = s.nameOff := rfl
@[simp] theorem State.scramble_seed (n : Option Nat) (a : Nat) : (s.scramble n a).seed = s.seed := rfl
@[simp] theorem State.scramble_h (n : Option Nat) (a : Nat) : (s.scramble n a).h = s.h := rfl
@[simp] theorem State.scramble_w (n : Option Nat) (a : Nat) : (s.scramble n a).w = s.w := rfl
@[simp] theorem State.scramble_major (n : Option Nat) (a : Nat) : (s.scramble n a).major = s.major := rfl
@[simp] theorem State.scramble_minor (n : Option Nat) (a : Nat) : (s.scramble n a).minor = s.minor := rfl
@[simp] theorem State.scramble_mem (n : Option Nat) (a : Nat) :
    (s.scramble n a).mem = Memory.write s.mem a (Config.incoherentByte s.draws) := rfl
@[simp] theorem State.scramble_platform (n : Option Nat) (a : Nat) :
    (s.scramble n a).platform = s.platform := rfl
@[simp] theorem State.scramble_unclean (n : Option Nat) (a : Nat) :
    (s.scramble n a).unclean = s.unclean := rfl
@[simp] theorem State.scramble_stale (n : Option Nat) (a : Nat) :
    (s.scramble n a).stale = (if s.platform.coherent then s.stale else addTo a s.stale) := rfl
@[simp] theorem State.scramble_fresh (n : Option Nat) (a : Nat) :
    (s.scramble n a).fresh = (if s.platform.coherent then s.fresh else freshAfter n a s.fresh) := rfl
@[simp] theorem State.scramble_draws (n : Option Nat) (a : Nat) : (s.scramble n a).draws = s.draws + 1 := rfl
@[simp] theorem State.scramble_reply (n : Option Nat) (a : Nat) : (s.scramble n a).reply = s.reply := rfl
@[simp] theorem State.scramble_pending (n : Option Nat) (a : Nat) :
    (s.scramble n a).pending = s.pending := rfl

/-! ### `State.markClean` -/

@[simp] theorem State.markClean_phase (n a : Nat) : (s.markClean n a).phase = s.phase := rfl
@[simp] theorem State.markClean_irqen (n a : Nat) : (s.markClean n a).irqen = s.irqen := rfl
@[simp] theorem State.markClean_done (n a : Nat) : (s.markClean n a).done = s.done := rfl
@[simp] theorem State.markClean_found (n a : Nat) : (s.markClean n a).found = s.found := rfl
@[simp] theorem State.markClean_whb (n a : Nat) : (s.markClean n a).whb = s.whb := rfl
@[simp] theorem State.markClean_err (n a : Nat) : (s.markClean n a).err = s.err := rfl
@[simp] theorem State.markClean_bmBase (n a : Nat) : (s.markClean n a).bmBase = s.bmBase := rfl
@[simp] theorem State.markClean_bmLen (n a : Nat) : (s.markClean n a).bmLen = s.bmLen := rfl
@[simp] theorem State.markClean_arg0 (n a : Nat) : (s.markClean n a).arg0 = s.arg0 := rfl
@[simp] theorem State.markClean_arg1 (n a : Nat) : (s.markClean n a).arg1 = s.arg1 := rfl
@[simp] theorem State.markClean_result (n a : Nat) : (s.markClean n a).result = s.result := rfl
@[simp] theorem State.markClean_errinfo (n a : Nat) : (s.markClean n a).errinfo = s.errinfo := rfl
@[simp] theorem State.markClean_nameBase (n a : Nat) : (s.markClean n a).nameBase = s.nameBase := rfl
@[simp] theorem State.markClean_nameLen (n a : Nat) : (s.markClean n a).nameLen = s.nameLen := rfl
@[simp] theorem State.markClean_nameOff (n a : Nat) : (s.markClean n a).nameOff = s.nameOff := rfl
@[simp] theorem State.markClean_seed (n a : Nat) : (s.markClean n a).seed = s.seed := rfl
@[simp] theorem State.markClean_h (n a : Nat) : (s.markClean n a).h = s.h := rfl
@[simp] theorem State.markClean_w (n a : Nat) : (s.markClean n a).w = s.w := rfl
@[simp] theorem State.markClean_major (n a : Nat) : (s.markClean n a).major = s.major := rfl
@[simp] theorem State.markClean_minor (n a : Nat) : (s.markClean n a).minor = s.minor := rfl
@[simp] theorem State.markClean_mem (n a : Nat) : (s.markClean n a).mem = s.mem := rfl
@[simp] theorem State.markClean_platform (n a : Nat) : (s.markClean n a).platform = s.platform := rfl
@[simp] theorem State.markClean_unclean (n a : Nat) :
    (s.markClean n a).unclean = dropFrom ⟨n, a⟩ s.unclean := rfl
@[simp] theorem State.markClean_stale (n a : Nat) : (s.markClean n a).stale = s.stale := rfl
@[simp] theorem State.markClean_fresh (n a : Nat) : (s.markClean n a).fresh = s.fresh := rfl
@[simp] theorem State.markClean_draws (n a : Nat) : (s.markClean n a).draws = s.draws := rfl
@[simp] theorem State.markClean_reply (n a : Nat) : (s.markClean n a).reply = s.reply := rfl
@[simp] theorem State.markClean_pending (n a : Nat) : (s.markClean n a).pending = s.pending := rfl

/-! ### `State.markFresh` -/

@[simp] theorem State.markFresh_phase (n a : Nat) : (s.markFresh n a).phase = s.phase := rfl
@[simp] theorem State.markFresh_irqen (n a : Nat) : (s.markFresh n a).irqen = s.irqen := rfl
@[simp] theorem State.markFresh_done (n a : Nat) : (s.markFresh n a).done = s.done := rfl
@[simp] theorem State.markFresh_found (n a : Nat) : (s.markFresh n a).found = s.found := rfl
@[simp] theorem State.markFresh_whb (n a : Nat) : (s.markFresh n a).whb = s.whb := rfl
@[simp] theorem State.markFresh_err (n a : Nat) : (s.markFresh n a).err = s.err := rfl
@[simp] theorem State.markFresh_bmBase (n a : Nat) : (s.markFresh n a).bmBase = s.bmBase := rfl
@[simp] theorem State.markFresh_bmLen (n a : Nat) : (s.markFresh n a).bmLen = s.bmLen := rfl
@[simp] theorem State.markFresh_arg0 (n a : Nat) : (s.markFresh n a).arg0 = s.arg0 := rfl
@[simp] theorem State.markFresh_arg1 (n a : Nat) : (s.markFresh n a).arg1 = s.arg1 := rfl
@[simp] theorem State.markFresh_result (n a : Nat) : (s.markFresh n a).result = s.result := rfl
@[simp] theorem State.markFresh_errinfo (n a : Nat) : (s.markFresh n a).errinfo = s.errinfo := rfl
@[simp] theorem State.markFresh_nameBase (n a : Nat) : (s.markFresh n a).nameBase = s.nameBase := rfl
@[simp] theorem State.markFresh_nameLen (n a : Nat) : (s.markFresh n a).nameLen = s.nameLen := rfl
@[simp] theorem State.markFresh_nameOff (n a : Nat) : (s.markFresh n a).nameOff = s.nameOff := rfl
@[simp] theorem State.markFresh_seed (n a : Nat) : (s.markFresh n a).seed = s.seed := rfl
@[simp] theorem State.markFresh_h (n a : Nat) : (s.markFresh n a).h = s.h := rfl
@[simp] theorem State.markFresh_w (n a : Nat) : (s.markFresh n a).w = s.w := rfl
@[simp] theorem State.markFresh_major (n a : Nat) : (s.markFresh n a).major = s.major := rfl
@[simp] theorem State.markFresh_minor (n a : Nat) : (s.markFresh n a).minor = s.minor := rfl
@[simp] theorem State.markFresh_mem (n a : Nat) : (s.markFresh n a).mem = s.mem := rfl
@[simp] theorem State.markFresh_platform (n a : Nat) : (s.markFresh n a).platform = s.platform := rfl
@[simp] theorem State.markFresh_unclean (n a : Nat) : (s.markFresh n a).unclean = s.unclean := rfl
@[simp] theorem State.markFresh_stale (n a : Nat) : (s.markFresh n a).stale = s.stale := rfl
@[simp] theorem State.markFresh_fresh (n a : Nat) :
    (s.markFresh n a).fresh = (if s.platform.coherent then s.fresh else addTo ⟨n, a⟩ s.fresh) := rfl
@[simp] theorem State.markFresh_draws (n a : Nat) : (s.markFresh n a).draws = s.draws := rfl
@[simp] theorem State.markFresh_reply (n a : Nat) : (s.markFresh n a).reply = s.reply := rfl
@[simp] theorem State.markFresh_pending (n a : Nat) : (s.markFresh n a).pending = s.pending := rfl

/-! ### Updates said through another -/

@[simp] theorem State.initHash_eq (b : Bool) : s.initHash b = s.setH (if b then s.seed else md4Iv) := rfl
@[simp] theorem State.md4Block_eq : s.md4Block = s.setH (md4Transform s.h s.w) := rfl
@[simp] theorem State.teaBlock_eq : s.teaBlock = s.setH (teaTransform s.h s.w) := rfl
@[simp] theorem State.setPost_eq (x y : Word) : s.setPost x y = s.setHash (post x) y := rfl
@[simp] theorem State.setWord_eq (j : Nat) (v : Word) :
    s.setWord j v = s.setW (s.w.setIfInBounds j v) := rfl

/-! ### STATUS.BUSY -/

@[simp] theorem State.complete_isBusy (b : Bool) : (s.complete b).isBusy = false := rfl
@[simp] theorem State.raise_isBusy (e : ErrCode) (i : Word) : (s.raise e i).isBusy = false := rfl
@[simp] theorem State.accept_isBusy (c : Word) : (s.accept c).isBusy = true := rfl
@[simp] theorem State.resetRegisters_isBusy : s.resetRegisters.isBusy = false := rfl

/-! ### Runs -/

@[simp] theorem Run.start_st : (Run.start s).st = s := rfl
@[simp] theorem Run.start_trace : (Run.start s).trace = [] := rfl
@[simp] theorem Run.update_st (f : State → State) (r : Run) : (r.update f).st = f r.st := rfl
@[simp] theorem Run.update_trace (f : State → State) (r : Run) : (r.update f).trace = r.trace := rfl
@[simp] theorem Ended.completed_state (b : Bool) (r : Run) :
    (Ended.completed b r).state = r.st.complete b := rfl
@[simp] theorem Ended.raised_state (e : ErrCode) (i : Word) (r : Run) :
    (Ended.raised e i r).state = r.st.raise e i := rfl
@[simp] theorem Ended.completed_last (b : Bool) (r : Run) : (Ended.completed b r).last = r := rfl
@[simp] theorem Ended.raised_last (e : ErrCode) (i : Word) (r : Run) : (Ended.raised e i r).last = r := rfl
@[simp] theorem Port.ok_last {α : Type} (v : α) (r : Run) : (Port.ok v r).last = r := rfl
@[simp] theorem Port.busErr_last {α : Type} (i : Word) (r : Run) : (Port.busErr i r : Port α).last = r := rfl
@[simp] theorem Ended.completed_trace (b : Bool) (r : Run) : (Ended.completed b r).trace = r.trace := rfl
@[simp] theorem Ended.raised_trace (e : ErrCode) (i : Word) (r : Run) :
    (Ended.raised e i r).trace = r.trace := rfl
@[simp] theorem Port.ok_andThen {α β : Type} (v : α) (r : Run) (f : α → Run → Port β) :
    (Port.ok v r).andThen f = f v r := rfl
@[simp] theorem Port.busErr_andThen {α β : Type} (i : Word) (r : Run) (f : α → Run → Port β) :
    (Port.busErr i r : Port α).andThen f = .busErr i r := rfl
@[simp] theorem Port.ok_finish {α : Type} (v : α) (r : Run) (f : α → Run → Ended) :
    (Port.ok v r).finish f = f v r := rfl
@[simp] theorem Port.busErr_finish {α : Type} (i : Word) (r : Run) (f : α → Run → Ended) :
    (Port.busErr i r : Port α).finish f = .raised .buserr i r := rfl

end Sys2Proof.Machine
end

