-- ==== Sys2Proof/Laws/Ops.lean ====
section
/-! SUPPORT. What each shared operation of the engine can do, said once: the master port (R26), sequencing
with bus errors (R72), the end of a command (R72, R73), and the kinds of frames commands have. -/

namespace Sys2Proof.Machine

/-! ### The address predicates depend on few fields -/

theorem State.portOk_congr {s t : State} (h : t.platform = s.platform) (a : Nat) (k : AccessKind) :
    t.portOk a k = s.portOk a k := by simp [State.portOk, h]

theorem State.engineBlind_congr {s t : State} (hp : t.platform = s.platform) (hu : t.unclean = s.unclean)
    (a : Nat) : t.engineBlind a = s.engineBlind a := by simp [State.engineBlind, hp, hu]

theorem State.portOk_lt {s : State} {a : Nat} {k : AccessKind} (h : s.portOk a k = true) : a < 2 ^ 32 := by
  simp only [State.portOk, Bool.and_eq_true, decide_eq_true_eq] at h
  exact h.1

/-- A byte that is not hidden reads as memory holds it. -/
theorem State.readValue_of_seen {s : State} {a : Nat} (h : s.engineBlind a = false) :
    s.readValue a = Memory.read s.mem a := by simp [State.readValue, h]

theorem State.afterRead_of_seen {s : State} {a : Nat} (h : s.engineBlind a = false) : s.afterRead a = s := by
  simp [State.afterRead, h]

/-- A read changes nothing but the count of drawn values. -/
theorem State.afterRead_eq (s : State) (a : Nat) :
    s.afterRead a = { s with draws := (s.afterRead a).draws } := by
  unfold State.afterRead
  split <;> rfl

/-! ### The master port -/

/-- All that a read can do (R26). -/
theorem memRead_cases (a : Nat) (r : Run) :
    (r.st.portOk a .read = true ∧
      memRead a r = .ok (r.st.readValue a) ⟨r.st.afterRead a, r.trace ++ [.read a]⟩) ∨
    (r.st.portOk a .read = false ∧ memRead a r = .busErr (BitVec.ofNat 32 a) r) := by
  unfold memRead
  split
  · next h => exact .inl ⟨h, rfl⟩
  · next h => exact .inr ⟨by simpa using h, rfl⟩

theorem memRead_ok {a : Nat} {r : Run} (h : r.st.portOk a .read = true) :
    memRead a r = .ok (r.st.readValue a) ⟨r.st.afterRead a, r.trace ++ [.read a]⟩ := by
  simp [memRead, h]

theorem memRead_err {a : Nat} {r : Run} (h : r.st.portOk a .read = false) :
    memRead a r = .busErr (BitVec.ofNat 32 a) r := by simp [memRead, h]

/-- A read of a byte that is not hidden changes no state (R26). -/
theorem memRead_seen {a : Nat} {r : Run} (h : r.st.portOk a .read = true) (hb : r.st.engineBlind a = false) :
    memRead a r = .ok (Memory.read r.st.mem a) ⟨r.st, r.trace ++ [.read a]⟩ := by
  rw [memRead_ok h, State.readValue_of_seen hb, State.afterRead_of_seen hb]

/-- All that a write can do (R26). -/
theorem memWrite_cases (a : Nat) (v : Byte) (r : Run) :
    (r.st.portOk a .write = true ∧
      memWrite a v r = .ok () ⟨r.st.storeByte a v, r.trace ++ [.write a v]⟩) ∨
    (r.st.portOk a .write = false ∧ memWrite a v r = .busErr (BitVec.ofNat 32 a) r) := by
  unfold memWrite
  split
  · next h => exact .inl ⟨h, rfl⟩
  · next h => exact .inr ⟨by simpa using h, rfl⟩

theorem memWrite_ok {a : Nat} {v : Byte} {r : Run} (h : r.st.portOk a .write = true) :
    memWrite a v r = .ok () ⟨r.st.storeByte a v, r.trace ++ [.write a v]⟩ := by simp [memWrite, h]

theorem memWrite_err {a : Nat} {v : Byte} {r : Run} (h : r.st.portOk a .write = false) :
    memWrite a v r = .busErr (BitVec.ofNat 32 a) r := by simp [memWrite, h]

/-! ### Sequencing -/

/-- A part that may meet a bus error either answered or ended the command. -/
theorem Port.cases {α : Type} (p : Port α) :
    (∃ v, p = .ok v p.last) ∨ (∃ info, p = .busErr info p.last) := by
  cases p with
  | ok v r => exact .inl ⟨v, rfl⟩
  | busErr i r => exact .inr ⟨i, rfl⟩

theorem Port.andThen_ok_iff {α β : Type} {p : Port α} {f : α → Run → Port β} {w : β} {r : Run} :
    p.andThen f = .ok w r ↔ ∃ v r', p = .ok v r' ∧ f v r' = .ok w r := by
  cases p <;> simp [Port.andThen]

theorem Port.andThen_assoc {α β γ : Type} (p : Port α) (f : α → Run → Port β) (g : β → Run → Port γ) :
    (p.andThen f).andThen g = p.andThen fun v r => (f v r).andThen g := by cases p <;> rfl

theorem Port.andThen_finish {α β : Type} (p : Port α) (f : α → Run → Port β) (g : β → Run → Ended) :
    (p.andThen f).finish g = p.finish fun v r => (f v r).finish g := by cases p <;> rfl

/-- A transitive relation that both parts keep, the whole keeps. -/
theorem Port.andThen_keeps {α β : Type} {R : Run → Run → Prop}
    (trans : ∀ {x y z}, R x y → R y z → R x z) {r : Run} {p : Port α} {f : α → Run → Port β}
    (h1 : R r p.last) (h2 : ∀ v r', R r' (f v r').last) : R r (p.andThen f).last := by
  cases p with
  | ok v r' => exact trans h1 (h2 v r')
  | busErr i r' => exact h1

theorem Port.finish_keeps {α : Type} {R : Run → Run → Prop}
    (trans : ∀ {x y z}, R x y → R y z → R x z) {r : Run} {p : Port α} {f : α → Run → Ended}
    (h1 : R r p.last) (h2 : ∀ v r', R r' (f v r').last) : R r (p.finish f).last := by
  cases p with
  | ok v r' => exact trans h1 (h2 v r')
  | busErr i r' => exact h1

/-- A command's state is its last run's, ended in one of two ways (R72, R73). -/
theorem Ended.state_cases (e : Ended) :
    (∃ b, e = .completed b e.last ∧ e.state = e.last.st.complete b) ∨
    (∃ c i, e = .raised c i e.last ∧ e.state = e.last.st.raise c i) := by
  cases e with
  | completed b r => exact .inl ⟨b, rfl, rfl⟩
  | raised c i r => exact .inr ⟨c, i, rfl, rfl⟩

/-! ### The frames of command bodies -/

/-- Only reads happened: the count of drawn values may have changed. -/
def ReadsOnly (s t : State) : Prop := t = { s with draws := t.draws }

/-- Only memory was written, besides reads. -/
def MemoryOnly (s t : State) : Prop :=
  t = { s with mem := t.mem, stale := t.stale, fresh := t.fresh, draws := t.draws }

/-- Only H and W were written, besides reads. -/
def HashOnly (s t : State) : Prop := t = { s with h := t.h, w := t.w, draws := t.draws }

/-- Only RESULT was written, besides reads. -/
def ResultOnly (s t : State) : Prop := t = { s with result := t.result, draws := t.draws }

/-- What a command body other than SRST can change at all. -/
def BodyFrame (s t : State) : Prop :=
  t = { s with
    mem := t.mem, stale := t.stale, fresh := t.fresh, draws := t.draws, result := t.result, h := t.h, w := t.w,
    major := t.major, minor := t.minor }

theorem ReadsOnly.refl (s : State) : ReadsOnly s s := rfl
theorem MemoryOnly.refl (s : State) : MemoryOnly s s := rfl
theorem HashOnly.refl (s : State) : HashOnly s s := rfl
theorem ResultOnly.refl (s : State) : ResultOnly s s := rfl
theorem BodyFrame.refl (s : State) : BodyFrame s s := rfl

theorem ReadsOnly.trans {s t u : State} (h1 : ReadsOnly s t) (h2 : ReadsOnly t u) : ReadsOnly s u := by
  unfold ReadsOnly at *; rw [h2, h1]
theorem MemoryOnly.trans {s t u : State} (h1 : MemoryOnly s t) (h2 : MemoryOnly t u) : MemoryOnly s u := by
  unfold MemoryOnly at *; rw [h2, h1]
theorem HashOnly.trans {s t u : State} (h1 : HashOnly s t) (h2 : HashOnly t u) : HashOnly s u := by
  unfold HashOnly at *; rw [h2, h1]
theorem ResultOnly.trans {s t u : State} (h1 : ResultOnly s t) (h2 : ResultOnly t u) : ResultOnly s u := by
  unfold ResultOnly at *; rw [h2, h1]
theorem BodyFrame.trans {s t u : State} (h1 : BodyFrame s t) (h2 : BodyFrame t u) : BodyFrame s u := by
  unfold BodyFrame at *; rw [h2, h1]

theorem ReadsOnly.memoryOnly {s t : State} (h : ReadsOnly s t) : MemoryOnly s t := by
  unfold ReadsOnly at h; unfold MemoryOnly; rw [h]
theorem ReadsOnly.hashOnly {s t : State} (h : ReadsOnly s t) : HashOnly s t := by
  unfold ReadsOnly at h; unfold HashOnly; rw [h]
theorem ReadsOnly.resultOnly {s t : State} (h : ReadsOnly s t) : ResultOnly s t := by
  unfold ReadsOnly at h; unfold ResultOnly; rw [h]
theorem ResultOnly.bodyFrame {s t : State} (h : ResultOnly s t) : BodyFrame s t := by
  unfold ResultOnly at h; unfold BodyFrame; rw [h]
theorem ResultOnly.setResult (s : State) (v : Word) : ResultOnly s (s.setResult v) := rfl
theorem ReadsOnly.bodyFrame {s t : State} (h : ReadsOnly s t) : BodyFrame s t := by
  unfold ReadsOnly at h; unfold BodyFrame; rw [h]
theorem MemoryOnly.bodyFrame {s t : State} (h : MemoryOnly s t) : BodyFrame s t := by
  unfold MemoryOnly at h; unfold BodyFrame; rw [h]
theorem HashOnly.bodyFrame {s t : State} (h : HashOnly s t) : BodyFrame s t := by
  unfold HashOnly at h; unfold BodyFrame; rw [h]

/-- A read is only a read. -/
theorem memRead_readsOnly (a : Nat) (r : Run) : ReadsOnly r.st (memRead a r).last.st := by
  rcases memRead_cases a r with ⟨_, h⟩ | ⟨_, h⟩ <;> rw [h]
  · exact State.afterRead_eq _ a
  · rfl

/-- A write writes only memory. -/
theorem memWrite_memoryOnly (a : Nat) (v : Byte) (r : Run) :
    MemoryOnly r.st (memWrite a v r).last.st := by
  rcases memWrite_cases a v r with ⟨_, h⟩ | ⟨_, h⟩ <;> rw [h] <;> rfl

/-! ### Traces -/

/-- Memory after the writes among a list of accesses. -/
def replayMemory (m : Memory) (l : List Access) : Memory :=
  l.foldl (fun m x => match x with | .read _ => m | .write a v => Memory.write m a v) m

@[simp] theorem replayMemory_nil (m : Memory) : replayMemory m [] = m := rfl

theorem replayMemory_append (m : Memory) (l l' : List Access) :
    replayMemory m (l ++ l') = replayMemory (replayMemory m l) l' := by simp [replayMemory]

/-- The run went on by accesses that each satisfy `F`, and memory changed exactly by the writes among
them. -/
def Extends (F : Access → Prop) (r r' : Run) : Prop :=
  ∃ l, r'.trace = r.trace ++ l ∧ (∀ x ∈ l, F x) ∧ r'.st.mem = replayMemory r.st.mem l

theorem Extends.refl (F : Access → Prop) (r : Run) : Extends F r r := ⟨[], by simp⟩

theorem Extends.trans {F : Access → Prop} {x y z : Run} (h1 : Extends F x y) (h2 : Extends F y z) :
    Extends F x z := by
  obtain ⟨l1, t1, f1, m1⟩ := h1
  obtain ⟨l2, t2, f2, m2⟩ := h2
  refine ⟨l1 ++ l2, by rw [t2, t1, List.append_assoc], fun a ha => ?_, by rw [m2, m1, replayMemory_append]⟩
  exact (List.mem_append.1 ha).elim (f1 a) (f2 a)

theorem Extends.mono {F G : Access → Prop} (h : ∀ x, F x → G x) {r r' : Run} (hr : Extends F r r') :
    Extends G r r' := by
  obtain ⟨l, t, f, m⟩ := hr
  exact ⟨l, t, fun x hx => h x (f x hx), m⟩

/-- An update that leaves memory alone extends a run by nothing. -/
theorem Extends.update {F : Access → Prop} {f : State → State} {r : Run} (h : (f r.st).mem = r.st.mem) :
    Extends F r (r.update f) := ⟨[], by simp, by simp, by simp [h]⟩

theorem memRead_extends {F : Access → Prop} {a : Nat} {r : Run}
    (h : r.st.portOk a .read = true → F (.read a)) : Extends F r (memRead a r).last := by
  rcases memRead_cases a r with ⟨hp, he⟩ | ⟨_, he⟩ <;> rw [he]
  · refine ⟨[.read a], rfl, by simpa using h hp, ?_⟩
    rw [Port.ok_last, State.afterRead_eq]
    rfl
  · exact Extends.refl F r

theorem memWrite_extends {F : Access → Prop} {a : Nat} {v : Byte} {r : Run}
    (h : r.st.portOk a .write = true → F (.write a v)) : Extends F r (memWrite a v r).last := by
  rcases memWrite_cases a v r with ⟨hp, he⟩ | ⟨_, he⟩ <;> rw [he]
  · exact ⟨[.write a v], rfl, by simpa using h hp, rfl⟩
  · exact Extends.refl F r

/-- Writes of addresses that exist keep the canonical form. -/
theorem replayMemory_wf {m : Memory} (hm : Memory.wf m = true) {l : List Access}
    (h : ∀ x ∈ l, x.addr < 2 ^ 32) : Memory.wf (replayMemory m l) = true := by
  induction l generalizing m with
  | nil => exact hm
  | cons x l ih =>
    have hl : ∀ y ∈ l, y.addr < 2 ^ 32 := fun y hy => h y (List.mem_cons_of_mem _ hy)
    cases x with
    | read a => exact ih hm hl
    | write a v => exact ih (Memory.write_wf hm (h _ List.mem_cons_self) v) hl

/-- A byte that no write among the accesses touches reads as before. -/
theorem replayMemory_read_other {m : Memory} (hm : Memory.wf m = true) {l : List Access}
    (h : ∀ x ∈ l, x.addr < 2 ^ 32) {b : Nat} (hb : ∀ v, Access.write b v ∉ l) :
    Memory.read (replayMemory m l) b = Memory.read m b := by
  induction l generalizing m with
  | nil => rfl
  | cons x l ih =>
    have hl : ∀ y ∈ l, y.addr < 2 ^ 32 := fun y hy => h y (List.mem_cons_of_mem _ hy)
    have hbl : ∀ v, Access.write b v ∉ l := fun v hv => hb v (List.mem_cons_of_mem _ hv)
    cases x with
    | read a => exact ih hm hl hbl
    | write a v =>
      have hab : b ≠ a := fun e => hb v (e ▸ List.mem_cons_self)
      exact (ih (Memory.write_wf hm (h _ List.mem_cons_self) v) hl hbl).trans
        (Memory.read_write_other hm hab v)

end Sys2Proof.Machine
end

