-- ==== Sys2Proof/Laws/Bitmap.lean ====
section
/-! SUPPORT. What the operations of the bitmap unit can do: their frames, their accesses, and their effect
on a byte that is accessible and not hidden (spec/40_bitmap.md). -/

namespace Sys2Proof.Machine

/-- The accesses of a command that touches byte offsets `P` of the buffer of `s`. -/
def BufferAccess (s : State) (P : Nat → Prop) (x : Access) : Prop :=
  ∃ k, P k ∧ k < s.bmLen.toNat ∧ x.addr = s.bmBase.toNat + k ∧ x.addr < 2 ^ 32

/-- The reads among them. -/
def BufferRead (s : State) (P : Nat → Prop) (x : Access) : Prop :=
  BufferAccess s P x ∧ x = .read x.addr

theorem BufferAccess.mono {s : State} {P Q : Nat → Prop} (h : ∀ k, P k → Q k) {x : Access} :
    BufferAccess s P x → BufferAccess s Q x := fun ⟨k, hk, r⟩ => ⟨k, h k hk, r⟩

theorem State.inBuffer_iff {s : State} {k : Nat} : s.inBuffer k = true ↔ k < s.bmLen.toNat := by
  simp [State.inBuffer]

theorem MemoryOnly.bmBase {s t : State} (h : MemoryOnly s t) : t.bmBase = s.bmBase := by rw [h]
theorem MemoryOnly.bmLen {s t : State} (h : MemoryOnly s t) : t.bmLen = s.bmLen := by rw [h]
theorem MemoryOnly.platform {s t : State} (h : MemoryOnly s t) : t.platform = s.platform := by rw [h]
theorem MemoryOnly.unclean {s t : State} (h : MemoryOnly s t) : t.unclean = s.unclean := by rw [h]

theorem MemoryOnly.inBuffer {s t : State} (h : MemoryOnly s t) (k : Nat) : t.inBuffer k = s.inBuffer k := by
  simp [State.inBuffer, h.bmLen]
theorem MemoryOnly.bitmapAddr {s t : State} (h : MemoryOnly s t) (k : Nat) :
    t.bitmapAddr k = s.bitmapAddr k := by simp [State.bitmapAddr, h.bmBase]
theorem MemoryOnly.portOk {s t : State} (h : MemoryOnly s t) (a : Nat) (k : AccessKind) :
    t.portOk a k = s.portOk a k := State.portOk_congr h.platform a k
theorem MemoryOnly.engineBlind {s t : State} (h : MemoryOnly s t) (a : Nat) :
    t.engineBlind a = s.engineBlind a := State.engineBlind_congr h.platform h.unclean a

/-! ### One bit -/

theorem modifyBit_memoryOnly (f : Nat → Byte → Byte) (i : Nat) (r : Run) :
    MemoryOnly r.st (modifyBit f i r).last.st := by
  unfold modifyBit
  split
  · exact Port.andThen_keeps (R := fun x y => MemoryOnly x.st y.st) MemoryOnly.trans
      (memRead_readsOnly _ r).memoryOnly fun _ r' => memWrite_memoryOnly _ _ r'
  · exact MemoryOnly.refl _

theorem modifyBit_extends {s : State} {P : Nat → Prop} {f : Nat → Byte → Byte} {i : Nat} {r : Run}
    (hr : MemoryOnly s r.st) (hi : P (byteOf i)) : Extends (BufferAccess s P) r (modifyBit f i r).last := by
  have ha : r.st.bitmapAddr (byteOf i) = s.bmBase.toNat + byteOf i := hr.bitmapAddr _
  unfold modifyBit
  split
  · next hb =>
    have hb' : byteOf i < s.bmLen.toNat := by rw [hr.inBuffer] at hb; exact State.inBuffer_iff.1 hb
    exact Port.andThen_keeps (R := Extends (BufferAccess s P)) Extends.trans
      (memRead_extends fun hp => ⟨_, hi, hb', ha, State.portOk_lt hp⟩) fun v r' =>
        memWrite_extends fun hp => ⟨_, hi, hb', ha, State.portOk_lt hp⟩
  · exact Extends.refl _ _

/-- Outside the buffer a single-bit write is dropped with no access (R40, R41). -/
theorem modifyBit_dropped {f : Nat → Byte → Byte} {i : Nat} {r : Run}
    (h : r.st.inBuffer (byteOf i) = false) : modifyBit f i r = .ok () r := by simp [modifyBit, h]

/-- Inside the buffer, on an accessible byte: one read and one write (R40, R41). -/
theorem modifyBit_done {f : Nat → Byte → Byte} {i : Nat} {r : Run}
    (h : r.st.inBuffer (byteOf i) = true) (hr : r.st.portOk (r.st.bitmapAddr (byteOf i)) .read = true)
    (hw : r.st.portOk (r.st.bitmapAddr (byteOf i)) .write = true) :
    modifyBit f i r = .ok ()
      ⟨(r.st.afterRead (r.st.bitmapAddr (byteOf i))).storeByte (r.st.bitmapAddr (byteOf i))
          (f i (r.st.readValue (r.st.bitmapAddr (byteOf i)))),
        r.trace ++ [.read (r.st.bitmapAddr (byteOf i))] ++
          [.write (r.st.bitmapAddr (byteOf i)) (f i (r.st.readValue (r.st.bitmapAddr (byteOf i))))]⟩ := by
  have hw' : (r.st.afterRead (r.st.bitmapAddr (byteOf i))).portOk (r.st.bitmapAddr (byteOf i)) .write
      = true := by
    rw [State.portOk_congr (s := r.st) (by rw [State.afterRead_eq])]
    exact hw
  rw [modifyBit, if_pos h, memRead_ok hr, Port.ok_andThen, memWrite_ok hw']

/-- A byte that cannot be read ends the command before anything is written (R40, R75). -/
theorem modifyBit_readErr {f : Nat → Byte → Byte} {i : Nat} {r : Run}
    (h : r.st.inBuffer (byteOf i) = true) (hr : r.st.portOk (r.st.bitmapAddr (byteOf i)) .read = false) :
    modifyBit f i r = .busErr (BitVec.ofNat 32 (r.st.bitmapAddr (byteOf i))) r := by
  simp [modifyBit, h, memRead_err hr]

theorem testBit_cases (f : Bool → Word) (i : Nat) (r : Run) :
    (r.st.inBuffer (byteOf i) = false ∧ testBit f i r = .raised .bounds (BitVec.ofNat 32 i) r) ∨
    (r.st.inBuffer (byteOf i) = true ∧ r.st.portOk (r.st.bitmapAddr (byteOf i)) .read = false ∧
      testBit f i r = .raised .buserr (BitVec.ofNat 32 (r.st.bitmapAddr (byteOf i))) r) ∨
    (r.st.inBuffer (byteOf i) = true ∧ r.st.portOk (r.st.bitmapAddr (byteOf i)) .read = true ∧
      testBit f i r = .completed false
        ⟨(r.st.afterRead (r.st.bitmapAddr (byteOf i))).setResult
            (f (bitSet (r.st.readValue (r.st.bitmapAddr (byteOf i))) i)),
          r.trace ++ [.read (r.st.bitmapAddr (byteOf i))]⟩) := by
  by_cases h : r.st.inBuffer (byteOf i) = true
  · rcases memRead_cases (r.st.bitmapAddr (byteOf i)) r with ⟨hp, he⟩ | ⟨hp, he⟩
    · exact .inr (.inr ⟨h, hp, by simp [testBit, h, he, Run.update]⟩)
    · exact .inr (.inl ⟨h, hp, by simp [testBit, h, he]⟩)
  · exact .inl ⟨by simpa using h, by simp [testBit, h]⟩

/-- BTST and BTSTC write only RESULT (R42, R43). -/
theorem testBit_resultOnly (f : Bool → Word) (i : Nat) (r : Run) :
    ResultOnly r.st (testBit f i r).last.st := by
  unfold testBit
  split
  · exact Port.finish_keeps (R := fun x y => ResultOnly x.st y.st) ResultOnly.trans
      (memRead_readsOnly _ r).resultOnly fun _ _ => ResultOnly.setResult _ _
  · exact ResultOnly.refl _

/-! ### BFREE -/

theorem freeHead_memoryOnly (n i : Nat) (r : Run) : MemoryOnly r.st (freeHead n i r).last.st := by
  induction n generalizing i r with
  | zero => exact MemoryOnly.refl _
  | succ n ih =>
    unfold freeHead
    split
    · exact MemoryOnly.refl _
    · exact Port.andThen_keeps (R := fun x y => MemoryOnly x.st y.st) MemoryOnly.trans
        (modifyBit_memoryOnly ..) fun _ r' => ih _ r'

theorem zeroByte_memoryOnly (k : Nat) (r : Run) : MemoryOnly r.st (zeroByte k r).last.st := by
  unfold zeroByte
  split
  · exact memWrite_memoryOnly ..
  · exact MemoryOnly.refl _

theorem freeBytes_memoryOnly (q i : Nat) (r : Run) : MemoryOnly r.st (freeBytes q i r).last.st := by
  induction q generalizing i r with
  | zero => exact MemoryOnly.refl _
  | succ q ih =>
    exact Port.andThen_keeps (R := fun x y => MemoryOnly x.st y.st) MemoryOnly.trans
      (zeroByte_memoryOnly ..) fun _ r' => ih _ r'

theorem freeTail_memoryOnly (n i : Nat) (r : Run) : MemoryOnly r.st (freeTail n i r).last.st := by
  induction n generalizing i r with
  | zero => exact MemoryOnly.refl _
  | succ n ih =>
    exact Port.andThen_keeps (R := fun x y => MemoryOnly x.st y.st) MemoryOnly.trans
      (modifyBit_memoryOnly ..) fun _ r' => ih _ r'

/-- BFREE writes only memory (R44). -/
theorem freeRange_memoryOnly (i n : Nat) (r : Run) : MemoryOnly r.st (freeRange i n r).last.st :=
  Port.andThen_keeps (R := fun x y => MemoryOnly x.st y.st) MemoryOnly.trans (freeHead_memoryOnly ..)
    fun _ r' => Port.andThen_keeps (R := fun x y => MemoryOnly x.st y.st) MemoryOnly.trans
      (freeBytes_memoryOnly _ _ r') fun _ r'' => freeTail_memoryOnly _ _ r''

/-- Phase 1 stops at a byte boundary or with nothing left, having counted every bit (R44). -/
theorem freeHead_answer {n i i' n' : Nat} {r r' : Run} (h : freeHead n i r = .ok (i', n') r') :
    i ≤ i' ∧ i' + n' = i + n ∧ (i' % 8 = 0 ∨ n' = 0) := by
  induction n generalizing i r with
  | zero =>
    simp only [freeHead, Port.ok.injEq, Prod.mk.injEq] at h
    obtain ⟨⟨rfl, rfl⟩, -⟩ := h
    exact ⟨Nat.le_refl _, rfl, .inr rfl⟩
  | succ n ih =>
    unfold freeHead at h
    split at h
    · next h8 =>
      simp only [Port.ok.injEq, Prod.mk.injEq] at h
      obtain ⟨⟨rfl, rfl⟩, -⟩ := h
      exact ⟨Nat.le_refl _, rfl, .inl h8⟩
    · obtain ⟨v, r1, -, h2⟩ := Port.andThen_ok_iff.1 h
      have := ih h2
      omega

/-- Phase 2 moves on by whole bytes (R44). -/
theorem freeBytes_answer {q i i' : Nat} {r r' : Run} (h : freeBytes q i r = .ok i' r') :
    i' = i + 8 * q := by
  induction q generalizing i r with
  | zero => simp [freeBytes] at h; omega
  | succ q ih =>
    obtain ⟨v, r1, -, h2⟩ := Port.andThen_ok_iff.1 h
    have := ih h2
    omega

/-- The byte offsets of the bits of `[i, i + n)`. -/
def BitsOf (i n k : Nat) : Prop := ∃ j, i ≤ j ∧ j < i + n ∧ k = byteOf j

theorem BitsOf.sub {i n i' n' k : Nat} (h1 : i ≤ i') (h2 : i' + n' ≤ i + n) (h : BitsOf i' n' k) :
    BitsOf i n k := by
  obtain ⟨j, h3, h4, h5⟩ := h
  exact ⟨j, by omega, by omega, h5⟩

theorem freeHead_extends {s : State} {n i : Nat} {r : Run} (hr : MemoryOnly s r.st) :
    Extends (BufferAccess s (BitsOf i n)) r (freeHead n i r).last := by
  induction n generalizing i r with
  | zero => exact Extends.refl _ _
  | succ n ih =>
    unfold freeHead
    split
    · exact Extends.refl _ _
    · have h1 : Extends (BufferAccess s (BitsOf i (n + 1))) r (modifyBit clearBit i r).last :=
        modifyBit_extends hr ⟨i, by omega, by omega, rfl⟩
      have hm := modifyBit_memoryOnly clearBit i r
      cases h : modifyBit clearBit i r with
      | ok v r1 =>
        rw [h] at h1 hm
        exact h1.trans ((ih (hr.trans hm)).mono fun x => BufferAccess.mono fun k =>
          BitsOf.sub (by omega) (by omega))
      | busErr info r1 => rw [h] at h1; exact h1

theorem freeTail_extends {s : State} {n i : Nat} {r : Run} (hr : MemoryOnly s r.st) :
    Extends (BufferAccess s (BitsOf i n)) r (freeTail n i r).last := by
  induction n generalizing i r with
  | zero => exact Extends.refl _ _
  | succ n ih =>
    have h1 : Extends (BufferAccess s (BitsOf i (n + 1))) r (modifyBit clearBit i r).last :=
      modifyBit_extends hr ⟨i, by omega, by omega, rfl⟩
    have hm := modifyBit_memoryOnly clearBit i r
    unfold freeTail
    cases h : modifyBit clearBit i r with
    | ok v r1 =>
      rw [h] at h1 hm
      exact h1.trans ((ih (hr.trans hm)).mono fun x => BufferAccess.mono fun k =>
        BitsOf.sub (by omega) (by omega))
    | busErr info r1 => rw [h] at h1; exact h1

theorem zeroByte_extends {s : State} {P : Nat → Prop} {k : Nat} {r : Run} (hr : MemoryOnly s r.st)
    (hk : P k) : Extends (BufferAccess s P) r (zeroByte k r).last := by
  unfold zeroByte
  split
  · next hb =>
    rw [hr.inBuffer] at hb
    exact memWrite_extends fun hp => ⟨k, hk, State.inBuffer_iff.1 hb, hr.bitmapAddr k, State.portOk_lt hp⟩
  · exact Extends.refl _ _

theorem freeBytes_extends {s : State} {q i : Nat} {r : Run} (hr : MemoryOnly s r.st) :
    Extends (BufferAccess s (BitsOf i (8 * q))) r (freeBytes q i r).last := by
  induction q generalizing i r with
  | zero => exact Extends.refl _ _
  | succ q ih =>
    have h1 : Extends (BufferAccess s (BitsOf i (8 * (q + 1)))) r (zeroByte (byteOf i) r).last :=
      zeroByte_extends hr ⟨i, by omega, by omega, rfl⟩
    have hm := zeroByte_memoryOnly (byteOf i) r
    unfold freeBytes
    cases h : zeroByte (byteOf i) r with
    | ok v r1 =>
      rw [h] at h1 hm
      exact h1.trans ((ih (hr.trans hm)).mono fun x => BufferAccess.mono fun k =>
        BitsOf.sub (by omega) (by omega))
    | busErr info r1 => rw [h] at h1; exact h1

/-- BFREE accesses only bytes of the bits it clears (R29, R44). -/
theorem freeRange_extends {s : State} {i n : Nat} {r : Run} (hr : MemoryOnly s r.st) :
    Extends (BufferAccess s (BitsOf i n)) r (freeRange i n r).last := by
  have h1 : Extends (BufferAccess s (BitsOf i n)) r (freeHead n i r).last := freeHead_extends hr
  have hm1 := freeHead_memoryOnly n i r
  unfold freeRange
  cases h : freeHead n i r with
  | busErr info r1 => rw [h] at h1; exact h1
  | ok v r1 =>
    obtain ⟨i1, n1⟩ := v
    have ha := freeHead_answer h
    rw [h] at h1 hm1
    refine h1.trans ?_
    rw [Port.ok_andThen]
    have h2 : Extends (BufferAccess s (BitsOf i1 (8 * (n1 / 8)))) r1 (freeBytes (n1 / 8) i1 r1).last :=
      freeBytes_extends (hr.trans hm1)
    have h2' := h2.mono fun x => BufferAccess.mono fun k =>
      BitsOf.sub (i := i) (n := n) (by omega) (by omega)
    have hm2 := freeBytes_memoryOnly (n1 / 8) i1 r1
    cases h3 : freeBytes (n1 / 8) i1 r1 with
    | busErr info r2 => rw [h3] at h2'; exact h2'
    | ok i2 r2 =>
      have hb := freeBytes_answer h3
      rw [h3] at h2' hm2
      refine h2'.trans ?_
      rw [Port.ok_andThen]
      exact (freeTail_extends ((hr.trans hm1).trans hm2)).mono fun x => BufferAccess.mono fun k =>
        BitsOf.sub (by omega) (by omega)

/-! ### BFIND -/

/-- BFIND reads only bytes of the bits it scans (R29, R45). -/
theorem findClear_extends {s : State} {n i : Nat} {r : Run} (hr : ReadsOnly s r.st) :
    Extends (BufferRead s (BitsOf i n)) r (findClear n i r).last := by
  induction n generalizing i r with
  | zero => exact Extends.update rfl
  | succ n ih =>
    unfold findClear
    split
    · next hb =>
      have hb' := hb
      rw [hr.memoryOnly.inBuffer] at hb'
      have h1 : Extends (BufferRead s (BitsOf i (n + 1))) r (memRead (r.st.bitmapAddr (byteOf i)) r).last :=
        memRead_extends fun hp => ⟨⟨byteOf i, ⟨i, by omega, by omega, rfl⟩, State.inBuffer_iff.1 hb',
          hr.memoryOnly.bitmapAddr _, State.portOk_lt hp⟩, rfl⟩
      have hm := memRead_readsOnly (r.st.bitmapAddr (byteOf i)) r
      cases h : memRead (r.st.bitmapAddr (byteOf i)) r with
      | busErr info r1 => rw [h] at h1; exact h1
      | ok v r1 =>
        rw [h] at h1 hm
        refine h1.trans ?_
        rw [Port.ok_finish]
        split
        · exact (ih (hr.trans hm)).mono fun x hx => ⟨hx.1.mono fun k =>
            BitsOf.sub (by omega) (by omega), hx.2⟩
        · exact Extends.update rfl
    · exact Extends.refl _ _

/-- BFIND writes only RESULT (R45). -/
theorem findClear_resultOnly (n i : Nat) (r : Run) : ResultOnly r.st (findClear n i r).last.st := by
  induction n generalizing i r with
  | zero => exact ResultOnly.setResult _ _
  | succ n ih =>
    unfold findClear
    split
    · refine Port.finish_keeps (R := fun x y => ResultOnly x.st y.st) ResultOnly.trans
        (memRead_readsOnly _ r).resultOnly fun b r' => ?_
      split
      · exact ih ..
      · exact ResultOnly.setResult _ _
    · exact ResultOnly.refl _

end Sys2Proof.Machine
end

