-- ==== Sys2Proof/Laws/Caches.lean ====
section
/-! SUPPORT. The model's bookkeeping of the hosts' caches (spec/20_memory.md R31 item 3, R32): its sets, what
makes a read any value, and what a host's cache maintenance can do. -/

namespace Sys2Proof.Machine

/-! ### Sets kept as lists -/

@[simp] theorem mem_addTo {α : Type} [DecidableEq α] {x y : α} {l : List α} :
    y ∈ addTo x l ↔ y = x ∨ y ∈ l := by
  unfold addTo
  split
  · exact ⟨.inr, fun h => h.elim (fun e => e ▸ ‹x ∈ l›) id⟩
  · exact List.mem_cons

@[simp] theorem mem_dropFrom {α : Type} [DecidableEq α] {x y : α} {l : List α} :
    y ∈ dropFrom x l ↔ y ∈ l ∧ y ≠ x := by simp [dropFrom]

@[simp] theorem mem_dropCopies {a : Nat} {x : HostByte} {l : List HostByte} :
    x ∈ dropCopies a l ↔ x ∈ l ∧ x.addr ≠ a := by simp [dropCopies]

@[simp] theorem mem_freshAfter {seer : Option Nat} {a : Nat} {x : HostByte} {l : List HostByte} :
    x ∈ freshAfter seer a l ↔ (seer = some x.host ∧ x.addr = a) ∨ (x ∈ l ∧ x.addr ≠ a) := by
  obtain ⟨n, b⟩ := x
  cases seer with
  | none => simp [freshAfter]
  | some m => simp [freshAfter, eq_comm]

theorem addTo_nodup {α : Type} [DecidableEq α] {x : α} {l : List α} (h : l.Nodup) : (addTo x l).Nodup := by
  unfold addTo
  split
  · exact h
  · exact List.nodup_cons.2 ⟨‹_›, h⟩

theorem dropFrom_nodup {α : Type} [DecidableEq α] {x : α} {l : List α} (h : l.Nodup) :
    (dropFrom x l).Nodup := h.filter _

theorem freshAfter_nodup {seer : Option Nat} {a : Nat} {l : List HostByte} (h : l.Nodup) :
    (freshAfter seer a l).Nodup := by
  cases seer with
  | none => exact h.filter _
  | some n => exact List.nodup_cons.2 ⟨by simp, h.filter _⟩

/-! ### When a read is any value -/

theorem State.hostUnclean_iff {s : State} {n a : Nat} :
    s.hostUnclean n a = true ↔ s.platform.coherent = false ∧ ⟨n, a⟩ ∈ s.unclean := by
  simp [State.hostUnclean]

theorem State.hostBehind_iff {s : State} {n a : Nat} :
    s.hostBehind n a = true ↔ a ∈ s.stale ∧ ⟨n, a⟩ ∉ s.fresh := by
  simp [State.hostBehind]

/-- The engine's read is any value exactly when some host has not cleaned its own copy. -/
theorem State.engineBlind_iff {s : State} {a : Nat} :
    s.engineBlind a = true ↔ ∃ n, s.hostUnclean n a = true := by
  simp only [State.engineBlind, Bool.and_eq_true, Bool.not_eq_true', List.any_eq_true, decide_eq_true_eq,
    State.hostUnclean_iff]
  exact ⟨fun ⟨hc, ⟨n, b⟩, hx, hb⟩ => ⟨n, hc, by subst hb; exact hx⟩, fun ⟨n, hc, hx⟩ => ⟨hc, _, hx, rfl⟩⟩

/-- A host's read is any value exactly when its own copy may be behind or another host has not cleaned its
own. -/
theorem State.hostBlind_iff {s : State} {n a : Nat} :
    s.hostBlind n a = true ↔
      (s.platform.coherent = false ∧ s.hostBehind n a = true) ∨ ∃ m, m ≠ n ∧ s.hostUnclean m a = true := by
  simp only [State.hostBlind, Bool.and_eq_true, Bool.not_eq_true', Bool.or_eq_true, List.any_eq_true,
    decide_eq_true_eq, State.hostUnclean_iff]
  constructor
  · rintro ⟨hc, hb | ⟨⟨m, b⟩, hx, hb, hm⟩⟩
    · exact .inl ⟨hc, hb⟩
    · exact .inr ⟨m, hm, hc, by subst hb; exact hx⟩
  · rintro (⟨hc, hb⟩ | ⟨m, hm, hc, hx⟩)
    · exact ⟨hc, .inl hb⟩
    · exact ⟨hc, .inr ⟨_, hx, rfl, hm⟩⟩

/-! ### What maintenance can do -/

/-- All that a host's cleaning of a byte can do (R32, U8). -/
theorem cleanByte_cases (n a : Nat) (s : State) :
    (s.hostUnclean n a = false ∧ s.cleanByte n a = s) ∨
    (s.hostUnclean n a = true ∧ s.hostBehind n a = true ∧
      s.cleanByte n a = (s.scramble none a).markClean n a) ∨
    (s.hostUnclean n a = true ∧ s.hostBehind n a = false ∧
      s.cleanByte n a = (s.overtake (some n) a).markClean n a) := by
  unfold State.cleanByte
  cases s.hostUnclean n a <;> cases s.hostBehind n a <;> simp

/-- All that a host's invalidating of its copy of a byte can do (R32, U8). -/
theorem invalidateByte_cases (n a : Nat) (s : State) :
    (s.hostUnclean n a = false ∧ s.invalidateByte n a = s.markFresh n a) ∨
    (s.hostUnclean n a = true ∧ s.invalidateByte n a = (s.scramble (some n) a).markClean n a) := by
  unfold State.invalidateByte
  cases s.hostUnclean n a <;> simp

end Sys2Proof.Machine
end

