-- ==== Sys2Proof/Laws/Hash.lean ====
section
/-! SUPPORT. What the operations of the hash unit can do: their frames and their accesses
(spec/41_hash.md). -/

namespace Sys2Proof.Machine

theorem HashOnly.nameBase {s t : State} (h : HashOnly s t) : t.nameBase = s.nameBase := by rw [h]
theorem HashOnly.nameLen {s t : State} (h : HashOnly s t) : t.nameLen = s.nameLen := by rw [h]
theorem HashOnly.platform {s t : State} (h : HashOnly s t) : t.platform = s.platform := by rw [h]
theorem HashOnly.unclean {s t : State} (h : HashOnly s t) : t.unclean = s.unclean := by rw [h]
theorem HashOnly.mem {s t : State} (h : HashOnly s t) : t.mem = s.mem := by rw [h]
theorem HashOnly.nameAddr {s t : State} (h : HashOnly s t) (k : Nat) : t.nameAddr k = s.nameAddr k := by
  simp [State.nameAddr, h.nameBase]
theorem HashOnly.portOk {s t : State} (h : HashOnly s t) (a : Nat) (k : AccessKind) :
    t.portOk a k = s.portOk a k := State.portOk_congr h.platform a k
theorem HashOnly.engineBlind {s t : State} (h : HashOnly s t) (a : Nat) :
    t.engineBlind a = s.engineBlind a := State.engineBlind_congr h.platform h.unclean a

theorem HashOnly.setW (s : State) (v : Vector Word 8) : HashOnly s (s.setW v) := rfl
theorem HashOnly.setH (s : State) (v : Vector Word 4) : HashOnly s (s.setH v) := rfl

/-- The reads of name bytes at offsets `P`. -/
def NameRead (s : State) (P : Nat → Prop) (x : Access) : Prop :=
  ∃ k, P k ∧ x = .read (s.nameBase.toNat + k) ∧ x.addr < 2 ^ 32

theorem NameRead.mono {s : State} {P Q : Nat → Prop} (h : ∀ k, P k → Q k) {x : Access} :
    NameRead s P x → NameRead s Q x := fun ⟨k, hk, r⟩ => ⟨k, h k hk, r⟩

/-- The byte loop of chunk preparation writes only W (R51). -/
theorem packBytes_hashOnly (addr : Nat) (uns : Bool) (pad : Word) (k t j : Nat) (val : Word) (r : Run) :
    HashOnly r.st (packBytes addr uns pad k t j val r).last.st := by
  induction k generalizing t j val r with
  | zero => exact HashOnly.refl _
  | succ k ih =>
    unfold packBytes
    refine Port.andThen_keeps (R := fun x y => HashOnly x.st y.st) HashOnly.trans
      (memRead_readsOnly _ r).hashOnly fun b r' => ?_
    dsimp only
    split
    · exact HashOnly.trans (HashOnly.setW _ _) (ih ..)
    · exact ih ..

/-- The byte loop leaves H alone. -/
theorem packBytes_h (addr : Nat) (uns : Bool) (pad : Word) (k t j : Nat) (val : Word) (r : Run) :
    (packBytes addr uns pad k t j val r).last.st.h = r.st.h := by
  induction k generalizing t j val r with
  | zero => rfl
  | succ k ih =>
    unfold packBytes
    refine Port.andThen_keeps (R := fun x y => y.st.h = x.st.h) (fun h1 h2 => h2.trans h1)
      (by rw [memRead_readsOnly _ r]) fun b r' => ?_
    dsimp only
    split
    · exact (ih ..).trans rfl
    · exact ih ..

/-- The byte loop reads `k` bytes from offset `t` (R29, R51). -/
theorem packBytes_extends {F : Access → Prop} {addr : Nat} {uns : Bool} {pad : Word} {k t j : Nat}
    {val : Word} {r : Run}
    (hF : ∀ m, t ≤ m → m < t + k → addr + m < 2 ^ 32 → F (.read (addr + m))) :
    Extends F r (packBytes addr uns pad k t j val r).last := by
  induction k generalizing t j val r with
  | zero => exact Extends.refl _ _
  | succ k ih =>
    unfold packBytes
    refine Port.andThen_keeps (R := Extends F) Extends.trans
      (memRead_extends fun hp => hF t (by omega) (by omega) (State.portOk_lt hp)) fun b r' => ?_
    dsimp only
    split
    · exact (Extends.update rfl).trans (ih fun m h1 h2 => hF m (by omega) (by omega))
    · exact ih fun m h1 h2 => hF m (by omega) (by omega)

/-- Chunk preparation writes only W (R51). -/
theorem prep_hashOnly (off : Nat) (uns : Bool) (r : Run) : HashOnly r.st (prep off uns r).last.st := by
  unfold prep
  exact Port.andThen_keeps (R := fun x y => HashOnly x.st y.st) HashOnly.trans
    (packBytes_hashOnly ..) fun v r' => HashOnly.setW _ _

/-- Chunk preparation leaves H alone (R51). -/
theorem prep_h (off : Nat) (uns : Bool) (r : Run) : (prep off uns r).last.st.h = r.st.h := by
  unfold prep
  exact Port.andThen_keeps (R := fun x y => y.st.h = x.st.h) (fun h1 h2 => h2.trans h1)
    (packBytes_h ..) fun v r' => rfl

/-- Chunk preparation reads at most 32 bytes of the name from its offset (R29, R51). -/
theorem prep_extends {s : State} {off : Nat} {uns : Bool} {r : Run} (hr : HashOnly s r.st) :
    Extends (NameRead s fun k => off ≤ k ∧ k < off + min 32 (s.nameLen.toNat - off)) r
      (prep off uns r).last := by
  unfold prep
  refine Port.andThen_keeps (R := Extends _) Extends.trans ?_ fun v r' => Extends.update rfl
  refine packBytes_extends fun m h1 h2 h3 => ⟨off + m, ?_, ?_, h3⟩
  · rw [hr.nameLen] at h2
    omega
  · rw [hr.nameAddr, State.nameAddr, Nat.add_assoc]

/-- The Legacy byte loop only reads (R54). -/
theorem legacyBytes_readsOnly (addr : Nat) (uns : Bool) (k t : Nat) (r1 r2 : Word) (r : Run) :
    ReadsOnly r.st (legacyBytes addr uns k t r1 r2 r).last.st := by
  induction k generalizing t r1 r2 r with
  | zero => exact ReadsOnly.refl _
  | succ k ih =>
    exact Port.andThen_keeps (R := fun x y => ReadsOnly x.st y.st) ReadsOnly.trans
      (memRead_readsOnly _ r) fun b r' => ih ..

theorem legacyBytes_extends {F : Access → Prop} {addr : Nat} {uns : Bool} {k t : Nat} {r1 r2 : Word}
    {r : Run} (hF : ∀ m, t ≤ m → m < t + k → addr + m < 2 ^ 32 → F (.read (addr + m))) :
    Extends F r (legacyBytes addr uns k t r1 r2 r).last := by
  induction k generalizing t r1 r2 r with
  | zero => exact Extends.refl _ _
  | succ k ih =>
    exact Port.andThen_keeps (R := Extends F) Extends.trans
      (memRead_extends fun hp => hF t (by omega) (by omega) (State.portOk_lt hp)) fun b r' =>
        ih fun m h1 h2 => hF m (by omega) (by omega)

/-- The Legacy hash reads the bytes of the name (R29, R54). -/
theorem legacy_extends {s : State} {uns : Bool} {r : Run} (hr : HashOnly s r.st) :
    Extends (NameRead s fun k => k < s.nameLen.toNat) r (legacy uns r).last := by
  refine legacyBytes_extends fun m h1 h2 h3 => ⟨m, ?_, ?_, h3⟩
  · rw [hr.nameLen] at h2
    omega
  · rw [hr.nameAddr]; simp [State.nameAddr]

/-- A block transform writes only H. -/
def BlockOnly (block : State → State) : Prop := ∀ s, ∃ v, block s = s.setH v

theorem md4Block_blockOnly : BlockOnly State.md4Block := fun _ => ⟨_, rfl⟩
theorem teaBlock_blockOnly : BlockOnly State.teaBlock := fun _ => ⟨_, rfl⟩

/-- The chunk loop writes only H and W (R56). -/
theorem hashChunks_hashOnly {block : State → State} (hb : BlockOnly block) (stride : Nat) (uns : Bool)
    (count off : Nat) (r : Run) : HashOnly r.st (hashChunks stride block uns count off r).last.st := by
  induction count generalizing off r with
  | zero => exact HashOnly.refl _
  | succ count ih =>
    refine Port.andThen_keeps (R := fun x y => HashOnly x.st y.st) HashOnly.trans (prep_hashOnly ..)
      fun v r' => ?_
    obtain ⟨x, hx⟩ := hb r'.st
    refine HashOnly.trans ?_ (ih ..)
    rw [Run.update_st, hx]
    exact HashOnly.setH _ _

/-- The chunk loop reads only bytes of the name (R29, R56). -/
theorem hashChunks_extends {s : State} {block : State → State} (hb : BlockOnly block) {stride : Nat}
    {uns : Bool} {count off : Nat} {r : Run} (hr : HashOnly s r.st) :
    Extends (NameRead s fun k => k < s.nameLen.toNat) r (hashChunks stride block uns count off r).last := by
  induction count generalizing off r with
  | zero => exact Extends.refl _ _
  | succ count ih =>
    have h1 := (prep_extends (off := off) (uns := uns) hr).mono fun x =>
      NameRead.mono (Q := fun k => k < s.nameLen.toNat) fun k hk => by omega
    have hm := prep_hashOnly off uns r
    unfold hashChunks
    cases h : prep off uns r with
    | busErr info r1 => rw [h] at h1; exact h1
    | ok v r1 =>
      rw [h, Port.ok_last] at h1 hm
      obtain ⟨x, hx⟩ := hb r1.st
      refine h1.trans ((Extends.update (by rw [hx]; rfl)).trans (ih ?_))
      rw [Run.update_st, hx]
      exact (hr.trans hm).trans (HashOnly.setH _ _)

/-- Post-processing clears bit 0 and never gives the sentinel (R55). -/
theorem post_even (m : Word) : (post m).getLsbD 0 = false := by
  unfold post
  dsimp only
  split
  · rfl
  · simp only [BitVec.getLsbD_and]
    simp

theorem post_ne_sentinel (m : Word) : post m ≠ 0xFFFFFFFE#32 := by
  unfold post
  dsimp only
  split
  · decide
  · assumption

end Sys2Proof.Machine
end

