-- ==== Sys2Proof/Laws/Commands.lean ====
section
/-! SUPPORT. What a command can do, said once for all of them: `exec` is the state of the command's run, and
a run's body changes only what the frame `BodyFrame` allows. -/

namespace Sys2Proof.Machine

/-- `exec` always answers the state its run leaves (R91: every accepted command completes). -/
theorem exec_eq (i : Instr) (s : State) : exec i s = .next (engineRun i s).state := by
  cases i <;> rfl

theorem exec_next_iff {i : Instr} {s t : State} : exec i s = .next t ↔ t = (engineRun i s).state := by
  rw [exec_eq]
  exact ⟨fun h => by injection h with h; exact h.symm, fun h => by rw [h]⟩

theorem notsup_last (i : Instr) (r : Run) : (notsup i r).last = r.update (State.setHash 0#32 0#32) := rfl

theorem BodyFrame.setHash (s : State) (x y : Word) : BodyFrame s (s.setHash x y) := rfl


theorem hashName_bodyFrame (alg : Nat) (r : Run) : BodyFrame r.st (hashName alg r).last.st := by
  unfold hashName
  split
  · exact Port.finish_keeps (R := fun x y => BodyFrame x.st y.st) BodyFrame.trans
      (hashChunks_hashOnly teaBlock_blockOnly ..).bodyFrame fun _ _ => BodyFrame.setHash _ _ _
  · exact Port.finish_keeps (R := fun x y => BodyFrame x.st y.st) BodyFrame.trans
      (hashChunks_hashOnly md4Block_blockOnly ..).bodyFrame fun _ _ => BodyFrame.setHash _ _ _
  · exact Port.finish_keeps (R := fun x y => BodyFrame x.st y.st) BodyFrame.trans
      (legacyBytes_readsOnly ..).bodyFrame fun _ _ => BodyFrame.setHash _ _ _

/-- The body of a command other than SRST changes only memory, RESULT, the hash registers and the model's
bookkeeping (10_state.md R10, column "written by commands"). -/
theorem engineRun_bodyFrame {i : Instr} (hi : i ≠ .srst) (s : State) :
    BodyFrame s (engineRun i s).last.st := by
  cases i with
  | bset | bclr =>
    exact Port.finish_keeps (R := fun x y => BodyFrame x.st y.st) BodyFrame.trans (r := Run.start s)
      (modifyBit_memoryOnly ..).bodyFrame fun _ _ => BodyFrame.refl _
  | btst | btstc =>
    simp only [engineRun, runBtst, runBtstc]
    exact (testBit_resultOnly _ s.arg0.toNat (Run.start s)).bodyFrame
  | bfree =>
    exact Port.finish_keeps (R := fun x y => BodyFrame x.st y.st) BodyFrame.trans (r := Run.start s)
      (freeRange_memoryOnly ..).bodyFrame fun _ _ => BodyFrame.refl _
  | bfind =>
    exact (findClear_resultOnly (s.arg1.toNat - s.arg0.toNat) s.arg0.toNat (Run.start s)).bodyFrame
  | hash alg seeded =>
    unfold engineRun runHash
    dsimp only
    split
    · exact BodyFrame.trans (HashOnly.setH _ _).bodyFrame (hashName_bodyFrame ..)
    · exact BodyFrame.setHash _ _ _
  | hinit seeded => exact (HashOnly.setH _ _).bodyFrame
  | hprep alg =>
    unfold engineRun runHprep
    dsimp only
    split
    · exact Port.finish_keeps (R := fun x y => BodyFrame x.st y.st) BodyFrame.trans (r := Run.start s)
        (prep_hashOnly ..).bodyFrame fun _ _ => BodyFrame.refl _
    · exact BodyFrame.setHash _ _ _
  | hmd4 | htea => exact (HashOnly.setH _ _).bodyFrame
  | hfin alg =>
    unfold engineRun runHfin
    dsimp only
    split
    · rw [Ended.completed_last, Run.update_st]
      split <;> exact BodyFrame.setHash _ _ _
    · exact BodyFrame.setHash _ _ _
  | nop | clrst => exact BodyFrame.refl _
  | srst => exact absurd rfl hi

end Sys2Proof.Machine
end

