-- ==== Sys2Proof/Laws/PerInstr.lean ====
section
/-! SUPPORT. Statements made command by command: the encoding of each command fits its row of
spec/opcode_table.json (match and mask, spec/30_encoding.md R35). -/

namespace Sys2Proof.Laws

/-- The mask of a command's row: the bits of the word that the row fixes. -/
def tableMask : Instr → Word
  | .hash _ _ => 0xFFFFE0FF#32
  | .hinit _ => 0xFFFFEFFF#32
  | .hprep _ | .hfin _ => 0xFFFFF0FF#32
  | .bset | .bclr | .btst | .btstc | .bfree | .bfind => 0xFFFFFFFF#32
  | .hmd4 | .htea | .nop | .clrst | .srst => 0xFFFFFFFF#32

/-- The match of a command's row: the values of those bits. -/
def tableMatch : Instr → Word
  | .bset => 0x00000001#32
  | .bclr => 0x00000002#32
  | .btst => 0x00000003#32
  | .btstc => 0x00000004#32
  | .bfree => 0x00000005#32
  | .bfind => 0x00000006#32
  | .hash _ _ => 0x00000010#32
  | .hinit _ => 0x00000011#32
  | .hprep _ => 0x00000012#32
  | .hmd4 => 0x00000013#32
  | .htea => 0x00000014#32
  | .hfin _ => 0x00000015#32
  | .nop => 0x00000020#32
  | .clrst => 0x00000021#32
  | .srst => 0x00000022#32

/-- A well-formed command's word has the bits its row of the opcode table fixes. -/
def TableRow.Statement (i : Instr) : Prop :=
  i.wellFormed = true → encode i &&& tableMask i = tableMatch i

theorem TableRow.bset : TableRow.Statement .bset := fun _ => by decide
theorem TableRow.bclr : TableRow.Statement .bclr := fun _ => by decide
theorem TableRow.btst : TableRow.Statement .btst := fun _ => by decide
theorem TableRow.btstc : TableRow.Statement .btstc := fun _ => by decide
theorem TableRow.bfree : TableRow.Statement .bfree := fun _ => by decide
theorem TableRow.bfind : TableRow.Statement .bfind := fun _ => by decide
theorem TableRow.hinit (seeded : Bool) : TableRow.Statement (.hinit seeded) := by
  cases seeded <;> exact fun _ => by decide

/-- Every algorithm id the ALG field can hold. -/
theorem algFits_cases {P : Nat → Prop} (h : ∀ a : Fin 16, P a.val) (alg : Nat) (ha : algFits alg = true) :
    P alg :=
  h ⟨alg, of_decide_eq_true ha⟩

theorem TableRow.hash (alg : Nat) (seeded : Bool) : TableRow.Statement (.hash alg seeded) :=
  algFits_cases (P := fun a => encode (.hash a seeded) &&& 0xFFFFE0FF#32 = 0x00000010#32)
    (by cases seeded <;> decide) alg
theorem TableRow.hprep (alg : Nat) : TableRow.Statement (.hprep alg) :=
  algFits_cases (P := fun a => encode (.hprep a) &&& 0xFFFFF0FF#32 = 0x00000012#32) (by decide) alg
theorem TableRow.hmd4 : TableRow.Statement .hmd4 := fun _ => by decide
theorem TableRow.htea : TableRow.Statement .htea := fun _ => by decide
theorem TableRow.hfin (alg : Nat) : TableRow.Statement (.hfin alg) :=
  algFits_cases (P := fun a => encode (.hfin a) &&& 0xFFFFF0FF#32 = 0x00000015#32) (by decide) alg
theorem TableRow.nop : TableRow.Statement .nop := fun _ => by decide
theorem TableRow.clrst : TableRow.Statement .clrst := fun _ => by decide
theorem TableRow.srst : TableRow.Statement .srst := fun _ => by decide

end Sys2Proof.Laws
end

