-- ==== Sys2Proof/Laws/Step.lean ====
section
/-! SUPPORT. What the register port, the outside world and a step can do, said once each. -/

namespace Sys2Proof.Machine

/-- All that a read on the register port can do (R66, R88). -/
theorem portRead_cases (agent : Agent) (o : BitVec 8) (s : State) :
    (Reg.atOffset o = none ∧ s.portRead agent o = s.answer (.word agent 0#32)) ∨
    (∃ r, Reg.atOffset o = some r ∧ (s.isBusy && r.hiddenWhileBusy) = true ∧
      s.portRead agent o = s.drawn.answer (.word agent (Config.busyReadValue s.draws))) ∨
    (∃ r, Reg.atOffset o = some r ∧ (s.isBusy && r.hiddenWhileBusy) = false ∧
      s.portRead agent o = s.answer (.word agent (s.readReg r))) := by
  unfold State.portRead
  cases h : Reg.atOffset o with
  | none => exact .inl ⟨rfl, rfl⟩
  | some r =>
    cases hb : (s.isBusy && r.hiddenWhileBusy) with
    | true => exact .inr (.inl ⟨r, rfl, hb, by simp [hb]⟩)
    | false => exact .inr (.inr ⟨r, rfl, hb, by simp [hb]⟩)

/-- All that a write on the register port can do (R67, R89). -/
theorem portWrite_cases (o : BitVec 8) (v : Word) (s : State) :
    (s.isBusy = true ∧ o ≠ 0x04#8 ∧ s.portWrite o v = s.dropWrite) ∨
    ((s.isBusy = false ∨ o = 0x04#8) ∧
      ((Reg.atOffset o = none ∧ s.portWrite o v = s) ∨
       ∃ r, Reg.atOffset o = some r ∧ s.portWrite o v = s.writeReg v r)) := by
  by_cases hd : (s.isBusy && decide (o ≠ 0x04#8)) = true
  · have h := hd
    simp only [Bool.and_eq_true, decide_eq_true_eq] at h
    exact .inl ⟨h.1, h.2, by simp only [State.portWrite, if_pos hd]⟩
  · have h : s.isBusy = false ∨ o = 0x04#8 := by
      simpa [Classical.or_iff_not_imp_left] using hd
    refine .inr ⟨h, ?_⟩
    simp only [State.portWrite, if_neg hd]
    cases Reg.atOffset o with
    | none => exact .inl ⟨rfl, rfl⟩
    | some r => exact .inr ⟨r, rfl, rfl⟩

/-- A register-port access answers a next state exactly when it is an aligned 32-bit access (R68). -/
theorem hostRead_next_iff {agent : Agent} {width : Width} {o : BitVec 8} {s t : State} :
    hostRead agent width o s = .next t ↔ portServes width o = true ∧ s.portRead agent o = t := by
  unfold hostRead
  split <;> simp_all

theorem hostWrite_next_iff {agent : Agent} {width : Width} {o : BitVec 8} {v : Word} {s t : State} :
    hostWrite agent width o v s = .next t ↔ portServes width o = true ∧ s.portWrite o v = t := by
  unfold hostWrite
  split <;> simp_all

/-- An access of system memory goes through exactly when it meets neither model fault (R68, R90). -/
theorem memoryAccess_next_iff {agent : Agent} {addr : Word} {act : State → State} {s t : State} :
    s.memoryAccess agent addr act = .next t ↔
      Platform.inWindow s.platform addr.toNat = false ∧ s.hazard addr.toNat = false ∧ act s = t := by
  unfold State.memoryAccess
  split
  · simp_all
  · split <;> simp_all

theorem maintenance_next_iff {host : Nat} {addr : Word} {act : State → State} {s t : State} :
    s.maintenance host addr act = .next t ↔
      (s.hazard addr.toNat && s.hostUnclean host addr.toNat) = false ∧ act s = t := by
  unfold State.maintenance
  split <;> simp_all

/-- The engine's step on an accepted word always answers the state of the word's run (R91). -/
theorem engineStep_eq (c : Word) (s : State) : engineStep c s = .next (wordRun c s).state := by
  unfold engineStep wordRun
  cases decode c with
  | command i => exact exec_eq i s
  | illegal why => rfl

theorem engineTurn_eq (s : State) :
    engineTurn s = .next (match s.phase with | .idle => s | .busy c => (wordRun c s).state) := by
  unfold engineTurn
  cases s.phase with
  | idle => rfl
  | busy c => exact engineStep_eq c s

/-- Whose turn a step takes (R91). -/
theorem step_cases (s : State) :
    (s.pending = [] ∧ step s = engineTurn s) ∨
    (∃ rest, s.pending = .engine :: rest ∧ step s = engineTurn (s.withPending rest)) ∨
    (∃ e rest, s.pending = .external e :: rest ∧ step s = handle e (s.withPending rest)) ∨
    (∃ agent rest, s.pending = .wait agent :: rest ∧ s.phase = .idle ∧
      step s = .next ((s.withPending rest).answer (.word agent s.statusWord))) ∨
    (∃ agent rest c, s.pending = .wait agent :: rest ∧ s.phase = .busy c ∧ step s = engineStep c s) := by
  cases h : s.pending with
  | nil => exact .inl ⟨rfl, by simp only [step, h]⟩
  | cons turn rest =>
    cases turn with
    | engine => exact .inr (.inl ⟨rest, rfl, by simp only [step, h]⟩)
    | external e => exact .inr (.inr (.inl ⟨e, rest, rfl, by simp only [step, h]⟩))
    | wait agent =>
      cases hp : s.phase with
      | idle => exact .inr (.inr (.inr (.inl ⟨agent, rest, rfl, rfl, by simp only [step, h, hp]⟩)))
      | busy c => exact .inr (.inr (.inr (.inr ⟨agent, rest, c, rfl, rfl, by simp only [step, h, hp]⟩)))

/-! ### The hardware reset -/

/-- Replayed accesses change only memory and what a host's cached copy may be behind. -/
theorem replayAccess_memoryOnly (l : List Access) (s : State) : MemoryOnly s (l.foldl replayAccess s) := by
  induction l generalizing s with
  | nil => exact MemoryOnly.refl s
  | cons x l ih =>
    refine MemoryOnly.trans ?_ (ih (replayAccess s x))
    cases x with
    | read a => exact MemoryOnly.refl s
    | write a v => rfl

theorem replayAccess_mem (l : List Access) (s : State) :
    (l.foldl replayAccess s).mem = replayMemory s.mem l := by
  induction l generalizing s with
  | nil => rfl
  | cons x l ih =>
    rw [List.foldl_cons, ih]
    cases x <;> rfl

/-- Memory after a hardware reset during BUSY: the front of the command's accesses has been performed
(R85). -/
theorem hardReset_mem_busy {s : State} {c : Word} (h : s.phase = .busy c) :
    s.hardReset.mem =
      replayMemory s.mem ((wordRun c s).trace.take (Config.abortedAccesses s.draws)) := by
  simp only [State.hardReset, h, State.resetRegisters_mem, replayAccess_mem]

end Sys2Proof.Machine
end

