-- ==== Sys2Proof/Tests/Slice0.lean ====
section
/-! SUPPORT. Small tests, with expected values taken from spec/95_test_vectors.md and the examples of the
rules, and for every statement with hypotheses a state and operands that meet them. -/

namespace Sys2Proof.Tests

open Sys2Proof.Machine Sys2Proof.Claims

/-! ### Small states -/

/-- Read-write memory, read-only memory from 0x3000 to 0x3FFF, and the register window at 0xF0000000. -/
def demoPlatform : Platform where
  base := 0xF0000000#32
  memMap := [⟨0, 0x3000, true, true⟩, ⟨0x3000, 0x1000, true, false⟩, ⟨0x4000, 0xFFFFC000, true, true⟩]
  combine := .orLane
  coherent := true

/-- A buffer F5 FF at 0x1000 and the name "abc" at 0x2000. -/
def demo : State :=
  { State.reset with
    platform := demoPlatform
    mem := [(0x1000, 0xF5#8), (0x1001, 0xFF#8), (0x2000, 0x61#8), (0x2001, 0x62#8), (0x2002, 0x63#8)]
    bmBase := 0x1000#32, bmLen := 2#32, nameBase := 0x2000#32, nameLen := 3#32 }

/-- The same with the two bit operands. -/
def demoArgs (a0 a1 : Word) : State := { demo with arg0 := a0, arg1 := a1 }

/-- A buffer whose second byte lies at 2^32. -/
def edge (a0 a1 : Word) : State := { demoArgs a0 a1 with bmBase := 0xFFFFFFFF#32 }

/-- A buffer in the read-only memory. -/
def rom (a0 a1 : Word) : State := { demoArgs a0 a1 with bmBase := 0x3000#32 }

/-- A name whose third byte lies at 2^32. -/
def nameEdge : State := { demo with nameBase := 0xFFFFFFFE#32 }

/-- A name of `n` bytes with HPREP's offset `o`. -/
def named (n o : Word) : State := { demo with nameLen := n, nameOff := o }

/-- The engine in progress on a word. -/
def busy (c : Word) (turns : List Turn) : State := { demo with phase := .busy c, pending := turns }

/-- The engine Idle with turns to come. -/
def idle (turns : List Turn) : State := { demo with pending := turns }

/-- A platform whose master port is not coherent. -/
def loose (turns : List Turn) : State :=
  { idle turns with platform := { demoPlatform with coherent := false }, stale := [0x1000] }

/-! ### Well-formed terms (R33) -/

theorem test_wellFormed_hash : (Instr.hash 15 true).wellFormed = true := by decide
theorem test_illFormed_hash : (Instr.hash 16 false).wellFormed = false := by decide
theorem test_illFormed_hprep : (Instr.hprep 16).wellFormed = false := by decide
theorem test_illFormed_hfin : (Instr.hfin 99).wellFormed = false := by decide

/-! ### Decoding: words written out from R33 and R35 -/

theorem test_decode_bset : decode 0b00000000000000000000000000000001#32 = .command .bset := by decide
theorem test_decode_bclr : decode 0b00000000000000000000000000000010#32 = .command .bclr := by decide
theorem test_decode_btst : decode 0b00000000000000000000000000000011#32 = .command .btst := by decide
theorem test_decode_btstc : decode 0b00000000000000000000000000000100#32 = .command .btstc := by decide
theorem test_decode_bfree : decode 0b00000000000000000000000000000101#32 = .command .bfree := by decide
theorem test_decode_bfind : decode 0b00000000000000000000000000000110#32 = .command .bfind := by decide
theorem test_decode_hash :
    decode 0b00000000000000000001001000010000#32 = .command (.hash 2 true) := by decide
theorem test_decode_hinit : decode 0b00000000000000000001000000010001#32 = .command (.hinit true) := by decide
theorem test_decode_hprep : decode 0b00000000000000000000010100010010#32 = .command (.hprep 5) := by decide
theorem test_decode_hmd4 : decode 0b00000000000000000000000000010011#32 = .command .hmd4 := by decide
theorem test_decode_htea : decode 0b00000000000000000000000000010100#32 = .command .htea := by decide
theorem test_decode_hfin : decode 0b00000000000000000000100100010101#32 = .command (.hfin 9) := by decide
theorem test_decode_nop : decode 0b00000000000000000000000000100000#32 = .command .nop := by decide
theorem test_decode_clrst : decode 0b00000000000000000000000000100001#32 = .command .clrst := by decide
theorem test_decode_srst : decode 0b00000000000000000000000000100010#32 = .command .srst := by decide

/-- ILLEGAL words: reserved OPC values and nonzero reserved fields (R36). -/
theorem test_decode_illegal :
    [0x00000000#32, 0x00000007#32, 0x00000016#32, 0x00000023#32, 0x000000FF#32].map decode =
      List.replicate 5 (.illegal .reservedOpcode) ∧
    [0x00000101#32, 0x80000020#32, 0x00002010#32, 0x00000111#32, 0x00001112#32, 0x00001015#32].map decode =
      List.replicate 6 (.illegal .nonzeroReserved) := by decide

theorem test_decodeTableWord : decodeTableWord 32 0x1F10 = some (.hash 15 true) := by decide

/-- The forms of R38, with names, hexadecimal numbers, small letters and comments. -/
theorem test_assemble :
    assembleText "hash half_md4, seed ; P2".toList = some (.hash 1 true) ∧
    assembleText "HPREP 0x0F".toList = some (.hprep 15) ∧ assembleText "HFIN 16".toList = none ∧
    assembleText "HINIT seed".toList = some (.hinit true) ∧ assembleText " bset ".toList = some .bset := by
  decide

/-! ### Commands -/

/-- R40, the byte F5 with bit 1 set. -/
theorem test_bset : Memory.read (after .bset (demoArgs 1 0)).mem 0x1000 = 0xF7#8 := by decide
/-- R41, `a0 = 9`: the byte FF becomes FD. -/
theorem test_bclr : Memory.read (after .bclr (demoArgs 9 0)).mem 0x1001 = 0xFD#8 := by decide
theorem test_btst : (after .btst (demoArgs 0 0)).result = 1#32 := by decide
/-- R42: bit 8L is out of bounds. -/
theorem test_btst_bounds : statusBits (after .btst (demoArgs 16 0)) = 0x00000302#32 := by decide
theorem test_btstc : (after .btstc (demoArgs 3 0)).result = 1#32 := by decide
/-- P1 step 9: bits 3 to 9 of F5 FF. -/
theorem test_bfree : (after .bfree (demoArgs 3 7)).mem.take 2 = [(0x1000, 0x05#8), (0x1001, 0xFC#8)] := by
  decide
/-- A bus error after the first byte (R75). -/
theorem test_bfree_busError :
    statusBits (after .bfree (edge 4 8)) = 0x00000402#32 ∧ (after .bfree (edge 4 8)).errinfo = 0#32 := by
  decide
/-- P1 step 4: bit 1 of F5 is the first clear bit. -/
theorem test_bfind : (after .bfind (demoArgs 0 8)).result = 1#32 := by decide
theorem test_bfind_bounds : (after .bfind (demoArgs 8 32)).errinfo = 16#32 := by decide

/-- P2 step 2, the hash of "abc" under Half-MD4. -/
theorem test_hash_md4 :
    (after (.hash 1 false) demo).major = 0xD196A868#32 ∧
    (after (.hash 1 false) demo).minor = 0xC420EB28#32 := by decide
/-- P2 step 6, Legacy with a seed. -/
theorem test_hash_legacy : (after (.hash 0 true) demo).major = 0x75AFD992#32 := by decide
theorem test_hinit : (after (.hinit true) { demo with seed := #v[1#32, 2#32, 3#32, 4#32] }).h =
    #v[1#32, 2#32, 3#32, 4#32] := by decide
/-- R58's example. -/
theorem test_hprep : (after (.hprep 1) demo).w =
    #v[0x03616263#32, 0x03030303#32, 0x03030303#32, 0x03030303#32, 0x03030303#32, 0x03030303#32,
      0x03030303#32, 0x03030303#32] := by decide
/-- NAME_OFF = NAME_LEN (R58). -/
theorem test_hprep_notsup : statusBits (after (.hprep 2) (named 3 3)) = 0x00000202#32 := by decide
/-- R59's example, T-MD4-1. -/
theorem test_hmd4 : (after .hmd4 (after (.hprep 1) demo)).h =
    #v[0x3C253978#32, 0xD196A869#32, 0xC420EB28#32, 0xD1FEFC5A#32] := by decide
/-- P2 step 5: one TEA block of the chunk of "abc" from the seed 1, 2, 3, 4. -/
theorem test_htea : (after .htea { after (.hprep 5) demo with h := #v[1#32, 2#32, 3#32, 4#32] }).h =
    #v[0xA151145F#32, 0x2044716B#32, 3#32, 4#32] := by decide
/-- R61's example. -/
theorem test_hfin :
    (after (.hfin 2) { demo with
      h := #v[0x11111111#32, 0x22222223#32, 0x33333333#32, 0x44444444#32] }).major = 0x11111110#32 := by
  decide
theorem test_hfin_legacy : (after (.hfin 3) demo).errinfo = 0x00000315#32 := by decide
/-- T-SYS-1. -/
theorem test_nop : statusBits (after .nop { demo with done := true, err := .bounds, errinfo := 16#32 }) =
    0x00000002#32 := by decide
/-- T-SYS-2: CLRST lowers WHB when it is accepted. -/
theorem test_clrst : ({ demo with done := true, whb := true }.accept 0x00000021#32).whb = false := by decide
/-- T-SYS-3. -/
theorem test_srst : visible (after .srst { demo with irqen := true, major := 5#32 }) 0x008 = 2#32 ∧
    (after .srst demo).h[0] = 0x67452301#32 ∧ (after .srst demo).mem = demo.mem := by decide

/-- R32, R31 item 3: a byte the engine changed is fixed for the host that invalidated it, and for no other. -/
theorem test_invalidate_own :
    ((loose []).invalidateByte 1 0x1000).hostBlind 1 0x1000 = false ∧
    ((loose []).invalidateByte 1 0x1000).hostBlind 2 0x1000 = true := by decide
/-- R32: another host's cleaning does not show the engine a byte; the writer's own does. -/
theorem test_clean_own :
    (((loose []).hostStore 1 0x1000 9#8).cleanByte 2 0x1000).engineBlind 0x1000 = true ∧
    (((loose []).hostStore 1 0x1000 9#8).cleanByte 1 0x1000).readValue 0x1000 = 9#8 := by decide

/-! ### Hypotheses met -/

theorem portOk_low {s : State} (h : s.platform = demoPlatform) {a : Nat} (ha : a < 0x3000) (k : AccessKind) :
    s.portOk a k = true := by
  have h1 : a < 2 ^ Config.addrWidth := by
    have : 2 ^ Config.addrWidth = 4294967296 := by decide
    omega
  have h2 : Platform.inWindow s.platform a = false := by
    rw [h]
    refine decide_eq_false fun h => ?_
    have : demoPlatform.base.toNat = 0xF0000000 := by decide
    omega
  have h3 : s.platform.memMap.any (fun g => Region.grants g a k) = true := by
    rw [h]
    cases k <;> simp [demoPlatform, Region.grants, ha]
  simp only [State.portOk, Platform.memOk, h1, h2, h3]
  rfl

theorem accessible_low {s : State} (h : s.platform = demoPlatform) {a : Nat} (ha : a < 0x3000) :
    Accessible s a :=
  ⟨⟨portOk_low h ha _, by simp only [State.engineBlind, h]; rfl⟩, portOk_low h ha _⟩

theorem readable_low {s : State} (h : s.platform = demoPlatform) {a : Nat} (ha : a < 0x3000) :
    Readable s a := (accessible_low h ha).1

theorem witness_DecodeOfEncode : (Instr.hash 15 true).wellFormed = true ∧ (Instr.hprep 0).wellFormed = true := by
  decide

theorem witness_EncodeOfDecode : decode 0x00001210#32 = .command (.hash 2 true) := by decide

theorem malformed_demo :
    Malformed 0x00000000#32 ∧ Malformed 0x00000101#32 ∧ Malformed 0x00001112#32 ∧ Malformed 0x00002010#32 ∧
    Malformed 0x00000111#32 := by
  unfold Malformed
  refine ⟨?_, ?_, ?_, ?_, ?_⟩ <;> decide

theorem witness_IllegalWords :
    Malformed 0x00000101#32 ∧ (busy 0x00000101#32 []).phase = .busy 0x00000101#32 ∧
    (busy 0x00000101#32 []).pending = [] ∧ (idle [writes (.host 0) 0x0C#8 0x101#32]).phase = .idle ∧
    (idle [writes (.host 0) 0x0C#8 0x101#32]).pending = [writes (.host 0) 0x0C#8 0x101#32] ∧
    6 ≤ 6 ∧ 15 ≤ 15 := ⟨malformed_demo.2.1, rfl, rfl, rfl, rfl, by decide, by decide⟩

theorem witness_StepRunsDecodedCommand :
    decode 0x00000003#32 = .command .btst ∧ (busy 3#32 []).phase = .busy 3#32 ∧ (busy 3#32 []).pending = [] ∧
    (busy 3#32 [.engine]).pending = .engine :: [] ∧
    (busy 3#32 [.wait (.host 0)]).pending = .wait (.host 0) :: [] := by decide

theorem witness_IdleMachineStays : demo.pending = [] ∧ demo.phase = .idle := by decide

theorem witness_AcceptedCommandsComplete :
    (busy 0xFF#32 []).phase = .busy 0xFF#32 ∧ (busy 0xFF#32 []).pending = [] ∧
    (busy 0xFF#32 [.wait (.host 0)]).pending = .wait (.host 0) :: [] := by decide

/-- Bit 16 is the first out of range, bit 15 the last in range; byte 1 of `edge` is not readable, byte 0 of
`rom` not writable. -/
theorem witness_BsetSetsOneBit :
    ¬ InRange (demoArgs 16 0) 16 ∧
    (InRange (edge 8 0) 8 ∧ (edge 8 0).portOk (0xFFFFFFFF + 1) .read = false) ∧
    (InRange (rom 0 0) 0 ∧ (rom 0 0).portOk 0x3000 .read = true ∧ (rom 0 0).portOk 0x3000 .write = false) ∧
    (InRange (demoArgs 15 0) 15 ∧ (demoArgs 15 0).portOk 0x1001 .read = true ∧
      (demoArgs 15 0).portOk 0x1001 .write = true ∧ Memory.wf (demoArgs 15 0).mem = true) := by
  unfold InRange
  decide

theorem witness_BclrClearsOneBit :
    ¬ InRange (demoArgs 16 0) 16 ∧
    (InRange (edge 15 0) 15 ∧ (edge 15 0).portOk (0xFFFFFFFF + 1) .read = false) ∧
    (InRange (rom 15 0) 15 ∧ (rom 15 0).portOk 0x3001 .read = true ∧ (rom 15 0).portOk 0x3001 .write = false) ∧
    (InRange (demoArgs 0 0) 0 ∧ (demoArgs 0 0).portOk 0x1000 .read = true ∧
      (demoArgs 0 0).portOk 0x1000 .write = true ∧ Memory.wf (demoArgs 0 0).mem = true) := by
  unfold InRange
  decide

theorem witness_BtstTestsForSet :
    ¬ InRange (demoArgs 16 0) 16 ∧
    (InRange (edge 8 0) 8 ∧ (edge 8 0).portOk (0xFFFFFFFF + 1) .read = false) ∧
    (InRange (demoArgs 15 0) 15 ∧ (demoArgs 15 0).portOk 0x1001 .read = true) := by
  unfold InRange
  decide

theorem witness_BtstcTestsForClear :
    ¬ InRange (demoArgs 0xFFFFFFFF 0) 0xFFFFFFFF ∧
    (InRange (edge 15 0) 15 ∧ (edge 15 0).portOk (0xFFFFFFFF + 1) .read = false) ∧
    (InRange (demoArgs 0 0) 0 ∧ (demoArgs 0 0).portOk 0x1000 .read = true) := by
  unfold InRange
  decide

theorem witness_BfreeClearsExactlyTheRange :
    Memory.wf (demoArgs 3 13).mem = true ∧
    ∀ i, Freed (demoArgs 3 13) i → InRange (demoArgs 3 13) i → FreeReady (demoArgs 3 13) i := by
  refine ⟨by decide, fun i _ hi => ?_⟩
  have h : (demoArgs 3 13).bmBase.toNat + i / 8 < 0x3000 := by
    have : i / 8 < 2 := hi
    have : (demoArgs 3 13).bmBase.toNat = 0x1000 := by decide
    omega
  exact ⟨portOk_low rfl h _, .inr (readable_low rfl h)⟩

theorem witness_BfreeWithoutAccess :
    (demoArgs 3 0).arg1.toNat = 0 ∧ ¬ InRange (demoArgs 16 9) (demoArgs 16 9).arg0.toNat := by
  unfold InRange
  decide

/-- A range that enters the unreachable byte at its bit 8 after part of byte 0, and one that starts inside
that byte. -/
theorem witness_BfreeStopsAtBusError :
    (Memory.wf (edge 4 8).mem = true ∧ Freed (edge 4 8) 8 ∧ InRange (edge 4 8) 8 ∧
      (∀ j, Freed (edge 4 8) j → j < 8 → FreeReady (edge 4 8) j) ∧ FreeFails (edge 4 8) 8) ∧
    (Freed (edge 9 1) 9 ∧ InRange (edge 9 1) 9 ∧
      (∀ j, Freed (edge 9 1) j → j < 9 → FreeReady (edge 9 1) j) ∧ FreeFails (edge 9 1) 9) := by
  refine ⟨⟨by decide, by unfold Freed; decide, by unfold InRange; decide, fun j _ hj => ?_, .inl (by decide)⟩,
    ⟨by unfold Freed; decide, by unfold InRange; decide, fun j h hj => ?_, .inl (by decide)⟩⟩
  · have h : j / 8 = 0 := by omega
    simp only [FreeReady, Readable, h]
    exact ⟨by decide, .inr (by decide)⟩
  · have : (edge 9 1).arg0.toNat = 9 := by decide
    have := h.1
    omega

/-- Bit 1 of F5 FF is the first clear one; bits 8 to 15 are set. -/
theorem witness_BfindFindsFirstClear :
    (∀ j, 0 ≤ j → j < 1 → InRange (demoArgs 0 16) j ∧ Readable (demoArgs 0 16) (0x1000 + j / 8) ∧
      bufBit (demoArgs 0 16) j = true) ∧
    (InRange (demoArgs 0 16) 1 ∧ Readable (demoArgs 0 16) 0x1000 ∧ bufBit (demoArgs 0 16) 1 = false) ∧
    (∀ j, 8 ≤ j → j < 16 → InRange (demoArgs 8 16) j ∧ Readable (demoArgs 8 16) (0x1000 + j / 8) ∧
      bufBit (demoArgs 8 16) j = true) ∧
    (¬ InRange (demoArgs 8 17) 16 ∧ (demoArgs 8 17).arg0.toNat < (demoArgs 8 17).arg1.toNat ∧
      8 * (demoArgs 8 17).bmLen.toNat < (demoArgs 8 17).arg1.toNat) ∧
    (InRange (edge 8 9) 8 ∧ (edge 8 9).portOk (0xFFFFFFFF + 1) .read = false) ∧
    (demoArgs 5 5).arg1.toNat ≤ (demoArgs 5 5).arg0.toNat := by
  unfold InRange Readable
  refine ⟨fun j h1 h2 => ?_, by decide, fun j h1 h2 => ?_, by decide, by decide, by decide⟩
  · interval_cases j; decide
  · interval_cases j <;> decide

theorem witness_BfindByBytesAgrees : ∀ a, demo.engineBlind a = false := fun _ => rfl

theorem witness_SetThenTestGivesOne :
    Memory.wf (demoArgs 15 0).mem = true ∧ InRange (demoArgs 15 0) (demoArgs 15 0).arg0.toNat ∧
    Accessible (demoArgs 15 0) ((demoArgs 15 0).bmBase.toNat + (demoArgs 15 0).arg0.toNat / 8) := by
  unfold InRange Accessible Readable
  decide

theorem witness_SetAndClearIdempotent :
    Memory.wf (demoArgs 15 0).mem = true ∧ (∀ a, (demoArgs 15 0).engineBlind a = false) ∧
    exec .bset (demoArgs 15 0) = .next (after .bset (demoArgs 15 0)) ∧
    exec .bset (after .bset (demoArgs 15 0)) = .next (after .bset (after .bset (demoArgs 15 0))) :=
  ⟨by decide, fun _ => rfl, rfl, rfl⟩

/-- Refused at a length of 0 and of 256, at an id of 6, at NAME_OFF = NAME_LEN; done at the last byte of a
name of 255 bytes and ended by a bus error at the third byte. -/
theorem witness_HprepPacksChunk :
    ((named 0 0).nameLen.toNat < 1 ∧ 255 < (named 256 0).nameLen.toNat ∧ 5 < 6 ∧
      (named 3 3).nameLen.toNat ≤ (named 3 3).nameOff.toNat) ∧
    (1 ≤ (named 255 254).nameLen.toNat ∧ (named 255 254).nameLen.toNat ≤ 255 ∧
      (named 255 254).nameOff.toNat < (named 255 254).nameLen.toNat ∧
      ∀ k, k < min 32 (255 - 254) → Readable (named 255 254) (0x2000 + 254 + k)) ∧
    ((∀ k, k < 2 → Readable nameEdge (0xFFFFFFFE + 0 + k)) ∧
      nameEdge.portOk (nameEdge.nameBase.toNat + nameEdge.nameOff.toNat + 2) .read = false) := by
  refine ⟨by decide, ⟨by decide, by decide, by decide, fun k hk => readable_low rfl (by omega)⟩,
    ⟨fun k hk => ?_, by decide⟩⟩
  unfold Readable
  interval_cases k <;> decide

theorem witness_PackCombineAgreeUnsigned :
    1 ≤ demo.nameLen.toNat - 2 ∧
    ∀ k, k < min 32 (demo.nameLen.toNat - 2) → Readable demo (demo.nameBase.toNat + 2 + k) := by
  refine ⟨by decide, fun k hk => readable_low rfl ?_⟩
  have : demo.nameBase.toNat = 0x2000 := by decide
  omega

theorem witness_HfinSelectsResult : 15 < 16 ∧ 5 < 15 ∧ 3 % 3 = 0 ∧ (5 = 2 ∨ 5 = 5) ∧ (4 = 1 ∨ 4 = 4) := by decide

theorem witness_HashFastFailure :
    (named 0 0).nameLen.toNat < 1 ∧ 255 < (named 256 0).nameLen.toNat ∧ 5 < 6 ∧ 15 < 16 := by decide

/-- Every byte of a name of `n` bytes at 0x2000 is readable. -/
theorem named_readable {n o : Word} (hn : n.toNat ≤ 255) :
    ∀ k, k < (named n o).nameLen.toNat → Readable (named n o) ((named n o).nameBase.toNat + k) := by
  intro k hk
  refine readable_low rfl ?_
  have : (named n o).nameBase.toNat = 0x2000 := rfl
  have : (named n o).nameLen.toNat = n.toNat := rfl
  omega

theorem witness_HashOfReadableName :
    (1 ≤ (named 1 0).nameLen.toNat ∧ (named 255 0).nameLen.toNat ≤ 255) ∧
    (∀ k, k < (named 1 0).nameLen.toNat → Readable (named 1 0) ((named 1 0).nameBase.toNat + k)) ∧
    (∀ k, k < (named 255 0).nameLen.toNat → Readable (named 255 0) ((named 255 0).nameBase.toNat + k)) :=
  ⟨by decide, named_readable (by decide), named_readable (by decide)⟩

theorem witness_HashStopsAtBusError :
    (1 ≤ nameEdge.nameLen.toNat ∧ nameEdge.nameLen.toNat ≤ 255 ∧ 2 < nameEdge.nameLen.toNat) ∧
    (∀ k, k < 2 → Readable nameEdge (0xFFFFFFFE + k)) ∧
    nameEdge.portOk (nameEdge.nameBase.toNat + 2) .read = false := by
  refine ⟨by decide, fun k hk => ?_, by decide⟩
  unfold Readable
  interval_cases k <;> decide

theorem witness_PipelineEqualsHash :
    (1 ≤ (named 33 0).nameLen.toNat ∧ (named 33 0).nameLen.toNat ≤ 255 ∧ (4 = 1 ∨ 4 = 4) ∧ (2 = 2 ∨ 2 = 5)) ∧
    (∀ k, k < (named 33 0).nameLen.toNat → Readable (named 33 0) ((named 33 0).nameBase.toNat + k)) :=
  ⟨by decide, named_readable (by decide)⟩

theorem witness_SignedUnsignedAgree :
    (1 ≤ demo.nameLen.toNat ∧ demo.nameLen.toNat ≤ 255) ∧
    ∀ k, k < demo.nameLen.toNat →
      demo.engineBlind (demo.nameBase.toNat + k) = false ∧ (nameByte demo k).toNat < 0x80 := by
  refine ⟨by decide, fun k hk => ?_⟩
  have : demo.nameLen.toNat = 3 := by decide
  have : k < 3 := by omega
  unfold nameByte
  interval_cases k <;> decide

/-- Two states with the same name that differ in the rest of the hash unit. -/
theorem witness_HashDependsOnNameAndSeed :
    let s' := { demo with major := 6#32, h := #v[0#32, 0#32, 0#32, 0#32] }
    (1 ≤ demo.nameLen.toNat ∧ demo.nameLen.toNat ≤ 255 ∧ s'.nameLen = demo.nameLen ∧
      s'.platform.combine = demo.platform.combine ∧ s'.seed = demo.seed) ∧
    ∀ k, k < demo.nameLen.toNat → Readable demo (demo.nameBase.toNat + k) ∧
      Readable s' (s'.nameBase.toNat + k) ∧ nameByte s' k = nameByte demo k := by
  refine ⟨by decide, fun k hk => ?_⟩
  have h1 : demo.nameLen.toNat = 3 := by decide
  have h2 : demo.nameBase.toNat + k < 0x3000 := by
    have : demo.nameBase.toNat = 0x2000 := by decide
    omega
  exact ⟨readable_low rfl h2, readable_low rfl h2, rfl⟩

theorem witness_LegacyIgnoresSeed :
    (1 ≤ (named 255 0).nameLen.toNat ∧ (named 255 0).nameLen.toNat ≤ 255) ∧
    (∀ k, k < (named 255 0).nameLen.toNat → Readable (named 255 0) ((named 255 0).nameBase.toNat + k)) :=
  ⟨by decide, named_readable (by decide)⟩

theorem witness_ClrstClearsWhbAtAcceptance :
    ((idle [writes (.host 0) 0x0C#8 0x21#32]).phase = .idle ∧
      (idle [writes (.host 0) 0x0C#8 0x21#32]).pending = [writes (.host 0) 0x0C#8 0x21#32]) ∧
    ((busy 0x21#32 [writes (.host 0) 0x10#8 7#32]).phase = .busy 0x21#32 ∧ (0x10#8).toNat % 4 = 0 ∧
      0x10#8 ≠ 0x04#8 ∧
      (busy 0x21#32 [writes (.host 0) 0x10#8 7#32]).pending = [writes (.host 0) 0x10#8 7#32]) := by
  decide

theorem witness_SrstResetsRegisters :
    (busy 5#32 [writes (.host 0) 0x0C#8 0x22#32]).phase = .busy 5#32 ∧
    (busy 5#32 [writes (.host 0) 0x0C#8 0x22#32]).pending = writes (.host 0) 0x0C#8 0x22#32 :: [] := ⟨rfl, rfl⟩

/-- One run of each kind of end: no error, an error, and SRST. -/
theorem witness_CompletionFlags :
    exec .bfind (demoArgs 0 16) = .next (after .bfind (demoArgs 0 16)) ∧
    exec .btst (demoArgs 16 0) = .next (after .btst (demoArgs 16 0)) ∧
    exec .srst demo = .next (after .srst demo) := ⟨rfl, rfl, rfl⟩

theorem witness_CommandsWriteOnlyTheirRegisters :
    exec .bset (demoArgs 3 0) = .next (after .bset (demoArgs 3 0)) ∧
    exec (.hash 1 false) demo = .next (after (.hash 1 false) demo) := ⟨rfl, rfl⟩

theorem witness_ErrorsLeaveResult :
    exec .btst (demoArgs 16 0) = .next (after .btst (demoArgs 16 0)) ∧
    (after .btst (demoArgs 16 0)).err ≠ .noError := ⟨rfl, by decide⟩

theorem witness_AccessesStayInFootprint :
    Access.write 0x1000 0xFD#8 ∈ (engineRun .bset (demoArgs 3 0)).trace := by decide

theorem witness_MemoryOutsideFootprintKept :
    Memory.wf (demoArgs 3 0).mem = true ∧ exec .bset (demoArgs 3 0) = .next (after .bset (demoArgs 3 0)) ∧
    ¬ Touches (demoArgs 3 0) 0x1001 .bset := by
  refine ⟨by decide, rfl, ?_⟩
  unfold Touches
  decide

theorem witness_MasterPortAccess :
    (edge 0 0).portOk (2 ^ 32) .read = false ∧ Readable demo 0x1000 ∧ demo.portOk 0x3000 .write = false ∧
    demo.portOk 0xF00000FF .write = false ∧ demo.portOk 0x1000 .write = true ∧
    Memory.wf demo.mem = true := by
  unfold Readable
  decide

theorem witness_EngineSeesCleanedWrite :
    let s := loose [.external (.memWrite (.host 1) 0x1000#32 9#8), .external (.clean 1 0x1000#32)]
    s.phase = .idle ∧ Memory.wf s.mem = true ∧ Platform.inWindow s.platform (0x1000#32).toNat = false ∧
    (∀ m, m ≠ 1 → s.hostUnclean m (0x1000#32).toNat = false) ∧
    s.pending = [.external (.memWrite (.host 1) 0x1000#32 9#8), .external (.clean 1 0x1000#32)] :=
  ⟨rfl, by decide, by decide, fun _ _ => rfl, rfl⟩

theorem witness_HostSeesEngineWrite :
    let s := loose [.external (.invalidate 1 0x1000#32), .external (.memRead (.host 1) 0x1000#32)]
    s.phase = .idle ∧ s.engineBlind (0x1000#32).toNat = false ∧ s.hostBlind 1 (0x1000#32).toNat = true ∧
    Platform.inWindow s.platform (0x1000#32).toNat = false ∧
    s.pending = [.external (.invalidate 1 0x1000#32), .external (.memRead (.host 1) 0x1000#32)] := by decide

/-- Host 1 has not cleaned its copy and host 3 has not seen the byte change; host 2 maintains it. -/
theorem witness_MaintenanceIsEachHostsOwn :
    let s := { loose [.external (.clean 2 0x1000#32)] with unclean := [⟨1, 0x1000⟩] }
    let s' := { loose [.external (.invalidate 2 0x1000#32)] with unclean := [⟨2, 0x1000⟩] }
    (s.phase = .idle ∧ 2 ≠ 1 ∧ s.pending = [.external (.clean 2 0x1000#32)] ∧
      s.hostUnclean 1 (0x1000#32).toNat = true ∧ s.hostBlind 1 (0x1000#32).toNat = true) ∧
    (s'.phase = .idle ∧ 2 ≠ 3 ∧ s'.pending = [.external (.invalidate 2 0x1000#32)] ∧
      s'.hostUnclean 2 (0x1000#32).toNat = true ∧ s'.hostBlind 3 (0x1000#32).toNat = true) := by decide

theorem witness_CmdWriteAccepted :
    (idle [writes (.host 0) 0x0C#8 0x21#32]).phase = .idle ∧
    (idle [writes (.host 0) 0x0C#8 0x21#32]).pending = writes (.host 0) 0x0C#8 0x21#32 :: [] := by decide

theorem witness_BusyWritesDropped :
    ((busy 3#32 [writes (.host 0) 0xFC#8 7#32]).phase = .busy 3#32 ∧ (0xFC#8).toNat % 4 = 0 ∧
      0xFC#8 ≠ 0x04#8 ∧ (busy 3#32 [writes (.host 0) 0xFC#8 7#32]).pending = [writes (.host 0) 0xFC#8 7#32]) ∧
    ((0x04#8).toNat % 4 = 0 ∧
      (busy 3#32 [writes (.host 0) 0x04#8 3#32]).pending = [writes (.host 0) 0x04#8 3#32]) := by decide

theorem witness_CtrlWrite :
    (idle [writes (.host 0) 0x04#8 3#32]).phase = .idle ∧
    (idle [writes (.host 0) 0x04#8 3#32]).pending = writes (.host 0) 0x04#8 3#32 :: [] := by decide

theorem witness_IdleReads :
    (idle [reads (.host 0) 0xFC#8]).phase = .idle ∧ (0xFC#8).toNat % 4 = 0 ∧
    (idle [reads (.host 0) 0xFC#8]).pending = reads (.host 0) 0xFC#8 :: [] := by decide

theorem witness_BusyReads :
    (busy 3#32 [reads (.host 0) 0x08#8]).phase = .busy 3#32 ∧ (0x08#8).toNat % 4 = 0 ∧
    (busy 3#32 [reads (.host 0) 0x08#8]).pending = reads (.host 0) 0x08#8 :: [] ∧
    (0x08#8).toNat ∈ [0x000, 0x004, 0x008] := by decide

theorem witness_RwRegistersKeepWrites :
    (idle [writes (.host 0) 0x7C#8 300#32]).phase = .idle ∧ (0x7C#8).toNat ∈ rwOffsets ∧
    (idle [writes (.host 0) 0x7C#8 300#32]).pending = writes (.host 0) 0x7C#8 300#32 :: [] := by decide

theorem witness_ReadOnlyAndReservedWritesIgnored :
    (0x88#8).toNat % 4 = 0 ∧ (0x88#8).toNat ∉ rwOffsets ∧ (0x88#8).toNat ≠ 0x004 ∧ (0x88#8).toNat ≠ 0x00C ∧
    (idle [writes (.host 0) 0x88#8 5#32]).phase = .idle ∧
    (idle [writes (.host 0) 0x88#8 5#32]).pending = writes (.host 0) 0x88#8 5#32 :: [] := by decide

theorem witness_MisshapenAccessFaults :
    (Width.bits16 ≠ .bits32 ∨ (0x10#8).toNat % 4 ≠ 0) ∧ (Width.bits32 ≠ .bits32 ∨ (0xFF#8).toNat % 4 ≠ 0) ∧
    (idle [.external (.regRead (.host 0) .bits16 0x10#8)]).pending =
      .external (.regRead (.host 0) .bits16 0x10#8) :: [] ∧
    (idle [.external (.regWrite (.host 0) .bits32 0xFF#8 1#32)]).pending =
      .external (.regWrite (.host 0) .bits32 0xFF#8 1#32) :: [] := by decide

theorem witness_FootprintAccessFaults :
    let s := busy 3#32 [.external (.memRead (.dma 2) 0x1000#32)]
    (s.pending = [.external (.memRead (.dma 2) 0x1000#32)] ∧ s.phase = .busy 3#32 ∧
      decode 3#32 = .command .btst ∧ Touches s (0x1000#32).toNat .btst ∧
      Platform.inWindow s.platform (0x1000#32).toNat = false) ∧
    ((0xF0000000#32).toNat = s.platform.base.toNat + (0x00#8).toNat ∧
      (0xF00000FF#32).toNat = s.platform.base.toNat + (0xFF#8).toNat) := by
  unfold Touches
  decide

theorem witness_InterruptLevel :
    exec .nop { demo with irqen := true } = .next (after .nop { demo with irqen := true }) ∧
    (3#32).getLsbD 1 = true ∧ (0#32).getLsbD 0 = false := ⟨rfl, by decide, by decide⟩

theorem witness_HardwareReset :
    (idle [.external .hardReset]).pending = .external .hardReset :: [] ∧
    (idle [.external .hardReset]).phase = .idle ∧
    (busy 5#32 [.external .hardReset]).pending = .external .hardReset :: [] ∧
    (busy 5#32 [.external .hardReset]).phase = .busy 5#32 ∧ exec .srst demo = .next (after .srst demo) :=
  ⟨rfl, rfl, rfl, rfl, rfl⟩

theorem witness_InvariantKept :
    Inv (busy 3#32 []) ∧ step (busy 3#32 []) = .next (after .btst (busy 3#32 [])) :=
  ⟨⟨by decide, by decide, by decide, by decide, by decide, by decide, by decide, by decide, by decide,
    by decide⟩, rfl⟩

theorem witness_PlatformNeverChanges :
    step (idle [.external .hardReset]) = .next (idle [.external .hardReset] |>.withPending [] |>.hardReset) :=
  rfl

theorem witness_SetbitMacroRuns :
    (idle ((macroSetbit 3#32).map (HostLine.turn (.host 0)))).phase = .idle ∧
    (idle ((macroSetbit 3#32).map (HostLine.turn (.host 0)))).pending =
      (macroSetbit 3#32).map (HostLine.turn (.host 0)) := ⟨rfl, rfl⟩

end Sys2Proof.Tests
end

section
/-! PROOFS. The scope of the model (spec/00_scope.md): the platform's parameters are the same after every
step (R6), and a machine with nothing to do stays as it is (R9, R91). -/

namespace Sys2Proof.Machine

/-! ### The engine keeps the platform -/

theorem BodyFrame.platform {s t : State} (h : BodyFrame s t) : t.platform = s.platform := by rw [h]

/-- Ending a command, normally or with an error, keeps the platform its run had (R72, R73). -/
@[simp] theorem Ended.state_platform (e : Ended) : e.state.platform = e.last.st.platform := by
  cases e <;> rfl

/-- SRST is the one command outside `BodyFrame`: it resets registers, and no parameter is one (R65). -/
@[simp] theorem engineRun_platform (i : Instr) (s : State) :
    (engineRun i s).last.st.platform = s.platform := by
  by_cases hi : i = .srst
  · subst hi
    exact State.resetRegisters_platform s
  · exact (engineRun_bodyFrame hi s).platform

@[simp] theorem wordRun_platform (c : Word) (s : State) : (wordRun c s).last.st.platform = s.platform := by
  unfold wordRun
  cases decode c with
  | command i => exact engineRun_platform i s
  | illegal why => rfl

theorem engineStep_keeps_platform {c : Word} {s t : State} (h : engineStep c s = .next t) :
    t.platform = s.platform := by
  rw [engineStep_eq] at h
  injection h with h
  simp [← h]

theorem engineTurn_of_idle {s : State} (h : s.phase = .idle) : engineTurn s = .next s := by
  simp only [engineTurn, h]

theorem engineTurn_of_busy {s : State} {c : Word} (h : s.phase = .busy c) :
    engineTurn s = engineStep c s := by
  simp only [engineTurn, h]

theorem engineTurn_keeps_platform {s t : State} (h : engineTurn s = .next t) : t.platform = s.platform := by
  cases hp : s.phase with
  | idle =>
    rw [engineTurn_of_idle hp] at h
    injection h with h
    rw [h]
  | busy c => exact engineStep_keeps_platform (engineTurn_of_busy hp ▸ h)

/-! ### The outside world keeps the platform -/

@[simp] theorem State.portRead_platform (agent : Agent) (o : BitVec 8) (s : State) :
    (s.portRead agent o).platform = s.platform := by
  rcases portRead_cases agent o s with ⟨_, h⟩ | ⟨_, _, _, h⟩ | ⟨_, _, _, h⟩ <;> simp [h]

@[simp] theorem State.writeReg_platform (v : Word) (s : State) (r : Reg) :
    (s.writeReg v r).platform = s.platform := by
  cases r <;> rfl

@[simp] theorem State.portWrite_platform (o : BitVec 8) (v : Word) (s : State) :
    (s.portWrite o v).platform = s.platform := by
  rcases portWrite_cases o v s with ⟨_, _, h⟩ | ⟨_, ⟨_, h⟩ | ⟨_, _, h⟩⟩ <;> simp [h]

@[simp] theorem State.sysRead_platform (agent : Agent) (a : Nat) (s : State) :
    (s.sysRead agent a).platform = s.platform := by
  unfold State.sysRead
  split <;> simp

@[simp] theorem State.sysWrite_platform (agent : Agent) (a : Nat) (v : Byte) (s : State) :
    (s.sysWrite agent a v).platform = s.platform := by
  cases agent <;> rfl

@[simp] theorem State.cleanByte_platform (n a : Nat) (s : State) :
    (s.cleanByte n a).platform = s.platform := by
  rcases cleanByte_cases n a s with ⟨_, h⟩ | ⟨_, _, h⟩ | ⟨_, _, h⟩ <;> simp [h]

@[simp] theorem State.invalidateByte_platform (n a : Nat) (s : State) :
    (s.invalidateByte n a).platform = s.platform := by
  rcases invalidateByte_cases n a s with ⟨_, h⟩ | ⟨_, h⟩ <;> simp [h]

/-- While BUSY the reset replays a part of the aborted command's accesses, which change only memory (R85). -/
@[simp] theorem State.hardReset_platform (s : State) : s.hardReset.platform = s.platform := by
  unfold State.hardReset
  split
  · exact State.resetRegisters_platform s
  · rw [State.resetRegisters_platform, (replayAccess_memoryOnly _ _).platform]

/-- Whatever an event may do, it changes no parameter (R6). -/
theorem handle_keeps_platform {e : Event} {s t : State} (h : handle e s = .next t) :
    t.platform = s.platform := by
  cases e with
  | regRead agent width o =>
    obtain ⟨_, rfl⟩ := hostRead_next_iff.1 h
    exact s.portRead_platform agent o
  | regWrite agent width o v =>
    obtain ⟨_, rfl⟩ := hostWrite_next_iff.1 h
    exact s.portWrite_platform o v
  | memRead agent addr =>
    obtain ⟨_, _, rfl⟩ := memoryAccess_next_iff.1 h
    exact s.sysRead_platform agent addr.toNat
  | memWrite agent addr v =>
    obtain ⟨_, _, rfl⟩ := memoryAccess_next_iff.1 h
    exact s.sysWrite_platform agent addr.toNat v
  | clean host addr =>
    obtain ⟨_, rfl⟩ := maintenance_next_iff.1 h
    exact s.cleanByte_platform host addr.toNat
  | invalidate host addr =>
    obtain ⟨_, rfl⟩ := maintenance_next_iff.1 h
    exact s.invalidateByte_platform host addr.toNat
  | hardReset =>
    injection h with h
    rw [← h, s.hardReset_platform]

/-! ### The step -/

theorem step_of_pending_nil {s : State} (h : s.pending = []) : step s = engineTurn s := by
  simp only [step, h]

/-- Taking the turn off the pending list, then the turn itself, keep the platform (R91). -/
theorem step_keeps_platform {s t : State} (h : step s = .next t) : t.platform = s.platform := by
  rcases step_cases s with ⟨_, hs⟩ | ⟨rest, _, hs⟩ | ⟨e, rest, _, hs⟩ | ⟨agent, rest, _, _, hs⟩ |
    ⟨agent, rest, c, _, _, hs⟩ <;> rw [hs] at h
  · exact engineTurn_keeps_platform h
  · exact (engineTurn_keeps_platform h).trans (s.withPending_platform rest)
  · exact (handle_keeps_platform h).trans (s.withPending_platform rest)
  · injection h with h
    rw [← h, State.answer_platform, State.withPending_platform]
  · exact engineStep_keeps_platform h

/-! ### The obligations -/

/-- Settles O59: every kind of turn keeps the platform. -/
theorem platformNeverChanges : Obligations.PlatformNeverChanges :=
  fun _ _ h => step_keeps_platform h

/-- Settles O6: with no turn pending the step is the engine's turn, and an Idle engine's does nothing. -/
theorem idleMachineStays : Obligations.IdleMachineStays :=
  fun _ hpending hphase => (step_of_pending_nil hpending).trans (engineTurn_of_idle hphase)

end Sys2Proof.Machine
end

section
/-! PROOFS. The state and its register port (spec/10_state.md): the word accepted by a write of CMD runs at
the engine's turn (R14, R91), CTRL and the read-only registers (R10, R12), what the completion of a command
writes (R13, R18, R19), and the machine's invariant. -/

namespace Sys2Proof.Machine

open Sys2Proof.Claims

/-! ### The step takes the first pending turn -/

theorem step_of_pending_engine {s : State} {rest : List Turn} (h : s.pending = .engine :: rest) :
    step s = engineTurn (s.withPending rest) := by
  simp only [step, h]

/-- A waiting host lets the engine step and stays where it is (R38, R91). -/
theorem step_of_pending_wait_busy {s : State} {agent : Agent} {rest : List Turn} {c : Word}
    (h : s.pending = .wait agent :: rest) (hc : s.phase = .busy c) : step s = engineStep c s := by
  simp only [step, h, hc]

/-- A 32-bit write at an aligned offset is served by the register port (R67, R68). -/
theorem step_of_pending_write {s : State} {agent : Agent} {o : BitVec 8} {v : Word} {rest : List Turn}
    (h : s.pending = writes agent o v :: rest) (ho : o.toNat % 4 = 0) :
    step s = .next ((s.withPending rest).portWrite o v) := by
  have hserved : portServes .bits32 o = true := by simp [portServes, ho]
  simp only [step, h, writes, handle]
  exact hostWrite_next_iff.2 ⟨hserved, rfl⟩

theorem engineStep_of_command {c : Word} {i : Instr} (h : decode c = .command i) (s : State) :
    engineStep c s = exec i s := by
  simp only [engineStep, h]

/-- Settles O5: whichever turn lets the engine step, its step on a word that decodes is `exec`. -/
theorem stepRunsDecodedCommand : Obligations.StepRunsDecodedCommand := by
  intro s c i hc hi
  have hstep : ∀ u : State, engineStep c u = exec i u := engineStep_of_command hi
  refine ⟨fun h => ?_, fun rest h => ?_, fun agent rest h => ?_⟩
  · rw [step_of_pending_nil h, engineTurn_of_busy hc, hstep]
  · have hc' : (s.withPending rest).phase = .busy c := hc
    rw [step_of_pending_engine h, engineTurn_of_busy hc', hstep]
    rfl
  · rw [step_of_pending_wait_busy h hc, hstep]

/-! ### Writes of the register port while Idle -/

theorem State.isBusy_of_idle {s : State} (h : s.phase = .idle) : s.isBusy = false := by
  simp only [State.isBusy, h]

/-- While Idle no write is dropped: it reaches the register at its offset (R67). -/
theorem State.portWrite_of_idle {s : State} {o : BitVec 8} {r : Reg} (hs : s.phase = .idle)
    (hr : Reg.atOffset o = some r) (v : Word) : s.portWrite o v = s.writeReg v r := by
  simp [State.portWrite, State.isBusy_of_idle hs, hr]

theorem State.portWrite_of_reserved {s : State} {o : BitVec 8} (hs : s.phase = .idle)
    (hr : Reg.atOffset o = none) (v : Word) : s.portWrite o v = s := by
  simp [State.portWrite, State.isBusy_of_idle hs, hr]

theorem Reg.offset_of_atOffset {o : BitVec 8} {r : Reg} (h : Reg.atOffset o = some r) :
    r.offset = o.toNat := by
  simpa using List.find?_some h

/-- The map of R10: an offset that is no RW register's, nor CMD's, can only be a read-only register's. -/
theorem Reg.mode_of_offset {r : Reg} (hrw : r.offset ∉ rwOffsets) (hctrl : r.offset ≠ 0x004)
    (hcmd : r.offset ≠ 0x00C) : r.mode = .readOnly := by
  cases r with
  | id | status | result | errinfo | major | minor => rfl
  | ctrl => exact absurd rfl hctrl
  | cmd => exact absurd rfl hcmd
  | bmBase | bmLen | arg0 | arg1 | nameBase | nameLen | nameOff => exact absurd (by decide) hrw
  | seed k | h k => exact absurd (by revert k; decide) hrw
  | w k => exact absurd (by revert k; decide) hrw

/-- A read-only register ignores writes (R10, R67). -/
theorem State.writeReg_of_readOnly {r : Reg} (h : r.mode = .readOnly) (v : Word) (s : State) :
    s.writeReg v r = s := by
  cases r with
  | id | status | result | errinfo | major | minor => rfl
  | cmd | ctrl | bmBase | bmLen | arg0 | arg1 | nameBase | nameLen | nameOff => contradiction
  | seed k | h k | w k => contradiction

/-- Settles O46: an accepted word, with CLRST's word clearing WHB already at its acceptance (R64). -/
theorem cmdWriteAccepted : Obligations.CmdWriteAccepted := by
  intro s agent v rest hs h
  have hcmd : Reg.atOffset 0x0C#8 = some .cmd := rfl
  have hclrst : encode .clrst = 0x00000021#32 := rfl
  have hidle : (s.withPending rest).phase = .idle := hs
  rw [step_of_pending_write h rfl, State.portWrite_of_idle hidle hcmd, State.writeReg, State.accept, hclrst]
  rfl

/-- Settles O48: a write of CTRL is `writeCtrl`. -/
theorem ctrlWrite : Obligations.CtrlWrite := by
  intro s agent v rest hs h
  have hctrl : Reg.atOffset 0x04#8 = some .ctrl := rfl
  have hack : (s.done && !v.getLsbD 1) = if v.getLsbD 1 then false else s.done := by
    cases v.getLsbD 1 <;> simp
  have hidle : (s.withPending rest).phase = .idle := hs
  rw [step_of_pending_write h rfl, State.portWrite_of_idle hidle hctrl, State.writeReg, State.writeCtrl,
    ← hack]
  rfl

/-- Settles O52: at such an offset stands nothing or a read-only register, and both ignore the write. -/
theorem readOnlyAndReservedWritesIgnored : Obligations.ReadOnlyAndReservedWritesIgnored := by
  intro s agent o v rest hs ho hrw hctrl hcmd h
  have hidle : (s.withPending rest).phase = .idle := hs
  rw [step_of_pending_write h ho]
  cases hr : Reg.atOffset o with
  | none => rw [State.portWrite_of_reserved hidle hr]; rfl
  | some r =>
    rw [← Reg.offset_of_atOffset hr] at hrw hctrl hcmd
    have hmode : r.mode = .readOnly := Reg.mode_of_offset hrw hctrl hcmd
    rw [State.portWrite_of_idle hidle hr, State.writeReg_of_readOnly hmode]
    rfl

/-! ### How a command can end -/

/-- What a command says of itself when it ends: FOUND only from a BFIND whose RESULT is an index (R45), and
an error that is a code of R71 other than ILLEGAL, which no command that decoded reports. -/
def Ended.Flagged (i : Instr) : Ended → Prop
  | .completed found r => found = true → i = .bfind ∧ r.st.result ≠ 0xFFFFFFFF#32
  | .raised e _ _ => e ≠ .noError ∧ e ≠ .illegal

theorem Ended.flagged_completed_false (i : Instr) (r : Run) : (Ended.completed false r).Flagged i :=
  fun h => absurd h Bool.false_ne_true

theorem Ended.flagged_raised {e : ErrCode} (h : e ≠ .noError ∧ e ≠ .illegal) (i : Instr) (info : Word)
    (r : Run) : (Ended.raised e info r).Flagged i := h

theorem notsup_flagged (i : Instr) (r : Run) : (notsup i r).Flagged i :=
  Ended.flagged_raised (by decide) i _ _

/-- A bus error is reported as one, so only what follows a part that went well is left to look at. -/
theorem Port.finish_flagged {α : Type} {i : Instr} {f : α → Run → Ended} (hf : ∀ v r, (f v r).Flagged i)
    (p : Port α) : (p.finish f).Flagged i := by
  cases p with
  | ok v r => exact hf v r
  | busErr info r => exact Ended.flagged_raised (by decide) i info r

theorem testBit_flagged (j : Instr) (f : Bool → Word) (i : Nat) (r : Run) : (testBit f i r).Flagged j := by
  rcases testBit_cases f i r with ⟨_, h⟩ | ⟨_, _, h⟩ | ⟨_, _, h⟩ <;> rw [h]
  · exact Ended.flagged_raised (by decide) ..
  · exact Ended.flagged_raised (by decide) ..
  · exact Ended.flagged_completed_false _ _

/-- Every index BFIND looks at lies below ARG1, so a found one is never 0xFFFFFFFF (R45). -/
theorem findClear_flagged {n i : Nat} (hlt : i + n < 2 ^ 32) (r : Run) :
    (findClear n i r).Flagged .bfind := by
  induction n generalizing i r with
  | zero => exact Ended.flagged_completed_false _ _
  | succ n ih =>
    unfold findClear
    split
    · refine Port.finish_flagged (fun b r' => ?_) _
      split
      · exact ih (by omega) r'
      · have hindex : BitVec.ofNat 32 i ≠ 0xFFFFFFFF#32 := by bv_omega
        exact fun _ => ⟨rfl, hindex⟩
    · exact Ended.flagged_raised (by decide) ..

theorem hashName_flagged (i : Instr) (alg : Nat) (r : Run) : (hashName alg r).Flagged i := by
  unfold hashName
  split <;> exact Port.finish_flagged (fun _ _ => Ended.flagged_completed_false _ _) _

theorem engineRun_flagged (i : Instr) (s : State) : (engineRun i s).Flagged i := by
  cases i with
  | bset | bclr | bfree => exact Port.finish_flagged (fun _ _ => Ended.flagged_completed_false _ _) _
  | btst | btstc =>
    simp only [engineRun, runBtst, runBtstc]
    exact testBit_flagged ..
  | bfind => exact findClear_flagged (by omega) _
  | hash alg seeded =>
    simp only [engineRun, runHash]
    split
    · exact hashName_flagged ..
    · exact notsup_flagged ..
  | hprep alg =>
    simp only [engineRun, runHprep]
    split
    · exact Port.finish_flagged (fun _ _ => Ended.flagged_completed_false _ _) _
    · exact notsup_flagged ..
  | hfin alg =>
    simp only [engineRun, runHfin]
    split
    · exact Ended.flagged_completed_false _ _
    · exact notsup_flagged ..
  | hinit _ | hmd4 | htea | nop | clrst | srst => exact Ended.flagged_completed_false _ _

/-- Settles O36: both ways to end make the engine Idle and set DONE (R72, R73); the rest is what
`engineRun_flagged` says of the end. -/
theorem completionFlags : Obligations.CompletionFlags := by
  intro i s t h
  obtain rfl := exec_next_iff.1 h
  have hflagged := engineRun_flagged i s
  cases he : engineRun i s with
  | completed found r =>
    rw [he] at hflagged
    exact ⟨rfl, rfl, fun hfound => ⟨(hflagged hfound).1, rfl⟩, fun _ => rfl, nofun⟩
  | raised e info r =>
    rw [he] at hflagged
    exact ⟨rfl, rfl, nofun, fun hnone => absurd hnone hflagged.1, hflagged.2⟩

/-! ### Which registers a command's body writes -/

/-- The column "written by commands" of R10, and R29 for memory: what the body of each command can change. -/
def CommandFrame (i : Instr) (s t : State) : Prop :=
  match i with
  | .bset | .bclr | .bfree => MemoryOnly s t
  | .btst | .btstc | .bfind => ResultOnly s t
  | .hash _ _ =>
    t = { s with h := t.h, w := t.w, major := t.major, minor := t.minor, draws := t.draws }
  | .hinit _ | .hmd4 | .htea => t = { s with h := t.h }
  | .hprep _ => t = { s with w := t.w, major := t.major, minor := t.minor, draws := t.draws }
  | .hfin _ => t = { s with major := t.major, minor := t.minor }
  | .nop | .clrst => t = s
  | .srst => t = s.resetRegisters

/-- Post-processing after the chunks or the Legacy bytes adds MAJOR and MINOR to what they write (R56). -/
theorem HashOnly.setHash {s t : State} (h : HashOnly s t) (x y : Word) (alg : Nat) (seeded : Bool) :
    CommandFrame (.hash alg seeded) s (t.setHash x y) := by
  unfold HashOnly at h
  unfold CommandFrame
  rw [h]
  rfl

theorem HashOnly.hashFrame {s t : State} (h : HashOnly s t) (alg : Nat) (seeded : Bool) :
    CommandFrame (.hash alg seeded) s t := by
  unfold HashOnly at h
  unfold CommandFrame
  rw [h]

/-- The end of HASH: a bus error leaves what the loop wrote, otherwise the result pair is written (R56). -/
theorem Port.finish_hashFrame {α : Type} {s : State} {p : Port α} (hp : HashOnly s p.last.st)
    (x y : α → State → Word) (alg : Nat) (seeded : Bool) :
    CommandFrame (.hash alg seeded) s
      (p.finish fun v r => .completed false (r.update fun u => u.setPost (x v u) (y v u))).last.st := by
  cases p with
  | ok v r => exact hp.setHash ..
  | busErr info r => exact hp.hashFrame ..

theorem hashName_frame {s : State} {r : Run} (hr : HashOnly s r.st) (alg : Nat) (seeded : Bool) :
    CommandFrame (.hash alg seeded) s (hashName alg r).last.st := by
  unfold hashName
  split
  · exact Port.finish_hashFrame (hr.trans (hashChunks_hashOnly teaBlock_blockOnly ..))
      (fun _ u => u.h[0]) (fun _ u => u.h[1]) ..
  · exact Port.finish_hashFrame (hr.trans (hashChunks_hashOnly md4Block_blockOnly ..))
      (fun _ u => u.h[1]) (fun _ u => u.h[2]) ..
  · exact Port.finish_hashFrame (hr.trans (legacyBytes_readsOnly ..).hashOnly)
      (fun v _ => v) (fun _ _ => 0#32) ..

/-- HPREP leaves H alone: chunk preparation writes only W (R51, R58). -/
theorem prep_frame (alg off : Nat) (uns : Bool) (s : State) :
    CommandFrame (.hprep alg) s (prep off uns (Run.start s)).last.st := by
  have hw := prep_hashOnly off uns (Run.start s)
  have hh := prep_h off uns (Run.start s)
  unfold HashOnly at hw
  unfold CommandFrame
  dsimp only
  rw [hh] at hw
  rw [hw]
  rfl

/-- A command that ends normally after its accesses leaves the run they left (R40, R41, R44, R58). -/
@[simp] theorem Port.finish_completed_last {α : Type} (p : Port α) (found : Bool) :
    (p.finish fun _ r => .completed found r).last = p.last := by
  cases p <;> rfl

theorem engineRun_frame (i : Instr) (s : State) : CommandFrame i s (engineRun i s).last.st := by
  cases i with
  | bset | bclr =>
    simp only [engineRun, runBset, runBclr, Port.finish_completed_last]
    exact modifyBit_memoryOnly _ _ (Run.start s)
  | bfree =>
    simp only [engineRun, runBfree, Port.finish_completed_last]
    exact freeRange_memoryOnly _ _ (Run.start s)
  | btst | btstc =>
    simp only [engineRun, runBtst, runBtstc]
    exact testBit_resultOnly _ _ (Run.start s)
  | bfind => exact findClear_resultOnly _ _ (Run.start s)
  | hash alg seeded =>
    simp only [engineRun, runHash]
    split
    · exact hashName_frame (s := s) (HashOnly.setH _ _) alg seeded
    · rfl
  | hprep alg =>
    simp only [engineRun, runHprep]
    split
    · rw [Port.finish_completed_last]
      exact prep_frame ..
    · rfl
  | hfin alg =>
    simp only [engineRun, runHfin]
    split
    · rw [Ended.completed_last, Run.update_st]
      split <;> rfl
    · rfl
  | hinit _ | hmd4 | htea | nop | clrst | srst => rfl

/-- Ending a command writes only the phase, STATUS and ERRINFO (R72, R73). -/
theorem Ended.state_frame (e : Ended) :
    e.state =
      { e.last.st with
        phase := .idle, done := true, found := e.state.found, err := e.state.err,
        errinfo := e.state.errinfo } := by
  cases e <;> rfl

/-- Settles O37: the column is `engineRun_frame`, and the end of a command writes none of these fields. -/
theorem commandsWriteOnlyTheirRegisters : Obligations.CommandsWriteOnlyTheirRegisters := by
  intro i s t h
  obtain rfl := exec_next_iff.1 h
  have hframe := engineRun_frame i s
  rw [Ended.state_frame]
  generalize (engineRun i s).last.st = u at hframe ⊢
  cases i with
  | bset | bclr | bfree =>
    unfold CommandFrame MemoryOnly at hframe
    rw [hframe]
    simp [Claims.Writer]
  | btst | btstc | bfind =>
    unfold CommandFrame ResultOnly at hframe
    rw [hframe]
    simp
  | hash _ _ | hinit _ | hprep _ | hfin _ | hmd4 | htea =>
    unfold CommandFrame at hframe
    rw [hframe]
    simp
  | nop | clrst | srst =>
    obtain rfl := hframe
    simp

/-! ### Errors -/

/-- BTST and BTSTC that end with an error have at most read (R42, R43, R75). -/
theorem testBit_raised {f : Bool → Word} {i : Nat} {r r' : Run} {e : ErrCode} {info : Word}
    (h : testBit f i r = .raised e info r') : ReadsOnly r.st r'.st := by
  rcases testBit_cases f i r with ⟨_, h'⟩ | ⟨_, _, h'⟩ | ⟨_, _, h'⟩ <;> rw [h'] at h
  · injection h with _ _ hr
    exact hr ▸ ReadsOnly.refl _
  · injection h with _ _ hr
    exact hr ▸ ReadsOnly.refl _
  · contradiction

/-- The scan of BFIND writes RESULT only at its normal end, so one that ends with an error has only read
(R45, R75). -/
theorem findClear_raised {n i : Nat} {r r' : Run} {e : ErrCode} {info : Word}
    (h : findClear n i r = .raised e info r') : ReadsOnly r.st r'.st := by
  induction n generalizing i r with
  | zero => contradiction
  | succ n ih =>
    have hread := memRead_readsOnly (r.st.bitmapAddr (byteOf i)) r
    unfold findClear at h
    split at h
    · cases hm : memRead (r.st.bitmapAddr (byteOf i)) r with
      | ok b r1 =>
        rw [hm] at h hread
        rw [Port.ok_finish] at h
        split at h
        · exact hread.trans (ih h)
        · contradiction
      | busErr info1 r1 =>
        rw [hm] at h hread
        injection h with _ _ hr
        exact hr ▸ hread
    · injection h with _ _ hr
      exact hr ▸ ReadsOnly.refl _

/-- The commands that deliver in RESULT (R18) have only read when they end with an error. -/
theorem engineRun_raised_readsOnly {i : Instr} (hi : i = .btst ∨ i = .btstc ∨ i = .bfind) {s : State}
    {e : ErrCode} {info : Word} {r : Run} (h : engineRun i s = .raised e info r) : ReadsOnly s r.st := by
  rcases hi with rfl | rfl | rfl
  · unfold engineRun runBtst at h
    exact testBit_raised h
  · unfold engineRun runBtstc at h
    exact testBit_raised h
  · exact findClear_raised (r := Run.start s) h

/-- Settles O38: an error is raised by a body that has not yet written RESULT. -/
theorem errorsLeaveResult : Obligations.ErrorsLeaveResult := by
  intro i s t h herr
  obtain ⟨_, hresult, _⟩ := commandsWriteOnlyTheirRegisters i s t h
  obtain rfl := exec_next_iff.1 h
  cases he : engineRun i s with
  | completed found r =>
    rw [he] at herr
    exact absurd rfl herr
  | raised e info r =>
    rw [he] at hresult
    by_cases hi : i = .btst ∨ i = .btstc ∨ i = .bfind
    · have hread : r.st = { s with draws := r.st.draws } := engineRun_raised_readsOnly hi he
      have hstate : r.st.raise e info = errState e info { s with draws := r.st.draws } := by
        rw [hread]
        rfl
      rw [Ended.raised_state, hstate]
      exact ⟨rfl, rfl, fun _ => ⟨e, info, _, rfl⟩⟩
    · have hsrst : i ≠ .srst := by
        rintro rfl
        contradiction
      simp only [not_or] at hi
      exact ⟨hresult hi.1 hi.2.1 hi.2.2 hsrst, rfl, fun h => absurd h (by simp [hi])⟩

end Sys2Proof.Machine
end

section
/-! PROOFS. Every step keeps the machine's invariant `Inv` (R13, R14, R19, R45, R55, R62): one rule for each
operation on the state, then the engine's commands, the events from outside, and the step. -/

namespace Sys2Proof.Machine

/-! ### The operations on the state -/

theorem Inv.withPending {s : State} (h : Inv s) (l : List Turn) : Inv (s.withPending l) := { h with }

theorem Inv.answer {s : State} (h : Inv s) (reply : Reply) : Inv (s.answer reply) := { h with }

theorem Inv.drawn {s : State} (h : Inv s) : Inv s.drawn := { h with }

theorem Inv.dropWrite {s : State} (h : Inv s) : Inv s.dropWrite := { h with }

/-- An acknowledgement can only lower DONE (R12). -/
theorem Inv.writeCtrl {s : State} (h : Inv s) (v : Word) : Inv (s.writeCtrl v) :=
  { h with
    busyNotDone := fun hbusy => by
      have hdone : s.done = false := h.busyNotDone hbusy
      simp [hdone] }

/-- The word that raises BUSY lowers DONE (R14). -/
theorem Inv.accept {s : State} (h : Inv s) (c : Word) : Inv (s.accept c) :=
  { h with busyNotDone := fun _ => rfl }

/-- Every register the invariant speaks of has a reset value that meets it (R85). -/
theorem Inv.resetRegisters {s : State} (h : Inv s) : Inv s.resetRegisters :=
  { h with
    majorEven := by simp
    majorNotSentinel := by simp
    busyNotDone := fun _ => rfl
    foundNoError := fun _ => rfl
    foundIndex := nofun
    errinfoZero := fun _ => rfl }

theorem Inv.overtake {s : State} (h : Inv s) (seer : Option Nat) (a : Nat) : Inv (s.overtake seer a) :=
  { h with
    staleNodup := by
      rw [State.overtake_stale]
      split
      · exact h.staleNodup
      · exact addTo_nodup h.staleNodup
    freshNodup := by
      rw [State.overtake_fresh]
      split
      · exact h.freshNodup
      · exact freshAfter_nodup h.freshNodup }

/-- A byte of the 32-bit address space may take any value (R26). -/
theorem Inv.changeByte {s : State} (h : Inv s) (seer : Option Nat) {a : Nat} (ha : a < 2 ^ 32) (v : Byte) :
    Inv (s.changeByte seer a v) :=
  { h.overtake seer a with memWf := Memory.write_wf h.memWf ha v }

theorem Inv.storeByte {s : State} (h : Inv s) {a : Nat} (ha : a < 2 ^ 32) (v : Byte) :
    Inv (s.storeByte a v) := h.changeByte none ha v

theorem Inv.hostStore {s : State} (h : Inv s) (host : Nat) {a : Nat} (ha : a < 2 ^ 32) (v : Byte) :
    Inv (s.hostStore host a v) :=
  { h.changeByte (some host) ha v with
    uncleanNodup := by
      rw [State.hostStore_unclean]
      split
      · exact h.uncleanNodup
      · exact addTo_nodup h.uncleanNodup }

theorem Inv.scramble {s : State} (h : Inv s) (seer : Option Nat) {a : Nat} (ha : a < 2 ^ 32) :
    Inv (s.scramble seer a) := h.drawn.changeByte seer ha _

theorem Inv.markClean {s : State} (h : Inv s) (host a : Nat) : Inv (s.markClean host a) :=
  { h with uncleanNodup := dropFrom_nodup h.uncleanNodup }

theorem Inv.markFresh {s : State} (h : Inv s) (host a : Nat) : Inv (s.markFresh host a) :=
  { h with
    freshNodup := by
      rw [State.markFresh_fresh]
      split
      · exact h.freshNodup
      · exact addTo_nodup h.freshNodup }

/-! ### The events from outside -/

theorem Inv.portRead {s : State} (h : Inv s) (agent : Agent) (o : BitVec 8) : Inv (s.portRead agent o) := by
  rcases portRead_cases agent o s with ⟨_, he⟩ | ⟨_, _, _, he⟩ | ⟨_, _, _, he⟩ <;> rw [he]
  · exact h.answer _
  · exact h.drawn.answer _
  · exact h.answer _

/-- The registers a host can write, other than CMD and CTRL, are none the invariant speaks of (R10). -/
theorem Inv.writeReg {s : State} (h : Inv s) (v : Word) (r : Reg) : Inv (s.writeReg v r) := by
  cases r with
  | cmd => exact h.accept v
  | ctrl => exact h.writeCtrl v
  | id | status | result | errinfo | major | minor => exact h
  | bmBase | bmLen | arg0 | arg1 | nameBase | nameLen | nameOff => exact { h with }
  | seed k | h k | w k => exact { h with }

theorem Inv.portWrite {s : State} (h : Inv s) (o : BitVec 8) (v : Word) : Inv (s.portWrite o v) := by
  rcases portWrite_cases o v s with ⟨_, _, he⟩ | ⟨_, ⟨_, he⟩ | ⟨r, _, he⟩⟩ <;> rw [he]
  · exact h.dropWrite
  · exact h
  · exact h.writeReg v r

theorem Inv.sysRead {s : State} (h : Inv s) (agent : Agent) (a : Nat) : Inv (s.sysRead agent a) := by
  unfold State.sysRead
  split
  · exact h.drawn.answer _
  · exact h.answer _

theorem Inv.sysWrite {s : State} (h : Inv s) (agent : Agent) {a : Nat} (ha : a < 2 ^ 32) (v : Byte) :
    Inv (s.sysWrite agent a v) := by
  cases agent with
  | host n => exact h.hostStore n ha v
  | otherEngine _ | dma _ => exact h.storeByte ha v

theorem Inv.cleanByte {s : State} (h : Inv s) (host : Nat) {a : Nat} (ha : a < 2 ^ 32) :
    Inv (s.cleanByte host a) := by
  rcases cleanByte_cases host a s with ⟨_, he⟩ | ⟨_, _, he⟩ | ⟨_, _, he⟩ <;> rw [he]
  · exact h
  · exact (h.scramble none ha).markClean host a
  · exact (h.overtake (some host) a).markClean host a

theorem Inv.invalidateByte {s : State} (h : Inv s) (host : Nat) {a : Nat} (ha : a < 2 ^ 32) :
    Inv (s.invalidateByte host a) := by
  rcases invalidateByte_cases host a s with ⟨_, he⟩ | ⟨_, he⟩ <;> rw [he]
  · exact h.markFresh host a
  · exact (h.scramble (some host) ha).markClean host a

/-! ### The commands that write memory -/

/-- A relation between runs that the accesses of the master port keep, however many follow each other. -/
structure PortStable (R : Run → Run → Prop) : Prop where
  refl : ∀ r, R r r
  trans : ∀ {x y z}, R x y → R y z → R x z
  read : ∀ a r, R r (memRead a r).last
  write : ∀ a v r, R r (memWrite a v r).last

section
variable {R : Run → Run → Prop} (hR : PortStable R)
include hR

theorem PortStable.modifyBit (f : Nat → Byte → Byte) (i : Nat) (r : Run) : R r (modifyBit f i r).last := by
  unfold Machine.modifyBit
  split
  · exact Port.andThen_keeps (R := R) hR.trans (hR.read ..) fun _ _ => hR.write ..
  · exact hR.refl r

theorem PortStable.freeHead (n i : Nat) (r : Run) : R r (freeHead n i r).last := by
  induction n generalizing i r with
  | zero => exact hR.refl r
  | succ n ih =>
    unfold Machine.freeHead
    split
    · exact hR.refl r
    · exact Port.andThen_keeps (R := R) hR.trans (hR.modifyBit ..) fun _ r' => ih _ r'

theorem PortStable.zeroByte (k : Nat) (r : Run) : R r (zeroByte k r).last := by
  unfold Machine.zeroByte
  split
  · exact hR.write ..
  · exact hR.refl r

theorem PortStable.freeBytes (q i : Nat) (r : Run) : R r (freeBytes q i r).last := by
  induction q generalizing i r with
  | zero => exact hR.refl r
  | succ q ih => exact Port.andThen_keeps (R := R) hR.trans (hR.zeroByte ..) fun _ r' => ih _ r'

theorem PortStable.freeTail (n i : Nat) (r : Run) : R r (freeTail n i r).last := by
  induction n generalizing i r with
  | zero => exact hR.refl r
  | succ n ih => exact Port.andThen_keeps (R := R) hR.trans (hR.modifyBit ..) fun _ r' => ih _ r'

theorem PortStable.freeRange (i n : Nat) (r : Run) : R r (freeRange i n r).last :=
  Port.andThen_keeps (R := R) hR.trans (hR.freeHead ..) fun _ r' =>
    Port.andThen_keeps (R := R) hR.trans (hR.freeBytes _ _ r') fun _ r'' => hR.freeTail _ _ r''

/-- BSET, BCLR and BFREE do nothing but access memory (R40, R41, R44). -/
theorem PortStable.engineRun {i : Instr} (hi : Claims.Writer i) (s : State) :
    R (Run.start s) (engineRun i s).last := by
  rcases hi with rfl | rfl | rfl
  · simpa only [Machine.engineRun, runBset, Port.finish_completed_last] using hR.modifyBit ..
  · simpa only [Machine.engineRun, runBclr, Port.finish_completed_last] using hR.modifyBit ..
  · simpa only [Machine.engineRun, runBfree, Port.finish_completed_last] using hR.freeRange ..
end

/-! ### The accesses of a command -/

/-- The access is one of the 32-bit address space. -/
def Access.Fits (x : Access) : Prop := x.addr < 2 ^ 32

theorem memRead_fits (a : Nat) (r : Run) : Extends Access.Fits r (memRead a r).last :=
  memRead_extends State.portOk_lt

theorem BufferAccess.fits {s : State} {P : Nat → Prop} {x : Access} : BufferAccess s P x → x.Fits :=
  fun ⟨_, _, _, _, h⟩ => h

theorem NameRead.fits {s : State} {P : Nat → Prop} {x : Access} : NameRead s P x → x.Fits :=
  fun ⟨_, _, _, h⟩ => h

theorem Extends.of_noAccess {F : Access → Prop} {r r' : Run} (ht : r'.trace = r.trace)
    (hm : r'.st.mem = r.st.mem) : Extends F r r' := ⟨[], by simp [ht], by simp, hm⟩

theorem portStable_fits : PortStable (Extends Access.Fits) where
  refl := Extends.refl _
  trans := Extends.trans
  read := memRead_fits
  write _ _ _ := memWrite_extends State.portOk_lt

theorem Port.finish_fits {α : Type} {r : Run} {p : Port α} {f : α → Run → Ended}
    (hp : Extends Access.Fits r p.last) (hf : ∀ v r', Extends Access.Fits r' (f v r').last) :
    Extends Access.Fits r (p.finish f).last :=
  Port.finish_keeps (R := Extends Access.Fits) Extends.trans hp hf

theorem testBit_fits (f : Bool → Word) (i : Nat) (r : Run) : Extends Access.Fits r (testBit f i r).last := by
  unfold testBit
  split
  · exact Port.finish_fits (memRead_fits ..) fun _ _ => Extends.of_noAccess rfl rfl
  · exact Extends.refl _ _

theorem hashChunks_fits {block : State → State} (hb : BlockOnly block) (stride : Nat) (uns : Bool)
    (count off : Nat) (r : Run) : Extends Access.Fits r (hashChunks stride block uns count off r).last :=
  (hashChunks_extends hb (HashOnly.refl r.st)).mono fun _ => NameRead.fits

theorem hashName_fits (alg : Nat) (r : Run) : Extends Access.Fits r (hashName alg r).last := by
  unfold hashName
  split
  · exact Port.finish_fits (hashChunks_fits teaBlock_blockOnly ..) fun _ _ => Extends.of_noAccess rfl rfl
  · exact Port.finish_fits (hashChunks_fits md4Block_blockOnly ..) fun _ _ => Extends.of_noAccess rfl rfl
  · exact Port.finish_fits ((legacy_extends (HashOnly.refl r.st)).mono fun _ => NameRead.fits)
      fun _ _ => Extends.of_noAccess rfl rfl

/-- Only accesses of the address space complete (R26), so a command performs no other. -/
theorem engineRun_fits (i : Instr) (s : State) :
    Extends Access.Fits (Run.start s) (engineRun i s).last := by
  cases i with
  | bset => exact portStable_fits.engineRun (.inl rfl) s
  | bclr => exact portStable_fits.engineRun (.inr (.inl rfl)) s
  | bfree => exact portStable_fits.engineRun (.inr (.inr rfl)) s
  | btst | btstc =>
    simp only [engineRun, runBtst, runBtstc]
    exact testBit_fits ..
  | bfind => exact (findClear_extends (ReadsOnly.refl s)).mono fun _ hx => hx.1.fits
  | hash alg seeded =>
    simp only [engineRun, runHash]
    split
    · exact Extends.trans (y := (Run.start s).update (State.initHash seeded))
        (Extends.of_noAccess rfl rfl) (hashName_fits ..)
    · exact Extends.of_noAccess rfl rfl
  | hprep alg =>
    simp only [engineRun, runHprep]
    split
    · rw [Port.finish_completed_last]
      exact (prep_extends (HashOnly.refl s)).mono fun _ => NameRead.fits
    · exact Extends.of_noAccess rfl rfl
  | hfin alg =>
    simp only [engineRun, runHfin]
    split
    · refine Extends.of_noAccess rfl ?_
      rw [Ended.completed_last, Run.update_st]
      split <;> rfl
    · exact Extends.of_noAccess rfl rfl
  | hinit _ | hmd4 | htea | nop | clrst | srst => exact Extends.of_noAccess rfl rfl

theorem wordRun_trace_fits (c : Word) (s : State) : ∀ x ∈ (wordRun c s).trace, x.Fits := by
  unfold wordRun
  cases decode c with
  | command i =>
    obtain ⟨l, htrace, hfits, _⟩ := engineRun_fits i s
    simpa [Ended.trace, htrace] using hfits
  | illegal why => simp [runIllegal]

/-! ### The hardware reset, and every event -/

theorem Inv.replay {s : State} (h : Inv s) {l : List Access} (hl : ∀ x ∈ l, x.Fits) :
    Inv (l.foldl replayAccess s) := by
  induction l generalizing s with
  | nil => exact h
  | cons x l ih =>
    have hrest : ∀ y ∈ l, y.Fits := fun y hy => hl y (List.mem_cons_of_mem _ hy)
    cases x with
    | read a => exact ih h hrest
    | write a v => exact ih (h.storeByte (hl _ List.mem_cons_self) v) hrest

/-- While BUSY the reset performs a front part of the command's accesses again (R85). -/
theorem Inv.hardReset {s : State} (h : Inv s) : Inv s.hardReset := by
  unfold State.hardReset
  split
  · exact h.resetRegisters
  · next c hc =>
    have hdraws : Inv { s with draws := (wordRun c s).state.draws + 1 } := { h with }
    exact (hdraws.replay fun x hx => wordRun_trace_fits c s x (List.mem_of_mem_take hx)).resetRegisters

/-- Whatever an event may do, it keeps the invariant: its address is a 32-bit word. -/
theorem handle_keeps_inv {e : Event} {s t : State} (hs : Inv s) (h : handle e s = .next t) : Inv t := by
  cases e with
  | regRead agent width o =>
    obtain ⟨_, rfl⟩ := hostRead_next_iff.1 h
    exact hs.portRead agent o
  | regWrite agent width o v =>
    obtain ⟨_, rfl⟩ := hostWrite_next_iff.1 h
    exact hs.portWrite o v
  | memRead agent addr =>
    obtain ⟨_, _, rfl⟩ := memoryAccess_next_iff.1 h
    exact hs.sysRead agent addr.toNat
  | memWrite agent addr v =>
    obtain ⟨_, _, rfl⟩ := memoryAccess_next_iff.1 h
    exact hs.sysWrite agent addr.isLt v
  | clean host addr =>
    obtain ⟨_, rfl⟩ := maintenance_next_iff.1 h
    exact hs.cleanByte host addr.isLt
  | invalidate host addr =>
    obtain ⟨_, rfl⟩ := maintenance_next_iff.1 h
    exact hs.invalidateByte host addr.isLt
  | hardReset =>
    injection h with h
    exact h ▸ hs.hardReset

/-! ### The master port -/

theorem Inv.of_readsOnly {s t : State} (h : Inv s) (ht : ReadsOnly s t) : Inv t := by
  unfold ReadsOnly at ht
  rw [ht]
  exact { h with }

/-- The master port keeps the invariant: a write that completes is one of the address space (R26). -/
theorem portStable_inv : PortStable fun x y => Inv x.st → Inv y.st where
  refl _ h := h
  trans hxy hyz h := hyz (hxy h)
  read a r h := h.of_readsOnly (memRead_readsOnly a r)
  write a v r h := by
    rcases memWrite_cases a v r with ⟨hp, he⟩ | ⟨_, he⟩ <;> rw [he]
    · exact h.storeByte (State.portOk_lt hp) v
    · exact h

/-! ### MAJOR -/

/-- What R55 makes of every major hash (R62 item 3). -/
def PostedMajor (m : Word) : Prop := m.getLsbD 0 = false ∧ m ≠ 0xFFFFFFFE#32

theorem postedMajor_post (m : Word) : PostedMajor (post m) := ⟨post_even m, post_ne_sentinel m⟩

theorem postedMajor_zero : PostedMajor 0#32 := ⟨rfl, by decide⟩

theorem HashOnly.major {s t : State} (h : HashOnly s t) : t.major = s.major := by rw [h]

/-- A command that post-processes at its normal end and else leaves MAJOR as it was (R56). -/
theorem Port.finish_postedMajor {α : Type} {s : State} {p : Port α} (hp : HashOnly s p.last.st)
    (hs : PostedMajor s.major) {f : α → Run → Ended} (hf : ∀ v r, PostedMajor (f v r).last.st.major) :
    PostedMajor (p.finish f).last.st.major := by
  cases p with
  | ok v r => exact hf v r
  | busErr info r => exact hp.major ▸ hs

theorem hashName_postedMajor (alg : Nat) {r : Run} (hr : PostedMajor r.st.major) :
    PostedMajor (hashName alg r).last.st.major := by
  unfold hashName
  split
  · exact Port.finish_postedMajor (hashChunks_hashOnly teaBlock_blockOnly ..) hr
      fun _ _ => postedMajor_post _
  · exact Port.finish_postedMajor (hashChunks_hashOnly md4Block_blockOnly ..) hr
      fun _ _ => postedMajor_post _
  · exact Port.finish_postedMajor (legacyBytes_readsOnly ..).hashOnly hr fun _ _ => postedMajor_post _

/-- MAJOR is post-processed, 0 after a refusal or SRST, or as before (R24, R55, R61, R65). -/
theorem engineRun_postedMajor {s : State} (hs : PostedMajor s.major) (i : Instr) :
    PostedMajor (engineRun i s).last.st.major := by
  have hframe := engineRun_frame i s
  cases i with
  | hash alg seeded =>
    simp only [engineRun, runHash]
    split
    · exact hashName_postedMajor alg hs
    · exact postedMajor_zero
  | hprep alg =>
    simp only [engineRun, runHprep]
    split
    · rw [Port.finish_completed_last, (prep_hashOnly ..).major]
      exact hs
    · exact postedMajor_zero
  | hfin alg =>
    simp only [engineRun, runHfin]
    split
    · rw [Ended.completed_last, Run.update_st]
      split <;> exact postedMajor_post _
    · exact postedMajor_zero
  | srst => exact postedMajor_zero
  | bset | bclr | bfree =>
    unfold CommandFrame MemoryOnly at hframe
    rw [hframe]
    exact hs
  | btst | btstc | bfind =>
    unfold CommandFrame ResultOnly at hframe
    rw [hframe]
    exact hs
  | hinit _ | hmd4 | htea | nop | clrst => exact hs

/-! ### The engine -/

/-- Every error, of a command or of an ILLEGAL word, is reported with a code that is not NONE (R71, R72). -/
theorem Inv.raise {s : State} (h : Inv s) {e : ErrCode} (he : e ≠ .noError) (info : Word) :
    Inv (s.raise e info) :=
  { h with
    busyNotDone := nofun
    foundNoError := nofun
    foundIndex := nofun
    errinfoZero := fun hnone => absurd hnone he }

/-- The flags of an ended command agree with each other, so the invariant asks of its body only what memory,
the caches and MAJOR hold (R13, R19, R45). -/
theorem Ended.state_inv {i : Instr} {e : Ended} (hflags : e.Flagged i) (hm : Memory.wf e.last.st.mem = true)
    (hmajor : PostedMajor e.last.st.major) (hunclean : e.last.st.unclean.Nodup)
    (hstale : e.last.st.stale.Nodup) (hfresh : e.last.st.fresh.Nodup) : Inv e.state := by
  obtain ⟨heven, hsentinel⟩ := hmajor
  cases e with
  | completed found r =>
    exact ⟨hm, heven, hsentinel, nofun, fun _ => rfl, fun h => (hflags h).2, fun _ => rfl, hunclean, hstale,
      hfresh⟩
  | raised e info r =>
    exact ⟨hm, heven, hsentinel, nofun, nofun, nofun, fun h => absurd h hflags.1, hunclean, hstale, hfresh⟩

/-- The bookkeeping and memory after a command: written through the master port by a writer, as before
otherwise (R29). -/
theorem engineRun_keeps_inv {s : State} (h : Inv s) (i : Instr) : Inv (engineRun i s).state := by
  have hflags := engineRun_flagged i s
  have hmajor := engineRun_postedMajor ⟨h.majorEven, h.majorNotSentinel⟩ i
  by_cases hi : Claims.Writer i
  · have hbody : Inv (engineRun i s).last.st := portStable_inv.engineRun hi s h
    exact Ended.state_inv hflags hbody.memWf hmajor hbody.uncleanNodup hbody.staleNodup hbody.freshNodup
  · obtain ⟨_, _, _, _, _, hmem, _, hunclean, _⟩ :=
      commandsWriteOnlyTheirRegisters i s _ (exec_eq i s)
    obtain ⟨hmem, hstale, hfresh⟩ := hmem hi
    rw [Ended.state_frame] at hmem hstale hfresh hunclean
    exact Ended.state_inv hflags (hmem ▸ h.memWf) hmajor (hunclean ▸ h.uncleanNodup)
      (hstale ▸ h.staleNodup) (hfresh ▸ h.freshNodup)

theorem wordRun_keeps_inv {s : State} (h : Inv s) (c : Word) : Inv (wordRun c s).state := by
  unfold wordRun
  cases decode c with
  | command i => exact engineRun_keeps_inv h i
  | illegal why => exact h.raise (by decide) c

theorem engineStep_keeps_inv {c : Word} {s t : State} (hs : Inv s) (h : engineStep c s = .next t) :
    Inv t := by
  rw [engineStep_eq] at h
  injection h with h
  exact h ▸ wordRun_keeps_inv hs c

theorem engineTurn_keeps_inv {s t : State} (hs : Inv s) (h : engineTurn s = .next t) : Inv t := by
  cases hp : s.phase with
  | idle =>
    rw [engineTurn_of_idle hp] at h
    injection h with h
    exact h ▸ hs
  | busy c => exact engineStep_keeps_inv hs (engineTurn_of_busy hp ▸ h)

/-- Settles O58: whosever turn it is, what the turn does keeps the invariant. -/
theorem invariantKept : Obligations.InvariantKept := by
  intro s t hs h
  rcases step_cases s with ⟨_, he⟩ | ⟨rest, _, he⟩ | ⟨e, rest, _, he⟩ | ⟨agent, rest, _, _, he⟩ |
    ⟨agent, rest, c, _, _, he⟩ <;> rw [he] at h
  · exact engineTurn_keeps_inv hs h
  · exact engineTurn_keeps_inv (hs.withPending rest) h
  · exact handle_keeps_inv (hs.withPending rest) h
  · injection h with h
    exact h ▸ (hs.withPending rest).answer _
  · exact engineStep_keeps_inv hs h

end Sys2Proof.Machine
end

section
/-! PROOFS. A command's accesses and the memory it leaves (spec/20_memory.md R29): every access lies in the
footprint R29 lists, and a byte outside it is as before. -/

namespace Sys2Proof.Machine

open Sys2Proof.Claims

/-! ### The accesses R29 allows a command -/

/-- The access is at an address R29 lists for the command, and a write only if the command is one that
writes. -/
def Access.Allowed (i : Instr) (s : State) (x : Access) : Prop :=
  Touches s x.addr i ∧ ∀ a v, x = .write a v → Claims.Writer i

theorem Access.allowed_of_writer {i : Instr} (hi : Claims.Writer i) {s : State} {x : Access}
    (hx : Touches s x.addr i) : x.Allowed i s := ⟨hx, fun _ _ _ => hi⟩

theorem Access.allowed_read {i : Instr} {s : State} {a : Nat} (ha : Touches s a i) :
    (Access.read a).Allowed i s := ⟨ha, nofun⟩

/-- The bytes of a range of bits are those from its first bit's to its last bit's (R29). -/
theorem BitsOf.span {i n k : Nat} (h : BitsOf i n k) : 0 < n ∧ i / 8 ≤ k ∧ k ≤ (i + n - 1) / 8 := by
  obtain ⟨j, hfirst, hlast, rfl⟩ := h
  exact ⟨by omega, Nat.div_le_div_right hfirst, Nat.div_le_div_right (by omega)⟩

/-- BFREE's footprint holds the buffer bytes of the bits it clears (R29, R44). -/
theorem touches_bfree {s : State} {x : Access}
    (hx : BufferAccess s (BitsOf s.arg0.toNat s.arg1.toNat) x) : Touches s x.addr .bfree := by
  obtain ⟨k, hbits, hlen, haddr, _⟩ := hx
  obtain ⟨hpos, hfirst, hlast⟩ := hbits.span
  exact ⟨hpos, k, hfirst, hlast, hlen, haddr⟩

/-- BFIND's footprint holds the buffer bytes of the bits it scans, of which ARG1 is the end (R29, R45). -/
theorem touches_bfind {s : State} {x : Access}
    (hx : BufferAccess s (BitsOf s.arg0.toNat (s.arg1.toNat - s.arg0.toNat)) x) :
    Touches s x.addr .bfind := by
  obtain ⟨k, hbits, hlen, haddr, _⟩ := hx
  obtain ⟨hpos, hfirst, hlast⟩ := hbits.span
  exact ⟨by omega, k, hfirst, by omega, hlen, haddr⟩

/-- BTST and BTSTC read the byte of their bit, and only inside the buffer (R42, R43). -/
theorem testBit_extends {F : Access → Prop} {f : Bool → Word} {i : Nat} {r : Run}
    (hF : r.st.inBuffer (byteOf i) = true → F (.read (r.st.bitmapAddr (byteOf i)))) :
    Extends F r (testBit f i r).last := by
  unfold testBit
  split
  · next hb =>
    exact Port.finish_keeps (R := Extends F) Extends.trans (memRead_extends fun _ => hF hb)
      fun _ _ => Extends.of_noAccess rfl rfl
  · exact Extends.refl F r

/-- HASH on supported operands reads only bytes of the name, whatever its family (R29, R56). -/
theorem hashName_extends {s : State} (alg : Nat) {r : Run} (hr : HashOnly s r.st) :
    Extends (NameRead s fun k => k < s.nameLen.toNat) r (hashName alg r).last := by
  unfold hashName
  split
  · exact Port.finish_keeps (R := Extends _) Extends.trans (hashChunks_extends teaBlock_blockOnly hr)
      fun _ _ => Extends.of_noAccess rfl rfl
  · exact Port.finish_keeps (R := Extends _) Extends.trans (hashChunks_extends md4Block_blockOnly hr)
      fun _ _ => Extends.of_noAccess rfl rfl
  · exact Port.finish_keeps (R := Extends _) Extends.trans (legacy_extends hr)
      fun _ _ => Extends.of_noAccess rfl rfl

theorem State.nameLenOk_iff {s : State} :
    s.nameLenOk = true ↔ 1 ≤ s.nameLen.toNat ∧ s.nameLen.toNat ≤ 255 := by simp [State.nameLenOk]

theorem State.hashOk_iff {s : State} {alg : Nat} :
    s.hashOk alg = true ↔ (1 ≤ s.nameLen.toNat ∧ s.nameLen.toNat ≤ 255) ∧ alg ≤ 5 := by
  simp [State.hashOk, State.nameLenOk_iff, algOk]

theorem State.hprepOk_iff {s : State} {alg : Nat} :
    s.hprepOk alg = true ↔
      ((1 ≤ s.nameLen.toNat ∧ s.nameLen.toNat ≤ 255) ∧ alg ≤ 5) ∧ s.nameOff.toNat < s.nameLen.toNat := by
  simp [State.hprepOk, State.nameLenOk_iff, algOk]

theorem runHash_allowed (alg : Nat) (seeded : Bool) (s : State) :
    Extends (Access.Allowed (.hash alg seeded) s) (Run.start s) (runHash alg seeded s).last := by
  unfold runHash
  split
  · next hok =>
    obtain ⟨⟨hpos, hmax⟩, halg⟩ := State.hashOk_iff.1 hok
    have hinit : Extends (Access.Allowed (.hash alg seeded) s) (Run.start s)
        ((Run.start s).update (State.initHash seeded)) := Extends.of_noAccess rfl rfl
    refine hinit.trans ((hashName_extends alg (s := s) (HashOnly.setH _ _)).mono fun x hx => ?_)
    obtain ⟨k, hk, rfl, _⟩ := hx
    exact Access.allowed_read ⟨hpos, hmax, halg, k, hk, rfl⟩
  · exact Extends.of_noAccess rfl rfl

theorem runHprep_allowed (alg : Nat) (s : State) :
    Extends (Access.Allowed (.hprep alg) s) (Run.start s) (runHprep alg s).last := by
  unfold runHprep
  split
  · next hok =>
    obtain ⟨⟨⟨hpos, hmax⟩, halg⟩, hoff⟩ := State.hprepOk_iff.1 hok
    rw [Port.finish_completed_last]
    refine (prep_extends (HashOnly.refl s)).mono fun x hx => ?_
    obtain ⟨k, ⟨hfirst, hlast⟩, rfl, _⟩ := hx
    exact Access.allowed_read ⟨hpos, hmax, halg, hoff, k - s.nameOff.toNat, by omega, by omega⟩
  · exact Extends.of_noAccess rfl rfl

/-- R29 for every command: what its run performs, it is allowed. -/
theorem engineRun_allowed (i : Instr) (s : State) :
    Extends (Access.Allowed i s) (Run.start s) (engineRun i s).last := by
  cases i with
  | bset | bclr =>
    simp only [engineRun, runBset, runBclr, Port.finish_completed_last]
    refine (modifyBit_extends (P := (· = byteOf s.arg0.toNat)) (MemoryOnly.refl s) rfl).mono fun x hx => ?_
    obtain ⟨k, rfl, hlen, haddr, _⟩ := hx
    exact Access.allowed_of_writer (by simp [Claims.Writer]) ⟨hlen, haddr⟩
  | btst | btstc =>
    simp only [engineRun, runBtst, runBtstc]
    exact testBit_extends fun hb => Access.allowed_read ⟨State.inBuffer_iff.1 hb, rfl⟩
  | bfree =>
    simp only [engineRun, runBfree, Port.finish_completed_last]
    exact (freeRange_extends (MemoryOnly.refl s)).mono fun x hx =>
      Access.allowed_of_writer (.inr (.inr rfl)) (touches_bfree hx)
  | bfind =>
    refine (findClear_extends (ReadsOnly.refl s)).mono fun x hx => ?_
    obtain ⟨hbits, hread⟩ := hx
    rw [hread]
    exact Access.allowed_read (touches_bfind hbits)
  | hash alg seeded => exact runHash_allowed alg seeded s
  | hprep alg => exact runHprep_allowed alg s
  | hfin alg =>
    have hframe := engineRun_frame (.hfin alg) s
    refine Extends.of_noAccess ?_ (by rw [hframe]; rfl)
    simp only [engineRun, runHfin]
    split <;> rfl
  | hinit _ | hmd4 | htea | nop | clrst | srst => exact Extends.of_noAccess rfl rfl

/-- Settles O39: the trace of a command holds what its run performed. -/
theorem accessesStayInFootprint : Obligations.AccessesStayInFootprint := by
  intro i s x hx
  obtain ⟨l, htrace, hallowed, _⟩ := engineRun_allowed i s
  rw [Ended.trace, htrace] at hx
  exact hallowed x hx

/-! ### The bytes a command does not write -/

/-- The hosts' copies of the byte are as far behind as before. -/
def SameCopies (b : Nat) (s t : State) : Prop :=
  (b ∈ t.stale ↔ b ∈ s.stale) ∧ ∀ n : Nat, (⟨n, b⟩ : HostByte) ∈ t.fresh ↔ ⟨n, b⟩ ∈ s.fresh

theorem SameCopies.refl (b : Nat) (s : State) : SameCopies b s s := ⟨Iff.rfl, fun _ => Iff.rfl⟩

theorem SameCopies.trans {b : Nat} {s t u : State} (h1 : SameCopies b s t) (h2 : SameCopies b t u) :
    SameCopies b s u := ⟨h2.1.trans h1.1, fun n => (h2.2 n).trans (h1.2 n)⟩

theorem SameCopies.of_readsOnly {s t : State} (h : ReadsOnly s t) (b : Nat) : SameCopies b s t := by
  rw [h]
  exact SameCopies.refl b s

/-- A write of another byte leaves the copies of this one alone (R32). -/
theorem SameCopies.storeByte_other {a b : Nat} (hab : b ≠ a) (v : Byte) (s : State) :
    SameCopies b s (s.storeByte a v) := by
  rw [SameCopies, State.storeByte_stale, State.storeByte_fresh]
  split <;> simp [hab]

/-- The later run goes on from the earlier one, and unless it has written the byte the hosts' copies of it
are the same. -/
def CopiesKept (b : Nat) (r r' : Run) : Prop :=
  r.trace <+: r'.trace ∧ ((∀ v, Access.write b v ∉ r'.trace) → SameCopies b r.st r'.st)

theorem CopiesKept.refl (b : Nat) (r : Run) : CopiesKept b r r :=
  ⟨List.prefix_rfl, fun _ => SameCopies.refl b r.st⟩

theorem CopiesKept.trans {b : Nat} {x y z : Run} (hxy : CopiesKept b x y) (hyz : CopiesKept b y z) :
    CopiesKept b x z := by
  obtain ⟨hpre, hkeep⟩ := hxy
  obtain ⟨hpre', hkeep'⟩ := hyz
  have hy (hz : ∀ v, Access.write b v ∉ z.trace) : ∀ v, Access.write b v ∉ y.trace :=
    fun v hv => hz v (hpre'.subset hv)
  exact ⟨hpre.trans hpre', fun hz => (hkeep (hy hz)).trans (hkeep' hz)⟩

theorem portStable_copiesKept (b : Nat) : PortStable (CopiesKept b) where
  refl := CopiesKept.refl b
  trans := CopiesKept.trans
  read a r := by
    rcases memRead_cases a r with ⟨_, he⟩ | ⟨_, he⟩ <;> rw [he]
    · exact ⟨List.prefix_append .., fun _ => SameCopies.of_readsOnly (State.afterRead_eq r.st a) b⟩
    · exact CopiesKept.refl b r
  write a v r := by
    rcases memWrite_cases a v r with ⟨_, he⟩ | ⟨_, he⟩ <;> rw [he]
    · refine ⟨List.prefix_append .., fun hw => SameCopies.storeByte_other ?_ v r.st⟩
      rintro rfl
      exact hw v (by simp)
    · exact CopiesKept.refl b r

/-- A command writes no byte outside its footprint (R29). -/
theorem engineRun_writes_only_touched {i : Instr} {s : State} {b : Nat} (hb : ¬ Touches s b i) (v : Byte) :
    Access.write b v ∉ (engineRun i s).trace :=
  fun h => hb (accessesStayInFootprint i s _ h).1

/-- A byte a command does not write reads as before (R26, R29). -/
theorem engineRun_read_untouched {i : Instr} {s : State} {b : Nat} (hm : Memory.wf s.mem = true)
    (hb : ¬ Touches s b i) :
    Memory.read (engineRun i s).last.st.mem b = Memory.read s.mem b := by
  obtain ⟨l, htrace, hfits, hmem⟩ := engineRun_fits i s
  have hl : (engineRun i s).trace = l := htrace
  rw [hmem]
  exact replayMemory_read_other hm hfits fun v => hl ▸ engineRun_writes_only_touched hb v

/-- Settles O40: the byte is not written, so memory and, in a writer, the copies of the byte are kept; the
other commands change no bookkeeping at all (`commandsWriteOnlyTheirRegisters`). -/
theorem memoryOutsideFootprintKept : Obligations.MemoryOutsideFootprintKept := by
  intro i s t b hm h hb
  obtain ⟨_, _, _, _, _, hother, _, hunclean, _⟩ := commandsWriteOnlyTheirRegisters i s t h
  obtain rfl := exec_next_iff.1 h
  have hread : Memory.read (engineRun i s).state.mem b = Memory.read s.mem b := by
    rw [Ended.state_frame]
    exact engineRun_read_untouched hm hb
  by_cases hi : Claims.Writer i
  · obtain ⟨_, hkept⟩ := (portStable_copiesKept b).engineRun hi s
    obtain ⟨hstale, hfresh⟩ := hkept (engineRun_writes_only_touched hb)
    rw [Ended.state_frame] at hunclean hread ⊢
    exact ⟨hread, hstale, hfresh, hunclean⟩
  · obtain ⟨_, hstale, hfresh⟩ := hother hi
    exact ⟨hread, by rw [hstale], fun n => by rw [hfresh], hunclean⟩

end Sys2Proof.Machine
end

section
/-! PROOFS. The master port and the hosts' caches (spec/20_memory.md R26, R31, R32): when an access
completes and what it does, and what a host's own cache maintenance gives and another host's does not. -/

namespace Sys2Proof.Machine

open Sys2Proof.Claims

/-! ### The master port -/

theorem Region.grants_iff {g : Region} {a : Nat} {k : AccessKind} :
    Region.grants g a k = true ↔
      g.base ≤ a ∧ a < g.base + g.size ∧
        (k = .read → g.readable = true) ∧ (k = .write → g.writable = true) := by
  cases k <;> simp [Region.grants, and_assoc]

theorem Platform.inWindow_iff {p : Platform} {a : Nat} :
    Platform.inWindow p a = true ↔ p.base.toNat ≤ a ∧ a < p.base.toNat + 256 := by
  simp only [Platform.inWindow, decide_eq_true_eq]
  exact Iff.rfl

/-- R26 and R6: the conditions under which an access completes. -/
theorem State.portOk_iff {s : State} {a : Nat} {k : AccessKind} :
    s.portOk a k = true ↔
      a < 2 ^ 32 ∧ ¬ Platform.inWindow s.platform a = true ∧
        ∃ g ∈ s.platform.memMap, Region.grants g a k = true := by
  simp only [State.portOk, Platform.memOk, Bool.and_eq_true, decide_eq_true_eq, List.any_eq_true,
    Bool.not_eq_true', Bool.not_eq_true]
  exact and_congr Iff.rfl and_comm

/-- Settles O42: `memRead` and `memWrite` case by case, and the laws of memory for the byte written. -/
theorem masterPortAccess : Obligations.MasterPortAccess := by
  refine ⟨fun s a k => ?_, fun r a h => memRead_err h, fun r a h => memRead_seen h.1 h.2,
    fun r a v h => memWrite_err h, fun r a v h hm => ?_⟩
  · simp only [State.portOk_iff, Platform.inWindow_iff, Region.grants_iff]
  · exact ⟨_, memWrite_ok h, rfl, rfl, Memory.read_write hm a v⟩

/-! ### Events from outside while the engine is Idle -/

theorem step_of_pending_external {s : State} {e : Event} {rest : List Turn}
    (h : s.pending = .external e :: rest) : step s = handle e (s.withPending rest) := by
  simp only [step, h]

/-- An Idle engine has no footprint to stay clear of (R90). -/
theorem State.hazard_of_idle {s : State} (h : s.phase = .idle) (a : Nat) : s.hazard a = false := by
  simp only [State.hazard, h]

/-- A host's access outside the window goes through while the engine is Idle (R68, R90). -/
theorem memoryAccess_of_idle {s : State} {addr : Word} (hs : s.phase = .idle)
    (hw : Platform.inWindow s.platform addr.toNat = false) (agent : Agent) (act : State → State) :
    s.memoryAccess agent addr act = .next (act s) :=
  memoryAccess_next_iff.2 ⟨hw, State.hazard_of_idle hs _, rfl⟩

theorem maintenance_of_idle {s : State} (hs : s.phase = .idle) (host : Nat) (addr : Word)
    (act : State → State) : s.maintenance host addr act = .next (act s) :=
  maintenance_next_iff.2 ⟨by simp [State.hazard_of_idle hs], rfl⟩

section
variable {s : State} {addr : Word} {rest : List Turn}

theorem step_of_pending_memRead {agent : Agent} (hs : s.phase = .idle)
    (hw : Platform.inWindow s.platform addr.toNat = false)
    (h : s.pending = .external (.memRead agent addr) :: rest) :
    step s = .next ((s.withPending rest).sysRead agent addr.toNat) :=
  (step_of_pending_external h).trans (memoryAccess_of_idle (s := s.withPending rest) hs hw ..)

theorem step_of_pending_memWrite {agent : Agent} {v : Byte} (hs : s.phase = .idle)
    (hw : Platform.inWindow s.platform addr.toNat = false)
    (h : s.pending = .external (.memWrite agent addr v) :: rest) :
    step s = .next ((s.withPending rest).sysWrite agent addr.toNat v) :=
  (step_of_pending_external h).trans (memoryAccess_of_idle (s := s.withPending rest) hs hw ..)

theorem step_of_pending_clean {n : Nat} (hs : s.phase = .idle)
    (h : s.pending = .external (.clean n addr) :: rest) :
    step s = .next ((s.withPending rest).cleanByte n addr.toNat) :=
  (step_of_pending_external h).trans (maintenance_of_idle (s := s.withPending rest) hs ..)

theorem step_of_pending_invalidate {n : Nat} (hs : s.phase = .idle)
    (h : s.pending = .external (.invalidate n addr) :: rest) :
    step s = .next ((s.withPending rest).invalidateByte n addr.toNat) :=
  (step_of_pending_external h).trans (maintenance_of_idle (s := s.withPending rest) hs ..)
end

/-! ### What the bookkeeping says after each operation -/

/-- Marking a host's copy clean ends that host's omission and no other's (R32). -/
theorem State.markClean_hostUnclean {s : State} {m n a : Nat} :
    (s.markClean m a).hostUnclean n a = true ↔ n ≠ m ∧ s.hostUnclean n a = true := by
  simp only [State.hostUnclean_iff, State.markClean_platform, State.markClean_unclean, mem_dropFrom, ne_eq,
    HostByte.mk.injEq, and_true]
  tauto

/-- Once a byte has changed, every host's copy may be behind but that of the one that saw it (R32). -/
theorem State.overtake_hostBehind {s : State} (hc : s.platform.coherent = false) {seer : Option Nat}
    {n : Nat} (hn : seer ≠ some n) (a : Nat) : (s.overtake seer a).hostBehind n a = true := by
  simp [State.hostBehind_iff, hc, hn]

theorem State.hostStore_hostUnclean_other {s : State} {n m : Nat} (hm : m ≠ n) (a : Nat) (v : Byte) :
    (s.hostStore n a v).hostUnclean m a = true ↔ s.hostUnclean m a = true := by
  simp only [State.hostUnclean_iff, State.hostStore_platform, State.hostStore_unclean]
  split <;> simp [hm]

/-- A host that has just written a byte is not behind on it (R31 item 2). -/
theorem State.hostStore_hostBehind {s : State} (hc : s.platform.coherent = false) (n a : Nat) (v : Byte) :
    (s.hostStore n a v).hostBehind n a = false := by
  simp [← Bool.not_eq_true, State.hostBehind_iff, hc]

/-- A host that has just invalidated a byte is not behind on it (R31 item 3). -/
theorem State.markFresh_hostBehind {s : State} (hc : s.platform.coherent = false) (n a : Nat) :
    (s.markFresh n a).hostBehind n a = false := by
  simp [← Bool.not_eq_true, State.hostBehind_iff, hc]

theorem State.engineBlind_eq_false_iff {s : State} {a : Nat} :
    s.engineBlind a = false ↔ ∀ n, s.hostUnclean n a = false := by
  simp [← Bool.not_eq_true, State.engineBlind_iff]

@[simp] theorem State.cleanByte_pending (n a : Nat) (s : State) :
    (s.cleanByte n a).pending = s.pending := by
  rcases cleanByte_cases n a s with ⟨_, h⟩ | ⟨_, _, h⟩ | ⟨_, _, h⟩ <;> simp [h]

@[simp] theorem State.invalidateByte_pending (n a : Nat) (s : State) :
    (s.invalidateByte n a).pending = s.pending := by
  rcases invalidateByte_cases n a s with ⟨_, h⟩ | ⟨_, h⟩ <;> simp [h]

/-! ### What maintenance leaves of the other hosts' omissions -/

/-- What a host `m`'s maintenance of a byte does to the copies: its own is clean, the others' are clean or
not as before, the others that were behind stay so, and if `m` had something to clean they all are. -/
structure Maintained (m a : Nat) (s t : State) : Prop where
  platform : t.platform = s.platform
  unclean : ∀ n, t.hostUnclean n a = true ↔ n ≠ m ∧ s.hostUnclean n a = true
  behind : ∀ n, n ≠ m → s.hostBehind n a = true → t.hostBehind n a = true
  overtaken : s.hostUnclean m a = true → ∀ n, n ≠ m → t.hostBehind n a = true

/-- Maintenance of an unclean copy changes the byte for all but, at most, its own host. -/
theorem Maintained.of_overtake {m a : Nat} {s t : State} (hm : s.hostUnclean m a = true)
    {seer : Option Nat} (hseer : ∀ n, n ≠ m → seer ≠ some n) (hp : t.platform = s.platform)
    (hu : ∀ n, t.hostUnclean n a = ((s.overtake seer a).markClean m a).hostUnclean n a)
    (hb : ∀ n, t.hostBehind n a = (s.overtake seer a).hostBehind n a) : Maintained m a s t := by
  obtain ⟨hc, _⟩ := State.hostUnclean_iff.1 hm
  have hover : ∀ n, n ≠ m → t.hostBehind n a = true := fun n hn =>
    (hb n).trans (State.overtake_hostBehind hc (hseer n hn) a)
  exact ⟨hp, fun n => by rw [hu, State.markClean_hostUnclean]; rfl, fun n hn _ => hover n hn,
    fun _ => hover⟩

/-- Maintenance of a clean copy can only make this host's own copy fresh. -/
theorem Maintained.of_clean {m a : Nat} {s t : State} (hm : s.hostUnclean m a = false)
    (hp : t.platform = s.platform) (hu : ∀ n, t.hostUnclean n a = s.hostUnclean n a)
    (hb : ∀ n, n ≠ m → t.hostBehind n a = s.hostBehind n a) : Maintained m a s t where
  platform := hp
  unclean n := by
    rw [hu]
    exact ⟨fun h => ⟨fun e => by simp [← e, h] at hm, h⟩, fun h => h.2⟩
  behind n hn h := (hb n hn).trans h
  overtaken h := by simp [hm] at h

theorem cleanByte_maintained (m a : Nat) (s : State) : Maintained m a s (s.cleanByte m a) := by
  rcases cleanByte_cases m a s with ⟨hm, h⟩ | ⟨hm, _, h⟩ | ⟨hm, _, h⟩ <;> rw [h]
  · exact .of_clean hm rfl (fun _ => rfl) fun _ _ => rfl
  · exact .of_overtake hm (seer := none) (by simp) rfl (fun _ => rfl) fun _ => rfl
  · exact .of_overtake hm (seer := some m) (by simp [eq_comm]) rfl (fun _ => rfl) fun _ => rfl

theorem State.markFresh_hostBehind_other {s : State} {m n : Nat} (hn : n ≠ m) (a : Nat) :
    (s.markFresh m a).hostBehind n a = s.hostBehind n a := by
  rw [Bool.eq_iff_iff, State.hostBehind_iff, State.hostBehind_iff, State.markFresh_fresh]
  split <;> simp [hn]

theorem invalidateByte_maintained (m a : Nat) (s : State) : Maintained m a s (s.invalidateByte m a) := by
  rcases invalidateByte_cases m a s with ⟨hm, h⟩ | ⟨hm, h⟩ <;> rw [h]
  · exact .of_clean hm rfl (fun _ => rfl) fun _ hn => State.markFresh_hostBehind_other hn a
  · exact .of_overtake hm (seer := some m) (by simp [eq_comm]) rfl (fun _ => rfl) fun _ => rfl

/-- Another host's unclean copy still hides the byte from the engine (R32). -/
theorem Maintained.engineBlind {m n a : Nat} {s t : State} (h : Maintained m a s t) (hn : n ≠ m)
    (hu : s.hostUnclean n a = true) : t.hostUnclean n a = true ∧ t.engineBlind a = true := by
  have ht : t.hostUnclean n a = true := (h.unclean n).2 ⟨hn, hu⟩
  exact ⟨ht, State.engineBlind_iff.2 ⟨n, ht⟩⟩

/-- What hides the byte from host `n` is its own copy being behind, a third host's unclean copy, or `m`'s:
the first two stay, and `m`'s maintenance of its unclean copy leaves `n` behind (R31 item 3, R32). -/
theorem Maintained.hostBlind {m n a : Nat} {s t : State} (h : Maintained m a s t) (hn : n ≠ m)
    (hb : s.hostBlind n a = true) : t.hostBlind n a = true := by
  rw [State.hostBlind_iff, h.platform]
  rcases State.hostBlind_iff.1 hb with ⟨hc, hbehind⟩ | ⟨k, hk, hu⟩
  · exact .inl ⟨hc, h.behind n hn hbehind⟩
  · by_cases hkm : k = m
    · subst hkm
      exact .inl ⟨(State.hostUnclean_iff.1 hu).1, h.overtaken hu n hn⟩
    · exact .inr ⟨k, hk, (h.unclean k).2 ⟨hkm, hu⟩⟩

/-- Settles O45: both kinds of maintenance are `Maintained`. -/
theorem maintenanceIsEachHostsOwn : Obligations.MaintenanceIsEachHostsOwn := by
  intro s n m addr rest hs hmn h
  have hnm : n ≠ m := Ne.symm hmn
  rcases h with h | h
  · have hmaint := cleanByte_maintained m addr.toNat (s.withPending rest)
    exact ⟨_, step_of_pending_clean hs h, State.cleanByte_pending .., hmaint.engineBlind hnm,
      hmaint.hostBlind hnm⟩
  · have hmaint := invalidateByte_maintained m addr.toNat (s.withPending rest)
    exact ⟨_, step_of_pending_invalidate hs h, State.invalidateByte_pending .., hmaint.engineBlind hnm,
      hmaint.hostBlind hnm⟩

/-! ### A host's own maintenance -/

/-- A host that cleans what it has written itself leaves memory as its write made it (R32). -/
theorem cleanByte_hostStore_mem (n a : Nat) (v : Byte) (s : State) :
    ((s.hostStore n a v).cleanByte n a).mem = Memory.write s.mem a v := by
  rcases cleanByte_cases n a (s.hostStore n a v) with ⟨_, h⟩ | ⟨hu, hb, _⟩ | ⟨_, _, h⟩
  · rw [h]; rfl
  · have hc : s.platform.coherent = false := (State.hostUnclean_iff.1 hu).1
    rw [State.hostStore_hostBehind hc] at hb
    contradiction
  · rw [h]; rfl

/-- The engine reads what a host wrote and cleaned, if no other host hides the byte (R31 item 2, R32). -/
theorem cleanByte_hostStore_readValue {s : State} {n a : Nat} (hm : Memory.wf s.mem = true)
    (hother : ∀ m, m ≠ n → s.hostUnclean m a = false) (v : Byte) :
    ((s.hostStore n a v).cleanByte n a).readValue a = v := by
  have hclean : ∀ m, ((s.hostStore n a v).cleanByte n a).hostUnclean m a = false := by
    intro m
    rw [← Bool.not_eq_true, (cleanByte_maintained n a _).unclean m]
    rintro ⟨hmn, hu⟩
    rw [State.hostStore_hostUnclean_other hmn, hother m hmn] at hu
    contradiction
  rw [State.readValue_of_seen (State.engineBlind_eq_false_iff.2 hclean), cleanByte_hostStore_mem,
    Memory.read_write_same hm]

/-- Settles O43: the two steps are the host's store and its cleaning. -/
theorem engineSeesCleanedWrite : Obligations.EngineSeesCleanedWrite := by
  intro s n addr v rest hs hm hw hother h
  have hwrite := step_of_pending_memWrite hs hw h
  refine ⟨_, _, hwrite, step_of_pending_clean hs rfl, ?_, State.cleanByte_pending ..⟩
  exact cleanByte_hostStore_readValue (s := s.withPending rest) hm hother v

/-- A host that has nothing to clean and is not behind once it has invalidated its copy sees memory, if no
other host hides the byte (R31 item 3, R32). -/
theorem State.markFresh_hostBlind {s : State} {a : Nat} (h : s.engineBlind a = false) (n : Nat) :
    (s.markFresh n a).hostBlind n a = false := by
  rw [← Bool.not_eq_true, State.hostBlind_iff]
  rintro (⟨hc, hb⟩ | ⟨m, _, hu⟩)
  · rw [State.markFresh_hostBehind (s := s) hc] at hb
    contradiction
  · have hm : s.hostUnclean m a = true := hu
    rw [State.engineBlind_eq_false_iff.1 h m] at hm
    contradiction

/-- A byte that no host has to clean: invalidating it only makes the host's own copy fresh (R32). -/
theorem step_of_pending_invalidate_seen {s : State} {n : Nat} {addr : Word} {rest : List Turn}
    (hs : s.phase = .idle) (hblind : s.engineBlind addr.toNat = false)
    (h : s.pending = .external (.invalidate n addr) :: rest) :
    step s = .next ((s.withPending rest).markFresh n addr.toNat) := by
  have hclean : (s.withPending rest).hostUnclean n addr.toNat = false :=
    State.engineBlind_eq_false_iff.1 hblind n
  rw [step_of_pending_invalidate hs h, State.invalidateByte, hclean]
  rfl

/-- A read of a byte that is not hidden from the agent answers what memory holds (R26, R31 item 3). -/
theorem step_of_pending_memRead_seen {s : State} {agent : Agent} {addr : Word} {rest : List Turn}
    (hs : s.phase = .idle) (hw : Platform.inWindow s.platform addr.toNat = false)
    (hseen : s.agentBlind agent addr.toNat = false)
    (h : s.pending = .external (.memRead agent addr) :: rest) :
    step s = .next ((s.withPending rest).answer (.byte agent (Memory.read s.mem addr.toNat))) := by
  have hseen' : (s.withPending rest).agentBlind agent addr.toNat = false := hseen
  rw [step_of_pending_memRead hs hw h, State.sysRead, hseen']
  rfl

/-- Settles O44: with nothing to clean the host only makes its copy fresh, and then reads memory. -/
theorem hostSeesEngineWrite : Obligations.HostSeesEngineWrite := by
  intro s n addr rest hs hblind hw h
  have hinvalidate := step_of_pending_invalidate_seen hs hblind h
  have hseen := State.markFresh_hostBlind
    (s := s.withPending (.external (.memRead (.host n) addr) :: rest)) hblind n
  exact ⟨_, _, hinvalidate, step_of_pending_memRead_seen (agent := .host n) hs hw hseen rfl, rfl, rfl, rfl⟩

end Sys2Proof.Machine
end

section
/-! PROOFS. The command word (spec/30_encoding.md): its fields as numbers (R33, R34), the decoder and the
encoder as each other's inverse (R35, R38), the ILLEGAL words (R36), and a host's `setbit` (R39). -/

namespace Sys2Proof

open Sys2Proof.Machine Sys2Proof.Claims

variable {c : Word} {i : Instr}

/-! ### The fields of a word as numbers (R33, R34) -/

theorem opcField_eq (c : Word) : opcField c = c.toNat % 2 ^ 8 := by
  simp [opcField, BitVec.extractLsb'_toNat]

theorem algField_eq (c : Word) : algField c = c.toNat / 2 ^ 8 % 2 ^ 4 := by
  simp [algField, BitVec.extractLsb'_toNat, Nat.shiftRight_eq_div_pow]

theorem seedField_toNat (c : Word) : (seedField c).toNat = c.toNat / 2 ^ 12 % 2 := by
  rw [seedField, ← BitVec.testBit_toNat, Nat.toNat_testBit]

/-- The reserved bits of every format but S are those from some bit on. -/
theorem extractLsb'_eq_zero_iff {k n : Nat} (h : k + n = 32) (c : Word) :
    c.extractLsb' k n = 0#n ↔ c.toNat / 2 ^ k = 0 := by
  have hlt : c.toNat / 2 ^ k < 2 ^ n := by
    rw [Nat.div_lt_iff_lt_mul (by positivity), ← Nat.pow_add, Nat.add_comm n k, h]
    exact c.isLt
  rw [← BitVec.toNat_inj, BitVec.extractLsb'_toNat, Nat.shiftRight_eq_div_pow, Nat.mod_eq_of_lt hlt]
  rfl

/-- Without an S operand the reserved bits start at bit 12 (format A of R33). -/
theorem div_two_pow_12_eq_zero_iff :
    c.toNat / 2 ^ 12 = 0 ↔ seedField c = false ∧ c.toNat / 2 ^ 13 = 0 := by
  rw [← Bool.toNat_eq_zero, seedField_toNat]
  omega

/-- Without an ALG operand either they start at bit 8 (format Z of R33). -/
theorem div_two_pow_8_eq_zero_iff :
    c.toNat / 2 ^ 8 = 0 ↔ algField c = 0 ∧ seedField c = false ∧ c.toNat / 2 ^ 13 = 0 := by
  rw [← div_two_pow_12_eq_zero_iff, algField_eq]
  omega

theorem ite_command_eq_command_iff {p : Prop} [Decidable p] {i j : Instr} {why : Reject} :
    (if p then Decoded.command j else .illegal why) = .command i ↔ p ∧ j = i := by
  split <;> simp [*]

theorem ite_command_eq_illegal_iff {p : Prop} [Decidable p] {j : Instr} {why : Reject} :
    (∃ why', (if p then Decoded.command j else .illegal why) = .illegal why') ↔ ¬ p := by
  split <;> simp [*]

theorem formatZ_eq (c : Word) (i : Instr) :
    formatZ c i =
      if algField c = 0 ∧ seedField c = false ∧ c.toNat / 2 ^ 13 = 0 then .command i
      else .illegal .nonzeroReserved := by
  simp only [formatZ, extractLsb'_eq_zero_iff (show 8 + 24 = 32 from rfl), div_two_pow_8_eq_zero_iff]

theorem formatA_eq (c : Word) (f : Nat → Instr) :
    formatA c f =
      if seedField c = false ∧ c.toNat / 2 ^ 13 = 0 then .command (f (algField c))
      else .illegal .nonzeroReserved := by
  simp only [formatA, extractLsb'_eq_zero_iff (show 12 + 20 = 32 from rfl), div_two_pow_12_eq_zero_iff]

theorem formatAS_eq (c : Word) (f : Nat → Bool → Instr) :
    formatAS c f =
      if c.toNat / 2 ^ 13 = 0 then .command (f (algField c) (seedField c))
      else .illegal .nonzeroReserved := by
  simp only [formatAS, extractLsb'_eq_zero_iff (show 13 + 19 = 32 from rfl)]

theorem formatS_eq (c : Word) (f : Bool → Instr) :
    formatS c f =
      if c.toNat / 2 ^ 13 = 0 ∧ algField c = 0 then .command (f (seedField c))
      else .illegal .nonzeroReserved := by
  have halg : c.extractLsb' 8 4 = 0#4 ↔ algField c = 0 := BitVec.toNat_inj.symm
  simp only [formatS, extractLsb'_eq_zero_iff (show 13 + 19 = 32 from rfl), halg]

/-! ### Which words encode a command (R38) -/

theorem Instr.opcode_lt (i : Instr) : i.opcode < 2 ^ 8 := by
  cases i <;> exact of_decide_eq_true rfl

theorem Instr.algOperand_lt (h : i.wellFormed = true) : i.algOperand < 2 ^ 4 := by
  cases i with
  | hash | hprep | hfin => exact of_decide_eq_true h
  | _ => exact Nat.two_pow_pos 4

/-- The three fields of an encoding do not overlap, so joining them is adding them. -/
theorem encode_toNat (i : Instr) :
    (encode i).toNat = 2 ^ 12 * i.seedOperand.toNat + 2 ^ 8 * (i.algOperand % 16) + i.opcode := by
  have hopc := i.opcode_lt
  have hseed : (if i.seedOperand then 1#32 <<< 12 else 0#32).toNat = 2 ^ 12 * i.seedOperand.toNat := by
    cases i.seedOperand <;> rfl
  have halg : (BitVec.ofNat 32 (i.algOperand % 16) <<< 8).toNat = 2 ^ 8 * (i.algOperand % 16) := by
    simp only [BitVec.toNat_shiftLeft, BitVec.toNat_ofNat, Nat.shiftLeft_eq]
    omega
  have hopcode : (BitVec.ofNat 32 i.opcode).toNat = i.opcode := by
    rw [BitVec.toNat_ofNat]
    omega
  rw [encode, BitVec.toNat_or, BitVec.toNat_or, hseed, halg, hopcode,
    ← Nat.two_pow_add_eq_or_of_lt (by omega),
    show 2 ^ 12 * i.seedOperand.toNat + 2 ^ 8 * (i.algOperand % 16) =
      2 ^ 8 * (2 ^ 4 * i.seedOperand.toNat + i.algOperand % 16) by ring,
    ← Nat.two_pow_add_eq_or_of_lt hopc]

/-- A word is the encoding of a command exactly when its fields hold the command's operands and the bits
outside every field are 0 (R33). -/
theorem encode_eq_iff (h : i.wellFormed = true) :
    encode i = c ↔
      opcField c = i.opcode ∧ algField c = i.algOperand ∧ seedField c = i.seedOperand ∧
        c.toNat / 2 ^ 13 = 0 := by
  have hopc := i.opcode_lt
  have halg := Instr.algOperand_lt h
  have hs := Bool.toNat_lt i.seedOperand
  have hseed : seedField c = i.seedOperand ↔ c.toNat / 2 ^ 12 % 2 = i.seedOperand.toNat := by
    rw [← seedField_toNat]
    exact (Function.LeftInverse.injective Bool.ofNat_toNat).eq_iff.symm
  rw [← BitVec.toNat_inj, encode_toNat, opcField_eq, algField_eq, hseed]
  omega

/-! ### The decoder by format (R35) -/

theorem zOpcodes_eq : zOpcodes = formatZInstrs.map Instr.opcode := rfl

theorem zOpcodes_other_formats : ∀ n ∈ zOpcodes, n ∉ [0x12, 0x15] ∧ n ≠ 0x10 ∧ n ≠ 0x11 := by decide

theorem formatZInstrs_operands :
    ∀ i ∈ formatZInstrs, i.wellFormed = true ∧ i.algOperand = 0 ∧ i.seedOperand = false := by
  decide

theorem decode_of_formatZ (hi : i ∈ formatZInstrs) (h : opcField c = i.opcode) :
    decode c = formatZ c i := by
  unfold decode
  rw [h]
  cases i with
  | hash | hinit | hprep | hfin => simp [formatZInstrs] at hi
  | _ => rfl

theorem decode_of_hash (h : opcField c = 0x10) : decode c = formatAS c .hash := by
  simp only [decode, h]

theorem decode_of_hinit (h : opcField c = 0x11) : decode c = formatS c .hinit := by
  simp only [decode, h]

theorem decode_of_hprep (h : opcField c = 0x12) : decode c = formatA c .hprep := by
  simp only [decode, h]

theorem decode_of_hfin (h : opcField c = 0x15) : decode c = formatA c .hfin := by
  simp only [decode, h]

theorem decode_of_reserved (h : opcField c ∉ zOpcodes ++ [0x10, 0x11, 0x12, 0x15]) :
    decode c = .illegal .reservedOpcode := by
  unfold decode
  split
  case h_16 => rfl
  all_goals simp_all [zOpcodes]

/-- Every word has one of the four formats or a reserved OPC (R35). -/
theorem decode_cases (c : Word) :
    (∃ i ∈ formatZInstrs, opcField c = i.opcode ∧ decode c = formatZ c i) ∨
    (opcField c = 0x10 ∧ decode c = formatAS c .hash) ∨
    (opcField c = 0x11 ∧ decode c = formatS c .hinit) ∨
    (opcField c = 0x12 ∧ decode c = formatA c .hprep) ∨
    (opcField c = 0x15 ∧ decode c = formatA c .hfin) ∨
    (opcField c ∉ zOpcodes ++ [0x10, 0x11, 0x12, 0x15] ∧ decode c = .illegal .reservedOpcode) := by
  by_cases hz : opcField c ∈ zOpcodes
  · obtain ⟨i, hi, hopc⟩ := List.mem_map.1 (zOpcodes_eq ▸ hz)
    exact .inl ⟨i, hi, hopc.symm, decode_of_formatZ hi hopc.symm⟩
  by_cases hr : opcField c ∈ [0x10, 0x11, 0x12, 0x15]
  · simp only [List.mem_cons, List.not_mem_nil, or_false] at hr
    rcases hr with h | h | h | h
    · exact .inr (.inl ⟨h, decode_of_hash h⟩)
    · exact .inr (.inr (.inl ⟨h, decode_of_hinit h⟩))
    · exact .inr (.inr (.inr (.inl ⟨h, decode_of_hprep h⟩)))
    · exact .inr (.inr (.inr (.inr (.inl ⟨h, decode_of_hfin h⟩))))
  · have hres : opcField c ∉ zOpcodes ++ [0x10, 0x11, 0x12, 0x15] := by
      simp only [List.mem_append, hz, hr, or_self, not_false_eq_true]
    exact .inr (.inr (.inr (.inr (.inr ⟨hres, decode_of_reserved hres⟩))))

/-! ### The round trips -/

/-- The encoding's OPC selects the command's own format, whose reserved bits the encoding leaves 0. -/
theorem decode_encode (h : i.wellFormed = true) : decode (encode i) = .command i := by
  generalize hc : encode i = c
  obtain ⟨hopc, halg, hseed, htop⟩ := (encode_eq_iff h).1 hc
  cases i with
  | hash alg seeded =>
    rw [decode_of_hash hopc, formatAS_eq, if_pos htop, halg, hseed]
    rfl
  | hinit seeded =>
    rw [decode_of_hinit hopc, formatS_eq, if_pos ⟨htop, halg⟩, hseed]
    rfl
  | hprep alg =>
    rw [decode_of_hprep hopc, formatA_eq, if_pos ⟨hseed, htop⟩, halg]
    rfl
  | hfin alg =>
    rw [decode_of_hfin hopc, formatA_eq, if_pos ⟨hseed, htop⟩, halg]
    rfl
  | _ =>
    rw [decode_of_formatZ (by decide) hopc, formatZ_eq, if_pos ⟨halg, hseed, htop⟩]

/-- A format answers a command only when the bits it requires to be 0 are 0, and the other bits are the
command's operands. -/
theorem encode_of_decode (h : decode c = .command i) : i.wellFormed = true ∧ encode i = c := by
  have hfits : algFits (algField c) = true := by
    rw [algField_eq]
    exact decide_eq_true (Nat.mod_lt _ (by decide))
  rcases decode_cases c with ⟨j, hj, hopc, hd⟩ | ⟨hopc, hd⟩ | ⟨hopc, hd⟩ | ⟨hopc, hd⟩ | ⟨hopc, hd⟩ |
    ⟨_, hd⟩ <;> rw [hd] at h
  · obtain ⟨⟨halg, hseed, htop⟩, rfl⟩ := ite_command_eq_command_iff.1 (formatZ_eq c j ▸ h)
    obtain ⟨hwf, hnoAlg, hnoSeed⟩ := formatZInstrs_operands j hj
    exact ⟨hwf, (encode_eq_iff hwf).2 ⟨hopc, halg.trans hnoAlg.symm, hseed.trans hnoSeed.symm, htop⟩⟩
  · obtain ⟨htop, rfl⟩ := ite_command_eq_command_iff.1 (formatAS_eq c _ ▸ h)
    exact ⟨hfits, (encode_eq_iff (i := .hash _ _) hfits).2 ⟨hopc, rfl, rfl, htop⟩⟩
  · obtain ⟨⟨htop, halg⟩, rfl⟩ := ite_command_eq_command_iff.1 (formatS_eq c _ ▸ h)
    exact ⟨rfl, (encode_eq_iff (i := .hinit _) rfl).2 ⟨hopc, halg, rfl, htop⟩⟩
  · obtain ⟨⟨hseed, htop⟩, rfl⟩ := ite_command_eq_command_iff.1 (formatA_eq c _ ▸ h)
    exact ⟨hfits, (encode_eq_iff (i := .hprep _) hfits).2 ⟨hopc, rfl, hseed, htop⟩⟩
  · obtain ⟨⟨hseed, htop⟩, rfl⟩ := ite_command_eq_command_iff.1 (formatA_eq c _ ▸ h)
    exact ⟨hfits, (encode_eq_iff (i := .hfin _) hfits).2 ⟨hopc, rfl, hseed, htop⟩⟩
  · contradiction

/-- Settles O1: the fields of the encoding are the operands of the command. -/
theorem decodeOfEncode : Obligations.DecodeOfEncode := fun _ h => decode_encode h

/-- Settles O2: a decoded word is its fields, and these are the operands of the command it stands for. -/
theorem encodeOfDecode : Obligations.EncodeOfDecode := fun _ _ h => encode_of_decode h

/-- Settles O3: each word is the encoding of its command. -/
theorem decodeSampleWords : Obligations.DecodeSampleWords :=
  ⟨decode_encode (i := .bset) rfl, decode_encode (i := .bfind) rfl, decode_encode (i := .hash 2 true) rfl,
    decode_encode (i := .hash 15 true) rfl, decode_encode (i := .hinit true) rfl,
    decode_encode (i := .hprep 5) rfl, decode_encode (i := .hfin 15) rfl, decode_encode (i := .srst) rfl⟩

/-! ### ILLEGAL words (R36) -/

/-- R36 in the words of the formats: a reserved OPC, or a format whose required zeros are not there. -/
theorem malformed_iff (c : Word) :
    Malformed c ↔
      opcField c ∉ zOpcodes ++ [0x10, 0x11, 0x12, 0x15] ∨
      (opcField c ∈ zOpcodes ∧ ¬ (algField c = 0 ∧ seedField c = false ∧ c.toNat / 2 ^ 13 = 0)) ∨
      (opcField c ∈ [0x12, 0x15] ∧ ¬ (seedField c = false ∧ c.toNat / 2 ^ 13 = 0)) ∨
      (opcField c = 0x10 ∧ ¬ c.toNat / 2 ^ 13 = 0) ∨
      (opcField c = 0x11 ∧ ¬ (c.toNat / 2 ^ 13 = 0 ∧ algField c = 0)) := by
  rw [← div_two_pow_8_eq_zero_iff, ← div_two_pow_12_eq_zero_iff, opcField_eq, algField_eq, not_and_or]
  exact Iff.rfl

theorem decode_illegal_iff_malformed (c : Word) : (∃ why, decode c = .illegal why) ↔ Malformed c := by
  rw [malformed_iff]
  rcases decode_cases c with ⟨j, hj, hopc, hd⟩ | ⟨hopc, hd⟩ | ⟨hopc, hd⟩ | ⟨hopc, hd⟩ | ⟨hopc, hd⟩ |
    ⟨hres, hd⟩ <;> rw [hd]
  · rw [formatZ_eq, ite_command_eq_illegal_iff]
    have hz : opcField c ∈ zOpcodes := hopc ▸ zOpcodes_eq ▸ List.mem_map_of_mem hj
    obtain ⟨hA, hAS, hS⟩ := zOpcodes_other_formats _ hz
    simp only [List.mem_append, hz, hA, hAS, hS, true_or, not_true, true_and, false_and, false_or, or_false]
  · simp [formatAS_eq, ite_command_eq_illegal_iff, hopc, zOpcodes]
  · simp [formatS_eq, ite_command_eq_illegal_iff, hopc, zOpcodes]
  · simp [formatA_eq, ite_command_eq_illegal_iff, hopc, zOpcodes]
  · simp [formatA_eq, ite_command_eq_illegal_iff, hopc, zOpcodes]
  · exact ⟨fun _ => .inl hres, fun _ => ⟨_, rfl⟩⟩

end Sys2Proof

namespace Sys2Proof.Machine

open Sys2Proof.Claims

variable {c : Word} {s : State}

theorem wordRun_of_malformed (h : Malformed c) (s : State) : wordRun c s = runIllegal c s := by
  obtain ⟨why, hd⟩ := (decode_illegal_iff_malformed c).2 h
  simp only [wordRun, hd]

/-- The engine's step on an ILLEGAL word raises ILLEGAL with the word as its information (R36, R72). -/
theorem step_of_malformed (h : Malformed c) (hc : s.phase = .busy c) (hp : s.pending = []) :
    step s = .next (errState .illegal c s) := by
  rw [step_of_pending_nil hp, engineTurn_of_busy hc, engineStep_eq, wordRun_of_malformed h]
  rfl

/-- CLRST's word is a command's, so the acceptance of an ILLEGAL word leaves WHB (R64). -/
theorem ne_clrst_of_malformed (h : Malformed c) : c ≠ 0x00000021#32 := by
  rintro rfl
  obtain ⟨why, hd⟩ := (decode_illegal_iff_malformed _).2 h
  have hclrst : decode 0x00000021#32 = .command .clrst := decode_encode (i := .clrst) rfl
  rw [hclrst] at hd
  contradiction

theorem cmdWrite_of_malformed {agent : Agent} (h : Malformed c) (hs : s.phase = .idle)
    (hp : s.pending = [writes agent 0x0C#8 c]) :
    ∃ t, step s = .next t ∧ step t = .next (errState .illegal c { s with pending := [] }) := by
  refine ⟨_, cmdWriteAccepted s agent c [] hs hp, ?_⟩
  rw [step_of_malformed h rfl rfl, if_neg (ne_clrst_of_malformed h)]
  rfl

/-! ### Refused algorithm ids (R36, R49) -/

/-- A command word built from its fields is the encoding of the command that has them. -/
theorem hashWord_eq_encode {i : Instr} (h : i.wellFormed = true) :
    hashWord i.opcode i.algOperand i.seedOperand = encode i := by
  have hopc := i.opcode_lt
  have halg := Instr.algOperand_lt h
  have hs := Bool.toNat_lt i.seedOperand
  have hseed : (if i.seedOperand then 4096 else 0) = 2 ^ 12 * i.seedOperand.toNat := by
    cases i.seedOperand <;> rfl
  rw [← BitVec.toNat_inj, encode_toNat, hashWord, BitVec.toNat_ofNat, hseed]
  omega

theorem notsup_state {i : Instr} (h : i.wellFormed = true) (s : State) :
    (notsup i (Run.start s)).state = refusedState (hashWord i.opcode i.algOperand i.seedOperand) s := by
  rw [hashWord_eq_encode h]
  rfl

theorem exec_hash_unsupported {alg : Nat} (h : 6 ≤ alg) (seeded : Bool) (s : State) :
    exec (.hash alg seeded) s = .next (notsup (.hash alg seeded) (Run.start s)).state := by
  have hok : ¬ s.hashOk alg = true := fun hok => absurd (State.hashOk_iff.1 hok).2 (by omega)
  rw [exec_eq, engineRun, runHash, if_neg hok]

theorem exec_hprep_unsupported {alg : Nat} (h : 6 ≤ alg) (s : State) :
    exec (.hprep alg) s = .next (notsup (.hprep alg) (Run.start s)).state := by
  have hok : ¬ s.hprepOk alg = true := fun hok => absurd (State.hprepOk_iff.1 hok).1.2 (by omega)
  rw [exec_eq, engineRun, runHprep, if_neg hok]

theorem exec_hfin_unsupported {alg : Nat} (h : 6 ≤ alg) (s : State) :
    exec (.hfin alg) s = .next (notsup (.hfin alg) (Run.start s)).state := by
  have hok : ¬ hfinOk alg = true := by
    simp only [hfinOk, algOk, Bool.and_eq_true, decide_eq_true_eq]
    omega
  rw [exec_eq, engineRun, runHfin, if_neg hok]

/-- Settles O4: the reserved opcodes and fields are read off the decoder's formats, and an algorithm id from
6 on fits its field without naming a supported function. -/
theorem illegalWords : Obligations.IllegalWords := by
  refine ⟨decode_illegal_iff_malformed, fun c s h hc hp => ⟨step_of_malformed h hc hp, ?_⟩,
    fun c s agent h hs hp => cmdWrite_of_malformed h hs hp, fun alg hmin hmax => ?_⟩
  · rw [wordRun_of_malformed h]
    rfl
  · have hfits : algFits alg = true := decide_eq_true (by omega)
    refine ⟨fun seeded => ?_, ?_, ?_, fun s => ⟨fun seeded => ?_, ?_, ?_⟩⟩
    · exact hashWord_eq_encode (i := .hash alg seeded) hfits ▸ decode_encode hfits
    · exact hashWord_eq_encode (i := .hprep alg) hfits ▸ decode_encode hfits
    · exact hashWord_eq_encode (i := .hfin alg) hfits ▸ decode_encode hfits
    · rw [exec_hash_unsupported hmin, notsup_state (i := .hash alg seeded) hfits]
      rfl
    · rw [exec_hprep_unsupported hmin, notsup_state (i := .hprep alg) hfits]
      rfl
    · rw [exec_hfin_unsupported hmin, notsup_state (i := .hfin alg) hfits]
      rfl

/-! ### A host's `setbit` (R38, R39) -/

/-- STATUS as the port shows it is STATUS as R13 and R71 list its bits. -/
theorem State.statusWord_eq (s : State) : s.statusWord = statusBits s := by
  have hbusy : (if s.phase = .idle then 0 else 1) = s.isBusy.toNat := by
    unfold State.isBusy
    cases s.phase <;> rfl
  have hbits : ∀ busy done found whb : Bool, ∀ e : Fin 5,
      fieldBit busy 0 ||| fieldBit done 1 ||| fieldBit found 2 ||| fieldBit whb 3 |||
          (BitVec.ofNat 32 e.val <<< 8) =
        BitVec.ofNat 32
          (busy.toNat + (if done then 2 else 0) + (if found then 4 else 0) + (if whb then 8 else 0) +
            256 * e.val) := by decide
  rw [statusBits, hbusy, State.statusWord]
  cases s.err with
  | noError => exact hbits _ _ _ _ 0
  | illegal => exact hbits _ _ _ _ 1
  | notsup => exact hbits _ _ _ _ 2
  | bounds => exact hbits _ _ _ _ 3
  | buserr => exact hbits _ _ _ _ 4

/-- A host's wait ends when the engine is Idle, with STATUS as its last answer (R38). -/
theorem step_of_pending_wait_idle {agent : Agent} {rest : List Turn} (h : s.pending = .wait agent :: rest)
    (hs : s.phase = .idle) :
    step s = .next { s with pending := rest, reply := some (.word agent (statusBits s)) } := by
  have hanswer : step s = .next ((s.withPending rest).answer (.word agent s.statusWord)) := by
    simp only [step, h, hs]
  rw [hanswer, State.statusWord_eq]
  rfl

theorem coreRun_succ {M : Host.Core} {s t : M.State} (h : M.step s = .next t) (k : Nat) :
    M.run (k + 1) s = M.run k t := by
  simp only [Host.Core.run, h]

theorem run_succ_of_step {t : State} (h : step s = .next t) (k : Nat) :
    Host.Core.run core (k + 1) s = Host.Core.run core k t :=
  coreRun_succ (M := core) h k

theorem exec_pending {i : Instr} {t : State} (h : exec i s = .next t) : t.pending = s.pending := by
  obtain ⟨_, _, _, _, _, _, _, _, _, hpending⟩ := commandsWriteOnlyTheirRegisters i s t h
  exact hpending

/-- A wait that finds the engine Busy is one step in which the command runs and one that ends the wait
(R38, R91). -/
theorem run_wait_of_command {i : Instr} {t : State} {agent : Agent} {rest : List Turn}
    (hc : s.phase = .busy c) (hd : decode c = .command i) (hp : s.pending = .wait agent :: rest)
    (h : exec i s = .next t) :
    Host.Core.run core 2 s =
      .next { t with pending := rest, reply := some (.word agent (statusBits t)) } := by
  obtain ⟨hidle, _⟩ := completionFlags i s t h
  have hcommand : step s = .next t := by
    rw [step_of_pending_wait_busy hp hc, engineStep_of_command hd, h]
  have hwait := step_of_pending_wait_idle ((exec_pending h).trans hp) hidle
  exact (run_succ_of_step hcommand 1).trans (run_succ_of_step hwait 0)

theorem step_of_pending_write_arg0 {agent : Agent} {v : Word} {rest : List Turn} (hs : s.phase = .idle)
    (h : s.pending = writes agent 0x18#8 v :: rest) :
    step s = .next { s with arg0 := v, pending := rest } := by
  have hidle : (s.withPending rest).phase = .idle := hs
  have harg0 : Reg.atOffset 0x18#8 = some .arg0 := rfl
  rw [step_of_pending_write h rfl, State.portWrite_of_idle hidle harg0]
  rfl

/-- Settles O60: one step for each of the two writes, then the wait for BSET's word, which is 1. -/
theorem setbitMacroRuns : Obligations.SetbitMacroRuns := by
  intro s agent i hs hp
  have hbset : decode 1#32 = .command .bset := decode_encode (i := .bset) rfl
  have hwrite := step_of_pending_write_arg0 (agent := agent) hs hp
  have hcmd := cmdWriteAccepted { s with arg0 := i, pending := [writes agent 0x0C#8 1#32, .wait agent] }
    agent 1#32 [.wait agent] hs rfl
  exact ⟨_, _, exec_eq .bset _, (run_succ_of_step hwrite 3).trans <| (run_succ_of_step hcmd 2).trans <|
    run_wait_of_command rfl hbset rfl (exec_eq .bset _), rfl⟩

end Sys2Proof.Machine
end

section
/-! PROOFS. The bitmap unit's commands on one bit (spec/40_bitmap.md R40 to R43): each ends in one of four
ways, by whether the bit's byte lies in the buffer and which of its accesses succeed. -/

namespace Sys2Proof.Machine

open Sys2Proof.Claims

/-! ### One bit of a byte -/

@[simp] theorem getLsbD_maskOf (i j : Nat) : (maskOf i).getLsbD (j % 8) = decide (j % 8 = i % 8) := by
  have hj : j % 8 < 8 := Nat.mod_lt _ (by decide)
  simp only [maskOf, BitVec.getLsbD_shiftLeft, BitVec.getLsbD_one, hj]
  grind

/-- Setting a bit of a byte sets that bit and no other (R40). -/
theorem bitSet_setBit (i : Nat) (b : Byte) (j : Nat) :
    bitSet (setBit i b) j = (bitSet b j || decide (j % 8 = i % 8)) := by
  simp [bitSet, setBit]

/-- Clearing a bit of a byte clears that bit and no other (R41). -/
theorem bitSet_clearBit (i : Nat) (b : Byte) (j : Nat) :
    bitSet (clearBit i b) j = (bitSet b j && decide (j % 8 ≠ i % 8)) := by
  have hj : j % 8 < 8 := Nat.mod_lt _ (by decide)
  simp only [bitSet, clearBit, BitVec.getLsbD_and, BitVec.getLsbD_not, getLsbD_maskOf, hj, decide_true,
    Bool.true_and, decide_not, ne_eq]

theorem setBit_idem (i : Nat) (b : Byte) : setBit i (setBit i b) = setBit i b := by
  simp [setBit, BitVec.or_assoc]

theorem clearBit_idem (i : Nat) (b : Byte) : clearBit i (clearBit i b) = clearBit i b := by
  simp [clearBit, BitVec.and_assoc]

/-! ### The two shapes of a command on one bit -/

theorem State.inBuffer_byteOf_iff {s : State} {i : Nat} : s.inBuffer (byteOf i) = true ↔ InRange s i :=
  State.inBuffer_iff

theorem State.inBuffer_byteOf_eq_false_iff {s : State} {i : Nat} :
    s.inBuffer (byteOf i) = false ↔ ¬ InRange s i := by
  rw [← State.inBuffer_byteOf_iff, Bool.not_eq_true]

/-- The address of the byte that holds bit ARG0 of the buffer. -/
def State.bitAddr (s : State) : Nat := s.bitmapAddr (byteOf s.arg0.toNat)

/-- The command reads and writes back the byte of bit ARG0, changed by `f`: BSET and BCLR (R40, R41). -/
def ModifiesBit (i : Instr) (f : Nat → Byte → Byte) : Prop :=
  ∀ s, engineRun i s =
    (modifyBit f s.arg0.toNat (Run.start s)).finish fun _ r => .completed false r

/-- The command's RESULT is `f` of bit ARG0: BTST and BTSTC (R42, R43). -/
def TestsBit (i : Instr) (f : Bool → Word) : Prop :=
  ∀ s, engineRun i s = testBit f s.arg0.toNat (Run.start s)

theorem modifiesBit_bset : ModifiesBit .bset setBit := fun _ => rfl
theorem modifiesBit_bclr : ModifiesBit .bclr clearBit := fun _ => rfl
theorem testsBit_btst : TestsBit .btst fun set => if set then 1#32 else 0#32 := fun _ => rfl
theorem testsBit_btstc : TestsBit .btstc fun set => if set then 0#32 else 1#32 := fun _ => rfl

/-- A byte that can be read but not written ends the command after the read (R40, R75). -/
theorem modifyBit_writeErr {f : Nat → Byte → Byte} {i : Nat} {r : Run}
    (h : r.st.inBuffer (byteOf i) = true) (hr : r.st.portOk (r.st.bitmapAddr (byteOf i)) .read = true)
    (hw : r.st.portOk (r.st.bitmapAddr (byteOf i)) .write = false) :
    modifyBit f i r = .busErr (BitVec.ofNat 32 (r.st.bitmapAddr (byteOf i)))
      ⟨r.st.afterRead (r.st.bitmapAddr (byteOf i)), r.trace ++ [.read (r.st.bitmapAddr (byteOf i))]⟩ := by
  have hw' : (r.st.afterRead (r.st.bitmapAddr (byteOf i))).portOk (r.st.bitmapAddr (byteOf i)) .write
      = false := by
    rw [State.portOk_congr (s := r.st) (by rw [State.afterRead_eq])]
    exact hw
  rw [modifyBit, if_pos h, memRead_ok hr, Port.ok_andThen, memWrite_err hw']

theorem testBit_outside {f : Bool → Word} {i : Nat} {r : Run} (h : r.st.inBuffer (byteOf i) = false) :
    testBit f i r = .raised .bounds (BitVec.ofNat 32 i) r := by simp [testBit, h]

theorem testBit_readErr {f : Bool → Word} {i : Nat} {r : Run} (h : r.st.inBuffer (byteOf i) = true)
    (hr : r.st.portOk (r.st.bitmapAddr (byteOf i)) .read = false) :
    testBit f i r = .raised .buserr (BitVec.ofNat 32 (r.st.bitmapAddr (byteOf i))) r := by
  simp [testBit, h, memRead_err hr]

theorem testBit_done {f : Bool → Word} {i : Nat} {r : Run} (h : r.st.inBuffer (byteOf i) = true)
    (hr : r.st.portOk (r.st.bitmapAddr (byteOf i)) .read = true) :
    testBit f i r = .completed false
      ⟨(r.st.afterRead (r.st.bitmapAddr (byteOf i))).setResult
          (f (bitSet (r.st.readValue (r.st.bitmapAddr (byteOf i))) i)),
        r.trace ++ [.read (r.st.bitmapAddr (byteOf i))]⟩ := by
  simp [testBit, h, memRead_ok hr, Run.update]

/-- A run that is known gives the state `exec` answers and the accesses. -/
theorem exec_of_run {i : Instr} {s : State} {e : Ended} (h : engineRun i s = e) :
    exec i s = .next e.state ∧ (engineRun i s).trace = e.trace := by
  rw [exec_eq, h]
  exact ⟨rfl, rfl⟩

section
variable {i : Instr} {f : Nat → Byte → Byte} (hi : ModifiesBit i f) {s : State}
include hi

theorem ModifiesBit.outOfRange (h : ¬ InRange s s.arg0.toNat) :
    exec i s = .next (okState false s) ∧ (engineRun i s).trace = [] := by
  refine exec_of_run (e := .completed false (Run.start s)) ?_
  rw [hi, modifyBit_dropped (State.inBuffer_byteOf_eq_false_iff.2 h), Port.ok_finish]

theorem ModifiesBit.unreadable (h : InRange s s.arg0.toNat) (hr : s.portOk s.bitAddr .read = false) :
    exec i s = .next (errState .buserr (BitVec.ofNat 32 s.bitAddr) s) ∧ (engineRun i s).trace = [] := by
  refine exec_of_run (e := .raised .buserr (BitVec.ofNat 32 s.bitAddr) (Run.start s)) ?_
  rw [hi, modifyBit_readErr (State.inBuffer_byteOf_iff.2 h) hr]
  rfl

theorem ModifiesBit.unwritable (h : InRange s s.arg0.toNat) (hr : s.portOk s.bitAddr .read = true)
    (hw : s.portOk s.bitAddr .write = false) :
    (∃ d, exec i s = .next (errState .buserr (BitVec.ofNat 32 s.bitAddr) { s with draws := d })) ∧
      (engineRun i s).trace = [.read s.bitAddr] := by
  have hrun : engineRun i s =
      .raised .buserr (BitVec.ofNat 32 s.bitAddr) ⟨s.afterRead s.bitAddr, [.read s.bitAddr]⟩ := by
    rw [hi, modifyBit_writeErr (State.inBuffer_byteOf_iff.2 h) hr hw]
    rfl
  obtain ⟨hexec, htrace⟩ := exec_of_run hrun
  rw [Ended.raised_state, State.afterRead_eq] at hexec
  exact ⟨⟨_, hexec⟩, htrace⟩

theorem ModifiesBit.run_done (h : InRange s s.arg0.toNat) (hr : s.portOk s.bitAddr .read = true)
    (hw : s.portOk s.bitAddr .write = true) :
    engineRun i s =
      .completed false ⟨(s.afterRead s.bitAddr).storeByte s.bitAddr (f s.arg0.toNat (s.readValue s.bitAddr)),
        [.read s.bitAddr, .write s.bitAddr (f s.arg0.toNat (s.readValue s.bitAddr))]⟩ := by
  rw [hi, modifyBit_done (State.inBuffer_byteOf_iff.2 h) hr hw]
  rfl

theorem ModifiesBit.done (h : InRange s s.arg0.toNat) (hr : s.portOk s.bitAddr .read = true)
    (hw : s.portOk s.bitAddr .write = true) (hm : Memory.wf s.mem = true) :
    ∃ t, exec i s = .next t ∧
      t = okState false { s with mem := t.mem, stale := t.stale, fresh := t.fresh, draws := t.draws } ∧
      (engineRun i s).trace =
        [.read s.bitAddr, .write s.bitAddr (f s.arg0.toNat (s.readValue s.bitAddr))] ∧
      ∀ x, Memory.read t.mem x =
        if x = s.bitAddr then f s.arg0.toNat (s.readValue s.bitAddr) else Memory.read s.mem x := by
  obtain ⟨hexec, htrace⟩ := exec_of_run (hi.run_done h hr hw)
  have hmem : (s.afterRead s.bitAddr).mem = s.mem := by rw [State.afterRead_eq]
  refine ⟨_, hexec, ?_, htrace, fun x => ?_⟩
  · rw [Ended.completed_state, State.afterRead_eq]
    rfl
  · rw [Ended.completed_state, State.complete_mem, State.storeByte_mem, hmem]
    exact Memory.read_write hm ..
end

/-- Settles O8: the four ends of a command that modifies a bit, with the bit set. -/
theorem bsetSetsOneBit : Obligations.BsetSetsOneBit :=
  ⟨rfl, fun _ => ⟨modifiesBit_bset.outOfRange, modifiesBit_bset.unreadable, modifiesBit_bset.unwritable,
    modifiesBit_bset.done⟩⟩

/-- Settles O9: as O8, with the bit cleared. -/
theorem bclrClearsOneBit : Obligations.BclrClearsOneBit :=
  ⟨rfl, fun _ => ⟨modifiesBit_bclr.outOfRange, modifiesBit_bclr.unreadable, modifiesBit_bclr.unwritable,
    modifiesBit_bclr.done⟩⟩

section
variable {i : Instr} {f : Bool → Word} (hi : TestsBit i f) {s : State}
include hi

theorem TestsBit.outOfRange (h : ¬ InRange s s.arg0.toNat) :
    exec i s = .next (errState .bounds s.arg0 s) ∧ (engineRun i s).trace = [] := by
  refine exec_of_run (e := .raised .bounds s.arg0 (Run.start s)) ?_
  rw [hi, testBit_outside (State.inBuffer_byteOf_eq_false_iff.2 h), BitVec.ofNat_toNat, BitVec.setWidth_eq]

theorem TestsBit.unreadable (h : InRange s s.arg0.toNat) (hr : s.portOk s.bitAddr .read = false) :
    exec i s = .next (errState .buserr (BitVec.ofNat 32 s.bitAddr) s) ∧ (engineRun i s).trace = [] := by
  refine exec_of_run (e := .raised .buserr (BitVec.ofNat 32 s.bitAddr) (Run.start s)) ?_
  rw [hi, testBit_readErr (State.inBuffer_byteOf_iff.2 h) hr]
  rfl

theorem TestsBit.done (h : InRange s s.arg0.toNat) (hr : s.portOk s.bitAddr .read = true) :
    (∃ d, exec i s = .next (okState false
      { s with result := f (bitSet (s.readValue s.bitAddr) s.arg0.toNat), draws := d })) ∧
      (engineRun i s).trace = [.read s.bitAddr] := by
  have hrun : engineRun i s = .completed false
      ⟨(s.afterRead s.bitAddr).setResult (f (bitSet (s.readValue s.bitAddr) s.arg0.toNat)),
        [.read s.bitAddr]⟩ := by
    rw [hi, testBit_done (State.inBuffer_byteOf_iff.2 h) hr]
    rfl
  obtain ⟨hexec, htrace⟩ := exec_of_run hrun
  rw [Ended.completed_state, State.afterRead_eq] at hexec
  exact ⟨⟨_, hexec⟩, htrace⟩
end

/-- Settles O10: the three ends of a command that tests a bit, with RESULT 1 for set. -/
theorem btstTestsForSet : Obligations.BtstTestsForSet :=
  ⟨rfl, fun _ => ⟨testsBit_btst.outOfRange, testsBit_btst.unreadable, testsBit_btst.done⟩⟩

/-- Settles O11: as O10, with RESULT 1 for clear. -/
theorem btstcTestsForClear : Obligations.BtstcTestsForClear :=
  ⟨rfl, fun _ => ⟨testsBit_btstc.outOfRange, testsBit_btstc.unreadable, testsBit_btstc.done⟩⟩

/-! ### A command on a bit after another (R47) -/

/-- The bit a command on one bit has written is the one the next command tests. -/
theorem test_after_modify {i j : Instr} {f : Nat → Byte → Byte} {g : Bool → Word} (hi : ModifiesBit i f)
    (hj : TestsBit j g) {s : State} (hm : Memory.wf s.mem = true) (h : InRange s s.arg0.toNat)
    (ha : Accessible s s.bitAddr) :
    ∃ t u, exec i s = .next t ∧ exec j t = .next u ∧
      u.result = g (bitSet (f s.arg0.toNat (s.readValue s.bitAddr)) s.arg0.toNat) ∧ u.err = .noError := by
  obtain ⟨⟨hr, hseen⟩, hw⟩ := ha
  obtain ⟨t, ht, hframe, _, hmem⟩ := hi.done h hr hw hm
  have hread : t.readValue s.bitAddr = f s.arg0.toNat (s.readValue s.bitAddr) := by
    have hseen' : t.engineBlind s.bitAddr = false := by rw [hframe]; exact hseen
    rw [State.readValue_of_seen hseen', hmem, if_pos rfl]
  have harg : t.arg0 = s.arg0 := by rw [hframe]; rfl
  have haddr : t.bitAddr = s.bitAddr := by rw [hframe]; rfl
  have hr' : t.portOk t.bitAddr .read = true := by rw [haddr, hframe]; exact hr
  have h' : InRange t t.arg0.toNat := by rw [hframe]; exact h
  obtain ⟨⟨d, hu⟩, _⟩ := hj.done h' hr'
  refine ⟨t, _, ht, hu, ?_, rfl⟩
  rw [← hread, ← haddr, ← harg]
  rfl

/-- Settles O17: a bit that was set tests as set, a bit that was cleared as clear. -/
theorem setThenTestGivesOne : Obligations.SetThenTestGivesOne := by
  intro s hm h ha
  have hset := test_after_modify modifiesBit_bset testsBit_btst hm h ha
  have hclear := test_after_modify modifiesBit_bclr testsBit_btstc hm h ha
  simp only [bitSet_setBit, decide_true, Bool.or_true, if_true] at hset
  simp only [bitSet_clearBit, ne_eq, not_true, decide_false, Bool.and_false, Bool.false_eq_true,
    if_false] at hclear
  exact ⟨hset, hclear⟩

/-- Writing back what a byte holds changes nothing: memory is canonical. -/
theorem Memory.write_read_self {m : Memory} (hm : Memory.wf m = true) {a : Nat} (ha : a < 2 ^ 32) :
    Memory.write m a (Memory.read m a) = m := by
  refine Memory.ext_of_read (Memory.write_wf hm ha _) hm fun b => ?_
  rw [Memory.read_write hm]
  split
  · next hb => rw [hb]
  · rfl

/-- The byte of bit ARG0 lies in the buffer, and the engine can read and write it. -/
def State.BitWritable (s : State) : Prop :=
  InRange s s.arg0.toNat ∧ s.portOk s.bitAddr .read = true ∧ s.portOk s.bitAddr .write = true

/-- Where the bit's byte cannot be written a command that modifies a bit leaves memory alone, for whatever
reason it ends (R40, R41, R75). -/
theorem ModifiesBit.mem_of_not_writable {i : Instr} {f : Nat → Byte → Byte} (hi : ModifiesBit i f)
    {s t : State} (h : ¬ s.BitWritable) (ht : exec i s = .next t) : t.mem = s.mem := by
  have hmem : ∀ u, exec i s = .next u → u.mem = s.mem → t.mem = s.mem := fun u hu hum => by
    rw [hu] at ht
    injection ht with ht
    rw [← ht, hum]
  by_cases hb : InRange s s.arg0.toNat
  · cases hr : s.portOk s.bitAddr .read with
    | false => exact hmem _ (hi.unreadable hb hr).1 rfl
    | true =>
      cases hw : s.portOk s.bitAddr .write with
      | false =>
        obtain ⟨⟨d, hexec⟩, _⟩ := hi.unwritable hb hr hw
        exact hmem _ hexec rfl
      | true => exact absurd ⟨hb, hr, hw⟩ h
  · exact hmem _ (hi.outOfRange hb).1 rfl

theorem ModifiesBit.mem_of_writable {i : Instr} {f : Nat → Byte → Byte} (hi : ModifiesBit i f)
    {s t : State} (h : s.BitWritable) (hseen : s.engineBlind s.bitAddr = false) (ht : exec i s = .next t) :
    t.mem = Memory.write s.mem s.bitAddr (f s.arg0.toNat (Memory.read s.mem s.bitAddr)) := by
  obtain ⟨hb, hr, hw⟩ := h
  obtain rfl := exec_next_iff.1 ht
  rw [hi.run_done hb hr hw, State.readValue_of_seen hseen, State.afterRead_of_seen hseen]
  rfl

theorem ModifiesBit.memoryOnly {i : Instr} {f : Nat → Byte → Byte} (hi : ModifiesBit i f) (s : State) :
    MemoryOnly s (engineRun i s).last.st := by
  rw [hi, Port.finish_completed_last]
  exact modifyBit_memoryOnly f s.arg0.toNat (Run.start s)

/-- The second of two equal modifications of a bit writes back the byte it reads. -/
theorem ModifiesBit.mem_idem {i : Instr} {f : Nat → Byte → Byte} (hi : ModifiesBit i f)
    (hf : ∀ k b, f k (f k b) = f k b) {s t u : State} (hm : Memory.wf s.mem = true)
    (hseen : ∀ a, s.engineBlind a = false) (ht : exec i s = .next t) (hu : exec i t = .next u) :
    u.mem = t.mem := by
  have hframe : MemoryOnly s (engineRun i s).last.st := hi.memoryOnly s
  have ht' := exec_next_iff.1 ht
  rw [Ended.state_frame, hframe] at ht'
  have harg : t.arg0 = s.arg0 := by rw [ht']
  have haddr : t.bitAddr = s.bitAddr := by rw [ht']; rfl
  have hblind : t.engineBlind t.bitAddr = false := by rw [ht']; exact hseen _
  by_cases h : s.BitWritable
  · have h' : t.BitWritable := by rw [ht']; exact h
    have hmem := hi.mem_of_writable h (hseen _) ht
    obtain ⟨_, hr, _⟩ := h
    have hfits : s.bitAddr < 2 ^ 32 := State.portOk_lt hr
    have hwf : Memory.wf t.mem = true := hmem ▸ Memory.write_wf hm hfits _
    have hread : Memory.read t.mem s.bitAddr = f s.arg0.toNat (Memory.read s.mem s.bitAddr) := by
      rw [hmem, Memory.read_write_same hm]
    have hsame : f t.arg0.toNat (Memory.read t.mem t.bitAddr) = Memory.read t.mem t.bitAddr := by
      rw [harg, haddr, hread, hf]
    rw [hi.mem_of_writable h' hblind hu, hsame, Memory.write_read_self hwf (haddr ▸ hfits)]
  · have h' : ¬ t.BitWritable := by rw [ht']; exact h
    exact hi.mem_of_not_writable h' hu

/-- Settles O18: setting a bit, and clearing it, are idempotent on the byte. -/
theorem setAndClearIdempotent : Obligations.SetAndClearIdempotent := by
  rintro i s t u (rfl | rfl) hm hseen ht hu
  · exact modifiesBit_bset.mem_idem setBit_idem hm hseen ht hu
  · exact modifiesBit_bclr.mem_idem clearBit_idem hm hseen ht hu

end Sys2Proof.Machine
end

section
/-! PROOFS. BFREE (spec/40_bitmap.md R44): its three phases as one sequence of steps, each of which clears a
bit or a whole byte, and how far the sequence gets. -/

namespace Sys2Proof.Machine

open Sys2Proof.Claims

/-! ### The three phases as one sequence of steps -/

/-- The next step of BFREE at bit `i` with `n` bits left: a whole byte if one is due, else a single bit. -/
def freeStep (i n : Nat) (r : Run) : Port Unit :=
  if i % 8 = 0 ∧ 8 ≤ n then zeroByte (byteOf i) r else modifyBit clearBit i r

/-- How many bits that step clears. -/
def freeWidth (i n : Nat) : Nat := if i % 8 = 0 ∧ 8 ≤ n then 8 else 1

theorem freeHead_aligned {i : Nat} (h : i % 8 = 0) (n : Nat) (r : Run) : freeHead n i r = .ok (i, n) r := by
  cases n with
  | zero => rfl
  | succ n => rw [freeHead, if_pos h]

theorem freeRange_aligned {i : Nat} (h : i % 8 = 0) (n : Nat) (r : Run) :
    freeRange i n r = (freeBytes (n / 8) i r).andThen fun j r => freeTail (n % 8) j r := by
  rw [freeRange, freeHead_aligned h, Port.ok_andThen]

theorem freeRange_unaligned {i : Nat} (h : i % 8 ≠ 0) (n : Nat) (r : Run) :
    freeRange i (n + 1) r = (modifyBit clearBit i r).andThen fun _ r => freeRange (i + 1) n r := by
  rw [freeRange, freeHead, if_neg h, Port.andThen_assoc]
  rfl

theorem freeRange_zero (i : Nat) (r : Run) : freeRange i 0 r = .ok () r := by
  simp [freeRange, freeHead, freeBytes, freeTail]

/-- A range that ends in the byte it starts in is cleared bit by bit. -/
theorem freeRange_of_short {i n : Nat} (h : i % 8 + n < 8) (r : Run) : freeRange i n r = freeTail n i r := by
  induction n generalizing i r with
  | zero => rw [freeRange_zero, freeTail]
  | succ n ih =>
    by_cases hi : i % 8 = 0
    · have hq : (n + 1) / 8 = 0 := by omega
      have hrem : (n + 1) % 8 = n + 1 := by omega
      rw [freeRange_aligned hi, hq, hrem]
      rfl
    · rw [freeRange_unaligned hi, freeTail]
      simp only [ih (i := i + 1) (by omega)]

/-- BFREE is its next step and then BFREE on the rest of the range. -/
theorem freeRange_step {n : Nat} (hn : 0 < n) (i : Nat) (r : Run) :
    freeRange i n r =
      (freeStep i n r).andThen fun _ r => freeRange (i + freeWidth i n) (n - freeWidth i n) r := by
  obtain ⟨n, rfl⟩ : ∃ m, n = m + 1 := ⟨n - 1, by omega⟩
  by_cases hi : i % 8 = 0
  · by_cases h8 : 8 ≤ n + 1
    · have hq : (n + 1) / 8 = (n + 1 - 8) / 8 + 1 := by omega
      have hrem : (n + 1) % 8 = (n + 1 - 8) % 8 := by omega
      have hnext : (i + 8) % 8 = 0 := by omega
      simp only [freeStep, freeWidth, if_pos (And.intro hi h8), freeRange_aligned hnext]
      rw [freeRange_aligned hi, hq, hrem, freeBytes, Port.andThen_assoc]
    · have hwhole : ¬ (i % 8 = 0 ∧ 8 ≤ n + 1) := fun h => h8 h.2
      simp only [freeStep, freeWidth, if_neg hwhole, Nat.add_sub_cancel]
      rw [freeRange_of_short (by omega), freeTail]
      simp only [freeRange_of_short (i := i + 1) (n := n) (by omega)]
  · have hwhole : ¬ (i % 8 = 0 ∧ 8 ≤ n + 1) := fun h => hi h.1
    simp only [freeStep, freeWidth, if_neg hwhole, Nat.add_sub_cancel]
    exact freeRange_unaligned hi n r

theorem freeWidth_pos (i n : Nat) : 0 < freeWidth i n := by
  unfold freeWidth
  split <;> omega

/-! ### Outside the buffer -/

/-- A step outside the buffer is dropped with no access (R44). -/
theorem freeStep_dropped {i : Nat} {r : Run} (h : ¬ InRange r.st i) (n : Nat) :
    freeStep i n r = .ok () r := by
  have hout : r.st.inBuffer (byteOf i) = false := State.inBuffer_byteOf_eq_false_iff.2 h
  unfold freeStep
  split
  · simp [zeroByte, hout]
  · exact modifyBit_dropped hout

theorem inRange_of_le {s : State} {i j : Nat} (h : InRange s j) (hij : i ≤ j) : InRange s i :=
  Nat.lt_of_le_of_lt (Nat.div_le_div_right hij) h

/-- From a bit outside the buffer on, nothing is accessed (R44). -/
theorem freeRange_dropped {i n : Nat} {r : Run} (h : ¬ InRange r.st i) : freeRange i n r = .ok () r := by
  induction n using Nat.strong_induction_on generalizing i with
  | _ n ih =>
    rcases Nat.eq_zero_or_pos n with rfl | hn
    · exact freeRange_zero i r
    · have hpos := freeWidth_pos i n
      rw [freeRange_step hn, freeStep_dropped h, Port.ok_andThen]
      exact ih _ (by omega) fun h' => h (inRange_of_le h' (by omega))

/-- Settles O13: either way the range is dropped bit by bit. -/
theorem bfreeWithoutAccess : Obligations.BfreeWithoutAccess := by
  intro s h
  have hfree : freeRange s.arg0.toNat s.arg1.toNat (Run.start s) = .ok () (Run.start s) := by
    rcases h with h | h
    · rw [h, freeRange_zero]
    · exact freeRange_dropped h
  refine exec_of_run (e := .completed false (Run.start s)) ?_
  rw [engineRun, runBfree, hfree, Port.ok_finish]

/-! ### What has been cleared so far -/

/-- The state in which BFREE, begun in `s`, has cleared the bits before `i`: the bits of the buffer from
ARG0 on are 0, every other bit and every byte outside the buffer is as in `s`. -/
structure ClearedTo (s : State) (i : Nat) (t : State) : Prop where
  wf : Memory.wf t.mem = true
  memoryOnly : MemoryOnly s t
  draws : t.draws = s.draws
  bits : ∀ j, InRange s j → bufBit t j = if s.arg0.toNat ≤ j ∧ j < i then false else bufBit s j
  outside : ∀ x, x < s.bmBase.toNat ∨ s.bmBase.toNat + s.bmLen.toNat ≤ x →
    Memory.read t.mem x = Memory.read s.mem x

theorem ClearedTo.start {s : State} (hm : Memory.wf s.mem = true) : ClearedTo s s.arg0.toNat s where
  wf := hm
  memoryOnly := MemoryOnly.refl s
  draws := rfl
  bits j _ := by rw [if_neg (by omega)]
  outside _ _ := rfl

theorem ClearedTo.inRange_iff {s t : State} {i : Nat} (h : ClearedTo s i t) (j : Nat) :
    InRange t j ↔ InRange s j := by
  unfold InRange
  rw [h.memoryOnly.bmLen]

/-- Bits outside the buffer do not count. -/
theorem ClearedTo.skip {s t : State} {i k : Nat} (h : ClearedTo s i t) (hi : ¬ InRange s i) (hik : i ≤ k) :
    ClearedTo s k t where
  wf := h.wf
  memoryOnly := h.memoryOnly
  draws := h.draws
  bits j hj := by
    have hji : j < i := Nat.lt_of_not_le fun hij => hi (inRange_of_le hj hij)
    rw [h.bits j hj]
    simp [hji, Nat.lt_of_lt_of_le hji hik]
  outside := h.outside

/-- A bit of the buffer after a byte of the buffer has been stored. -/
theorem bufBit_storeByte {t : State} (hm : Memory.wf t.mem = true) (k : Nat) (v : Byte) (j : Nat) :
    bufBit (t.storeByte (t.bitmapAddr k) v) j = if j / 8 = k then bitSet v j else bufBit t j := by
  simp only [bufBit, bitSet, State.storeByte_mem, State.storeByte_bmBase, Memory.read_write hm,
    State.bitmapAddr, Nat.add_left_cancel_iff]
  split <;> rfl

/-- Storing a byte of the buffer whose bits before `k` are cleared, and whose others are as before. -/
theorem ClearedTo.storeByte {s t : State} {i k : Nat} {v : Byte} (h : ClearedTo s i t) (hi : InRange s i)
    (hp : t.portOk (t.bitmapAddr (byteOf i)) .write = true) (hik : i ≤ k)
    (hv : ∀ j, j / 8 = i / 8 → bitSet v j = if i ≤ j ∧ j < k then false else bufBit t j)
    (hk : ∀ j, i ≤ j → j < k → j / 8 = i / 8) (hstart : s.arg0.toNat ≤ i) :
    ClearedTo s k (t.storeByte (t.bitmapAddr (byteOf i)) v) where
  wf := Memory.write_wf h.wf (State.portOk_lt hp) v
  memoryOnly := h.memoryOnly.trans rfl
  draws := h.draws
  bits j hj := by
    rw [bufBit_storeByte h.wf, byteOf]
    by_cases hbyte : j / 8 = i / 8
    · rw [if_pos hbyte, hv j hbyte, h.bits j hj]
      grind
    · have hsame : j < k ↔ j < i := ⟨fun hjk => by have := hk j; omega, fun hji => by omega⟩
      simp only [if_neg hbyte, h.bits j hj, hsame]
  outside x hx := by
    have haddr : t.bitmapAddr (byteOf i) = s.bmBase.toNat + i / 8 := h.memoryOnly.bitmapAddr _
    have hlen : i / 8 < s.bmLen.toNat := hi
    have hne : x ≠ t.bitmapAddr (byteOf i) := by omega
    rw [State.storeByte_mem, Memory.read_write_other h.wf hne, h.outside x hx]

/-! ### One step -/

/-- Where the sequence of steps can stand: not in the middle of a byte that it zeroes as a whole. -/
def FreePoint (s : State) (i : Nat) : Prop :=
  s.arg0.toNat ≤ i ∧ i ≤ s.arg0.toNat + s.arg1.toNat ∧ (WhollyFreed s i → i % 8 = 0)

/-- The bits BFREE still has to clear at bit `i`. -/
def freeLeft (s : State) (i : Nat) : Nat := s.arg0.toNat + s.arg1.toNat - i

theorem freePoint_start (s : State) : FreePoint s s.arg0.toNat := by
  unfold FreePoint WhollyFreed
  omega

/-- At such a point a whole byte is due just when all of the byte is freed. -/
theorem FreePoint.whole_iff {s : State} {i : Nat} (h : FreePoint s i) :
    (i % 8 = 0 ∧ 8 ≤ freeLeft s i) ↔ WhollyFreed s i := by
  unfold FreePoint WhollyFreed at *
  unfold freeLeft
  omega

/-- One step leads from point to point. -/
theorem FreePoint.next {s : State} {i : Nat} (h : FreePoint s i) (hn : 0 < freeLeft s i) :
    FreePoint s (i + freeWidth i (freeLeft s i)) := by
  unfold FreePoint WhollyFreed at *
  unfold freeWidth freeLeft at *
  split <;> omega

theorem freeLeft_next (s : State) (i w : Nat) : freeLeft s (i + w) = freeLeft s i - w := by
  unfold freeLeft
  omega

/-- A step on a byte BFREE can access clears its bits. -/
theorem freeStep_done {s : State} {i : Nat} {r : Run} (hi : FreePoint s i) (hr : ClearedTo s i r.st)
    (hready : InRange s i → FreeReady s i) :
    ∃ r', freeStep i (freeLeft s i) r = .ok () r' ∧
      ClearedTo s (i + freeWidth i (freeLeft s i)) r'.st := by
  by_cases hin : InRange s i
  · obtain ⟨hw, hread⟩ := hready hin
    have hbuf : r.st.inBuffer (byteOf i) = true :=
      State.inBuffer_byteOf_iff.2 ((hr.inRange_iff i).2 hin)
    have haddr : r.st.bitmapAddr (byteOf i) = s.bmBase.toNat + i / 8 := hr.memoryOnly.bitmapAddr _
    have hw' : r.st.portOk (r.st.bitmapAddr (byteOf i)) .write = true := by
      rw [hr.memoryOnly.portOk, haddr]; exact hw
    by_cases hwhole : WhollyFreed s i
    · have h8 : i % 8 = 0 := hi.2.2 hwhole
      have hdue := hi.whole_iff.2 hwhole
      rw [freeStep, if_pos hdue, freeWidth, if_pos hdue, zeroByte, if_pos hbuf, memWrite_ok hw']
      refine ⟨_, rfl, hr.storeByte hin hw' (by omega) (fun j hj => ?_) (by omega) hi.1⟩
      rw [if_pos (by omega)]
      exact BitVec.getLsbD_zero
    · have hdue := mt hi.whole_iff.1 hwhole
      obtain ⟨hr1, hseen⟩ := hread.resolve_left hwhole
      rw [← haddr, ← hr.memoryOnly.portOk] at hr1
      rw [← haddr, ← hr.memoryOnly.engineBlind] at hseen
      rw [freeStep, if_neg hdue, freeWidth, if_neg hdue, modifyBit_done hbuf hr1 hw',
        State.afterRead_of_seen hseen, State.readValue_of_seen hseen]
      refine ⟨_, rfl, hr.storeByte hin hw' (by omega) (fun j hj => ?_) (by omega) hi.1⟩
      have hbit : bitSet (Memory.read r.st.mem (r.st.bitmapAddr (byteOf i))) j = bufBit r.st j := by
        rw [bufBit, hj]
        rfl
      rw [bitSet_clearBit, hbit]
      grind
  · exact ⟨r, freeStep_dropped (mt (hr.inRange_iff i).1 hin) _, hr.skip hin (by omega)⟩

/-- A step on a byte BFREE cannot access ends the command, having at most read (R75). -/
theorem freeStep_fails {s : State} {i : Nat} {r : Run} (hi : FreePoint s i) (hr : ClearedTo s i r.st)
    (hin : InRange s i) (hfail : FreeFails s i) :
    ∃ r', freeStep i (freeLeft s i) r = .busErr (BitVec.ofNat 32 (s.bmBase.toNat + i / 8)) r' ∧
      ReadsOnly r.st r'.st := by
  have hbuf : r.st.inBuffer (byteOf i) = true :=
    State.inBuffer_byteOf_iff.2 ((hr.inRange_iff i).2 hin)
  have haddr : r.st.bitmapAddr (byteOf i) = s.bmBase.toNat + i / 8 := hr.memoryOnly.bitmapAddr _
  unfold FreeFails at hfail
  rw [← haddr, ← hr.memoryOnly.portOk, ← hr.memoryOnly.portOk _ .read] at hfail
  rw [← haddr]
  by_cases hwhole : WhollyFreed s i
  · have hw := hfail.resolve_right fun h => h.1 hwhole
    rw [freeStep, if_pos (hi.whole_iff.2 hwhole), zeroByte, if_pos hbuf, memWrite_err hw]
    exact ⟨r, rfl, ReadsOnly.refl _⟩
  · rw [freeStep, if_neg (mt hi.whole_iff.1 hwhole)]
    cases hread : r.st.portOk (r.st.bitmapAddr (byteOf i)) .read with
    | false =>
      rw [modifyBit_readErr hbuf hread]
      exact ⟨r, rfl, ReadsOnly.refl _⟩
    | true =>
      have hw := hfail.resolve_right fun h => by simp [hread] at h
      exact ⟨_, modifyBit_writeErr hbuf hread hw, State.afterRead_eq _ _⟩

/-! ### How far BFREE gets -/

/-- BFREE reaches every bit at which a byte's part of the range begins, and the end of the range, if it can
access the bytes before it; the bits before it are then cleared. -/
theorem freeRange_reaches {s : State} {e i : Nat} {r : Run} (hi : FreePoint s i) (hr : ClearedTo s i r.st)
    (hie : i ≤ e) (he : e % 8 = 0 ∨ e = s.arg0.toNat ∨ e = s.arg0.toNat + s.arg1.toNat)
    (hend : e ≤ s.arg0.toNat + s.arg1.toNat)
    (hready : ∀ j, i ≤ j → j < e → InRange s j → FreeReady s j) :
    ∃ r', freeRange i (freeLeft s i) r = freeRange e (freeLeft s e) r' ∧ FreePoint s e ∧
      ClearedTo s e r'.st := by
  induction hd : e - i using Nat.strong_induction_on generalizing i r with
  | _ d ih =>
    rcases Nat.eq_or_lt_of_le hie with rfl | hlt
    · exact ⟨r, rfl, hi, hr⟩
    · have hn : 0 < freeLeft s i := by unfold freeLeft; omega
      have hpos := freeWidth_pos i (freeLeft s i)
      have hwidth : i + freeWidth i (freeLeft s i) ≤ e := by
        have hstart := hi.1
        unfold freeWidth freeLeft
        split <;> omega
      obtain ⟨r1, hstep, hr1⟩ := freeStep_done hi hr (hready i (Nat.le_refl i) hlt)
      rw [freeRange_step hn, hstep, Port.ok_andThen, ← freeLeft_next]
      exact ih _ (by omega) (hi.next hn) hr1 hwidth (fun j hj => hready j (by omega)) rfl

theorem freeLeft_start (s : State) : freeLeft s s.arg0.toNat = s.arg1.toNat := by
  unfold freeLeft
  omega

theorem freeLeft_end (s : State) : freeLeft s (s.arg0.toNat + s.arg1.toNat) = 0 := by
  unfold freeLeft
  omega

/-- What BFREE has changed, said as its statements say it. -/
theorem ClearedTo.frame {s t : State} {i : Nat} (h : ClearedTo s i t) :
    t = { s with mem := t.mem, stale := t.stale, fresh := t.fresh } := by
  have hframe := h.memoryOnly
  unfold MemoryOnly at hframe
  rwa [h.draws] at hframe

/-- Settles O12: every byte of the range is ready, so BFREE reaches its end. -/
theorem bfreeClearsExactlyTheRange : Obligations.BfreeClearsExactlyTheRange := by
  refine ⟨rfl, fun s hm hready => ?_⟩
  obtain ⟨r, hreach, _, hcleared⟩ := freeRange_reaches (r := Run.start s)
    (e := s.arg0.toNat + s.arg1.toNat) (freePoint_start s) (ClearedTo.start hm) (by omega) (by omega)
    (by omega) fun j hstart hend => hready j ⟨hstart, hend⟩
  rw [freeLeft_start, freeLeft_end, freeRange_zero] at hreach
  have hrun : engineRun .bfree s = .completed false r := by
    rw [engineRun, runBfree, hreach, Port.ok_finish]
  obtain ⟨hexec, _⟩ := exec_of_run hrun
  refine ⟨r.st.complete false, hexec, ?_, fun j hj => ?_, hcleared.outside⟩
  · exact congrArg (okState false) hcleared.frame
  · have hbit := hcleared.bits j hj
    exact ⟨fun hf => hbit.trans (if_pos hf), fun hf => hbit.trans (if_neg hf)⟩

/-- Settles O14: BFREE reaches bit `i`, and its next step fails. -/
theorem bfreeStopsAtBusError : Obligations.BfreeStopsAtBusError := by
  intro s i hm hfreed hfirst hin hready hfail
  obtain ⟨hstart, hend⟩ := hfreed
  obtain ⟨r, hreach, hpoint, hcleared⟩ := freeRange_reaches (r := Run.start s) (e := i)
    (freePoint_start s) (ClearedTo.start hm) hstart (by omega) (by omega)
    fun j hj hji _ => hready j ⟨hj, by omega⟩ hji
  obtain ⟨r', hstep, hread⟩ := freeStep_fails hpoint hcleared hin hfail
  have hn : 0 < freeLeft s i := by unfold freeLeft; omega
  rw [freeLeft_start, freeRange_step hn, hstep, Port.busErr_andThen] at hreach
  have hrun : engineRun .bfree s =
      .raised .buserr (BitVec.ofNat 32 (s.bmBase.toNat + i / 8)) r' := by
    rw [engineRun, runBfree, hreach, Port.busErr_finish]
  obtain ⟨hexec, _⟩ := exec_of_run hrun
  have hmem : r'.st.mem = r.st.mem := by rw [hread]
  have hbits : ∀ j, bufBit r'.st j = bufBit r.st j := fun j => by rw [hread]; rfl
  have hframe : MemoryOnly s r'.st := hcleared.memoryOnly.trans hread.memoryOnly
  exact ⟨_, hexec, congrArg (errState .buserr _) hframe,
    fun j hj => (hbits j).trans (hcleared.bits j hj),
    fun x hx => (congrArg (Memory.read · x) hmem).trans (hcleared.outside x hx)⟩

end Sys2Proof.Machine
end

section
/-! PROOFS. BFIND (spec/40_bitmap.md R45, R46): where a scan stops and what it then leaves, for the scan bit by
bit and for the scan that skips whole bytes. -/

namespace Sys2Proof.Machine

open Sys2Proof.Claims

/-! ### Where a scan stops -/

/-- The scan of BFIND goes past bit `j`: it is in the buffer, readable and set (R45). -/
def Passes (s : State) (j : Nat) : Prop :=
  InRange s j ∧ Readable s (s.bmBase.toNat + j / 8) ∧ bufBit s j = true

/-- The scan has gone past every bit from ARG0 to before `n`. -/
def ScannedTo (s : State) (n : Nat) : Prop := ∀ j, s.arg0.toNat ≤ j → j < n → Passes s j

/-- What a scan that does not go past bit `i` leaves: the three ways to stop (R45). -/
inductive StopsAt (s : State) (i : Nat) : State → Prop
  | found (h : InRange s i) (hr : Readable s (s.bmBase.toNat + i / 8)) (hb : bufBit s i = false) :
    StopsAt s i (okState true { s with result := BitVec.ofNat 32 i })
  | bounds (h : ¬ InRange s i) : StopsAt s i (errState .bounds (BitVec.ofNat 32 i) s)
  | busErr (h : InRange s i) (hr : s.portOk (s.bmBase.toNat + i / 8) .read = false) :
    StopsAt s i (errState .buserr (BitVec.ofNat 32 (s.bmBase.toNat + i / 8)) s)

/-- Where no byte is hidden, a scan that does not go past a bit stops at it. -/
theorem exists_stopsAt {s : State} (hseen : ∀ a, s.engineBlind a = false) {i : Nat} (h : ¬ Passes s i) :
    ∃ t, StopsAt s i t := by
  by_cases hin : InRange s i
  · cases hr : s.portOk (s.bmBase.toNat + i / 8) .read with
    | false => exact ⟨_, .busErr hin hr⟩
    | true =>
      have hread : Readable s (s.bmBase.toNat + i / 8) := ⟨hr, hseen _⟩
      cases hb : bufBit s i with
      | false => exact ⟨_, .found hin hread hb⟩
      | true => exact absurd ⟨hin, hread, hb⟩ h
  · exact ⟨_, .bounds hin⟩

/-- A scan either goes past its whole range or there is a first bit that it does not go past. -/
theorem scannedTo_or_first (s : State) (n : Nat) :
    ScannedTo s n ∨ ∃ i, s.arg0.toNat ≤ i ∧ i < n ∧ ScannedTo s i ∧ ¬ Passes s i := by
  induction n with
  | zero => exact .inl fun j _ hj => absurd hj (Nat.not_lt_zero j)
  | succ n ih =>
    rcases ih with h | ⟨i, hstart, hin, hscan, hstop⟩
    · by_cases hn : s.arg0.toNat ≤ n ∧ ¬ Passes s n
      · exact .inr ⟨n, hn.1, Nat.lt_succ_self n, h, hn.2⟩
      · refine .inl fun j hstart hj => ?_
        rcases Nat.lt_succ_iff_lt_or_eq.1 hj with hlt | rfl
        · exact h j hstart hlt
        · exact not_not.1 fun hp => hn ⟨hstart, hp⟩
    · exact .inr ⟨i, hstart, by omega, hscan, hstop⟩

/-! ### The reads of a scan -/

/-- The read of a byte of the buffer in a scan that has changed nothing so far. -/
theorem memRead_scan {s : State} {k : Nat} {tr : List Access} (hread : Readable s (s.bmBase.toNat + k)) :
    memRead (s.bitmapAddr k) ⟨s, tr⟩ =
      .ok (Memory.read s.mem (s.bmBase.toNat + k)) ⟨s, tr ++ [.read (s.bmBase.toNat + k)]⟩ :=
  memRead_seen (r := ⟨s, tr⟩) hread.1 hread.2

/-! ### The scan bit by bit -/

theorem findClear_outside {s : State} {i : Nat} (h : ¬ InRange s i) (n : Nat) (tr : List Access) :
    findClear (n + 1) i ⟨s, tr⟩ = .raised .bounds (BitVec.ofNat 32 i) ⟨s, tr⟩ := by
  rw [findClear, State.inBuffer_byteOf_eq_false_iff.2 h]
  rfl

theorem findClear_busErr {s : State} {i : Nat} (h : InRange s i)
    (hr : s.portOk (s.bmBase.toNat + i / 8) .read = false) (n : Nat) (tr : List Access) :
    findClear (n + 1) i ⟨s, tr⟩ =
      .raised .buserr (BitVec.ofNat 32 (s.bmBase.toNat + i / 8)) ⟨s, tr⟩ := by
  have herr : memRead (s.bitmapAddr (byteOf i)) ⟨s, tr⟩ = _ := memRead_err hr
  rw [findClear, if_pos (State.inBuffer_byteOf_iff.2 h), herr]
  rfl

/-- One readable bit of the scan. -/
theorem findClear_readable {s : State} {i : Nat} (h : InRange s i)
    (hr : Readable s (s.bmBase.toNat + i / 8)) (n : Nat) (tr : List Access) :
    findClear (n + 1) i ⟨s, tr⟩ =
      if bufBit s i then findClear n (i + 1) ⟨s, tr ++ [.read (s.bmBase.toNat + i / 8)]⟩
      else .completed true
        ⟨s.setResult (BitVec.ofNat 32 i), tr ++ [.read (s.bmBase.toNat + i / 8)]⟩ := by
  have hok : memRead (s.bitmapAddr (byteOf i)) ⟨s, tr⟩ = _ := memRead_scan hr
  rw [findClear, if_pos (State.inBuffer_byteOf_iff.2 h), hok]
  rfl

/-- The scan goes on past bits that are set. -/
theorem findClear_reaches {s : State} {i e n : Nat} {tr : List Access} (hie : i ≤ e) (hen : e ≤ i + n)
    (hscan : ∀ j, i ≤ j → j < e → Passes s j) :
    ∃ tr', findClear n i ⟨s, tr⟩ = findClear (i + n - e) e ⟨s, tr'⟩ := by
  induction n generalizing i tr with
  | zero =>
    obtain rfl : i = e := by omega
    exact ⟨tr, by rw [Nat.add_sub_cancel_left]⟩
  | succ n ih =>
    rcases Nat.eq_or_lt_of_le hie with rfl | hlt
    · exact ⟨tr, by rw [Nat.add_sub_cancel_left]⟩
    · obtain ⟨hin, hread, hbit⟩ := hscan i (Nat.le_refl i) hlt
      rw [findClear_readable hin hread, if_pos hbit, ← Nat.add_assoc, Nat.add_right_comm]
      exact ih hlt (by omega) fun j hj => hscan j (by omega)

/-- The scan stops where it cannot go on. -/
theorem findClear_stops {s t : State} {i : Nat} (h : StopsAt s i t) (n : Nat) (tr : List Access) :
    (findClear (n + 1) i ⟨s, tr⟩).state = t := by
  cases h with
  | found hin hread hbit =>
    rw [findClear_readable hin hread, hbit]
    rfl
  | bounds hout => rw [findClear_outside hout]; rfl
  | busErr hin hread => rw [findClear_busErr hin hread]; rfl

/-- BFIND leaves what its stop at the first bit it does not go past leaves. -/
theorem runBfind_stops {s t : State} {i : Nat} (hstart : s.arg0.toNat ≤ i) (hend : i < s.arg1.toNat)
    (hscan : ScannedTo s i) (h : StopsAt s i t) : (runBfind s).state = t := by
  obtain ⟨tr, hreach⟩ := findClear_reaches (n := s.arg1.toNat - s.arg0.toNat) (tr := []) hstart (by omega)
    hscan
  have hleft : s.arg0.toNat + (s.arg1.toNat - s.arg0.toNat) - i = (s.arg1.toNat - i - 1) + 1 := by omega
  have hrun : runBfind s = findClear ((s.arg1.toNat - i - 1) + 1) i ⟨s, tr⟩ := hleft ▸ hreach
  rw [hrun, findClear_stops h]

/-- BFIND past the whole of its range finds nothing. -/
theorem runBfind_scanned {s : State} (hscan : ScannedTo s s.arg1.toNat) :
    (runBfind s).state = okState false { s with result := 0xFFFFFFFF#32 } := by
  obtain ⟨tr, hreach⟩ := findClear_reaches (n := s.arg1.toNat - s.arg0.toNat) (tr := [])
    (Nat.le_add_right s.arg0.toNat (s.arg1.toNat - s.arg0.toNat)) (Nat.le_refl _)
    fun j hj hje => hscan j hj (by omega)
  have hrun : runBfind s = findClear 0 _ ⟨s, tr⟩ := hreach.trans (by rw [Nat.sub_self])
  rw [hrun]
  rfl

theorem exec_bfind_stops {s t : State} {i : Nat} (hstart : s.arg0.toNat ≤ i) (hend : i < s.arg1.toNat)
    (hscan : ScannedTo s i) (h : StopsAt s i t) : exec .bfind s = .next t :=
  congrArg Host.Outcome.next (runBfind_stops hstart hend hscan h)

/-- Settles O15: the outcomes are the three stops and the whole range; beyond a buffer of set bits the scan
stops at the first bit outside it. -/
theorem bfindFindsFirstClear : Obligations.BfindFindsFirstClear := by
  refine ⟨rfl, fun s => ⟨fun i hstart hend hscan hin hread hbit => ?_, fun hscan => ?_,
    fun i hstart hend hscan hout => ?_, fun i hstart hend hscan hin hread => ?_, fun hempty => ?_,
    fun hstart hlong hset => ?_⟩⟩
  · exact exec_bfind_stops hstart hend hscan (.found hin hread hbit)
  · exact congrArg Host.Outcome.next (runBfind_scanned hscan)
  · exact exec_bfind_stops hstart hend hscan (.bounds hout)
  · exact exec_bfind_stops hstart hend hscan (.busErr hin hread)
  · rw [engineRun, runBfind, Nat.sub_eq_zero_of_le hempty]
    rfl
  · have hout : ¬ InRange s (max s.arg0.toNat (8 * s.bmLen.toNat)) := by
      unfold InRange
      omega
    refine exec_bfind_stops (by omega) (by omega) (fun j hj hjmax => ?_) (.bounds hout)
    have hin : InRange s j := by
      unfold InRange
      omega
    exact ⟨hin, hset j hj (by omega) hin⟩

/-! ### The scan byte by byte -/

/-- The bits of byte `k` that lie in the range of BFIND, as offsets in the byte. -/
def InScan (s : State) (k j : Nat) : Prop :=
  j < 8 ∧ s.arg0.toNat ≤ 8 * k + j ∧ 8 * k + j < s.arg1.toNat

theorem bufBit_byte (s : State) (k : Nat) {j : Nat} (hj : j < 8) :
    bufBit s (8 * k + j) = (Memory.read s.mem (s.bmBase.toNat + k)).getLsbD j := by
  have hdiv : (8 * k + j) / 8 = k := by omega
  have hmod : (8 * k + j) % 8 = j := by omega
  rw [bufBit, hdiv, hmod]

theorem lowestClear_eq_some {b : Byte} {lo hi j : Nat} (h8 : j < 8) (hlo : lo ≤ j) (hhi : j < hi)
    (hj : b.getLsbD j = false) (hset : ∀ m, lo ≤ m → m < j → b.getLsbD m = true) :
    lowestClear b lo hi = some j := by
  rw [lowestClear, List.find?_range_eq_some]
  refine ⟨by simp [hlo, hhi, hj], List.mem_range.2 h8, fun m hm => ?_⟩
  by_cases hlm : lo ≤ m
  · simp [hset m hlm hm]
  · simp [hlm]

theorem lowestClear_eq_none {b : Byte} {lo hi : Nat}
    (hset : ∀ m, m < 8 → lo ≤ m → m < hi → b.getLsbD m = true) : lowestClear b lo hi = none := by
  rw [lowestClear, List.find?_range_eq_none]
  intro m h8
  by_cases hm : lo ≤ m ∧ m < hi
  · simp [hset m h8 hm.1 hm.2]
  · grind

theorem findBytes_outside {s : State} {k : Nat} (h : ¬ k < s.bmLen.toNat) (start stop q : Nat)
    (tr : List Access) :
    findBytes start stop (q + 1) k ⟨s, tr⟩ =
      .raised .bounds (BitVec.ofNat 32 (max start (8 * k))) ⟨s, tr⟩ := by
  rw [findBytes, if_neg (mt State.inBuffer_iff.1 h)]

theorem findBytes_busErr {s : State} {k : Nat} (h : k < s.bmLen.toNat)
    (hr : s.portOk (s.bmBase.toNat + k) .read = false) (start stop q : Nat) (tr : List Access) :
    findBytes start stop (q + 1) k ⟨s, tr⟩ =
      .raised .buserr (BitVec.ofNat 32 (s.bmBase.toNat + k)) ⟨s, tr⟩ := by
  have herr : memRead (s.bitmapAddr k) ⟨s, tr⟩ = _ := memRead_err hr
  rw [findBytes, if_pos (State.inBuffer_iff.2 h), herr]
  rfl

theorem findBytes_found {s : State} {start stop k j : Nat} (h : k < s.bmLen.toNat)
    (hr : Readable s (s.bmBase.toNat + k))
    (hj : lowestClear (Memory.read s.mem (s.bmBase.toNat + k)) (start - 8 * k) (stop - 8 * k) = some j)
    (q : Nat) (tr : List Access) :
    findBytes start stop (q + 1) k ⟨s, tr⟩ =
      .completed true
        ⟨s.setResult (BitVec.ofNat 32 (8 * k + j)), tr ++ [.read (s.bmBase.toNat + k)]⟩ := by
  have hok : memRead (s.bitmapAddr k) ⟨s, tr⟩ = _ := memRead_scan hr
  rw [findBytes, if_pos (State.inBuffer_iff.2 h), hok, Port.ok_finish, hj]
  rfl

theorem findBytes_skips {s : State} {start stop k : Nat} (h : k < s.bmLen.toNat)
    (hr : Readable s (s.bmBase.toNat + k))
    (hnone : lowestClear (Memory.read s.mem (s.bmBase.toNat + k)) (start - 8 * k) (stop - 8 * k) = none)
    (q : Nat) (tr : List Access) :
    findBytes start stop (q + 1) k ⟨s, tr⟩ =
      findBytes start stop q (k + 1) ⟨s, tr ++ [.read (s.bmBase.toNat + k)]⟩ := by
  have hok : memRead (s.bitmapAddr k) ⟨s, tr⟩ = _ := memRead_scan hr
  rw [findBytes, if_pos (State.inBuffer_iff.2 h), hok, Port.ok_finish, hnone]

/-- Byte `k` holds a bit of the range of BFIND, and the scan goes past all those it holds. -/
def BytePasses (s : State) (k : Nat) : Prop :=
  (∃ j, InScan s k j) ∧ ∀ j, InScan s k j → Passes s (8 * k + j)

theorem Passes.byte {s : State} {k j : Nat} (h : Passes s (8 * k + j)) (hj : j < 8) :
    k < s.bmLen.toNat ∧ Readable s (s.bmBase.toNat + k) ∧
      (Memory.read s.mem (s.bmBase.toNat + k)).getLsbD j = true := by
  obtain ⟨hin, hread, hbit⟩ := h
  have hdiv : (8 * k + j) / 8 = k := by omega
  rw [hdiv] at hread
  rw [bufBit_byte s k hj] at hbit
  unfold InRange at hin
  exact ⟨by omega, hread, hbit⟩

/-- The scan by bytes skips a byte that the scan by bits goes past. -/
theorem BytePasses.skip {s : State} {k : Nat} (h : BytePasses s k) (q : Nat) (tr : List Access) :
    ∃ tr', findBytes s.arg0.toNat s.arg1.toNat (q + 1) k ⟨s, tr⟩ =
      findBytes s.arg0.toNat s.arg1.toNat q (k + 1) ⟨s, tr'⟩ := by
  obtain ⟨⟨j, hj⟩, hpass⟩ := h
  obtain ⟨hlen, hread, _⟩ := (hpass j hj).byte hj.1
  refine ⟨_, findBytes_skips hlen hread (lowestClear_eq_none fun m h8 hlo hhi => ?_) q tr⟩
  exact ((hpass m ⟨h8, by omega, by omega⟩).byte h8).2.2

theorem findBytes_reaches {s : State} {k e q : Nat} {tr : List Access} (hke : k ≤ e) (heq : e ≤ k + q)
    (hscan : ∀ m, k ≤ m → m < e → BytePasses s m) :
    ∃ tr', findBytes s.arg0.toNat s.arg1.toNat q k ⟨s, tr⟩ =
      findBytes s.arg0.toNat s.arg1.toNat (k + q - e) e ⟨s, tr'⟩ := by
  induction q generalizing k tr with
  | zero =>
    obtain rfl : k = e := by omega
    exact ⟨tr, by rw [Nat.add_sub_cancel_left]⟩
  | succ q ih =>
    rcases Nat.eq_or_lt_of_le hke with rfl | hlt
    · exact ⟨tr, by rw [Nat.add_sub_cancel_left]⟩
    · obtain ⟨tr1, hskip⟩ := (hscan k (Nat.le_refl k) hlt).skip q tr
      rw [hskip, ← Nat.add_assoc, Nat.add_right_comm]
      exact ih hlt (by omega) fun m hm => hscan m (by omega)

/-- Every byte of the range holds a bit of it. -/
theorem exists_inScan {s : State} {k : Nat} (hlt : s.arg0.toNat < s.arg1.toNat)
    (hfirst : s.arg0.toNat / 8 ≤ k) (hlast : k ≤ (s.arg1.toNat - 1) / 8) : ∃ j, InScan s k j :=
  ⟨max s.arg0.toNat (8 * k) - 8 * k, by unfold InScan; omega⟩

/-- The bytes of a range that has been scanned to `n` are all passed, but that of `n`. -/
theorem ScannedTo.bytePasses {s : State} {n k : Nat} (h : ScannedTo s n)
    (hlt : s.arg0.toNat < s.arg1.toNat) (hfirst : s.arg0.toNat / 8 ≤ k) (hlast : k ≤ (s.arg1.toNat - 1) / 8)
    (hn : 8 * k + 8 ≤ n ∨ s.arg1.toNat ≤ n) : BytePasses s k :=
  ⟨exists_inScan hlt hfirst hlast, fun j hj => h _ hj.2.1 (by unfold InScan at hj; omega)⟩

theorem runBfindBytes_eq {s : State} (h : s.arg0.toNat < s.arg1.toNat) :
    runBfindBytes s =
      findBytes s.arg0.toNat s.arg1.toNat ((s.arg1.toNat - 1) / 8 - s.arg0.toNat / 8 + 1) (s.arg0.toNat / 8)
        ⟨s, []⟩ := by
  rw [runBfindBytes, if_pos h]
  rfl

/-- The first bit outside the buffer is the range's first one or its byte's first one. -/
theorem ScannedTo.bounds_index {s : State} {i : Nat} (h : ScannedTo s i) (hstart : s.arg0.toNat ≤ i)
    (hout : ¬ InRange s i) : max s.arg0.toNat (8 * (i / 8)) = i := by
  by_contra hne
  obtain ⟨hin, _⟩ := h (max s.arg0.toNat (8 * (i / 8))) (by omega) (by omega)
  unfold InRange at hin hout
  omega

theorem findBytes_stops {s t : State} {i : Nat} (hstart : s.arg0.toNat ≤ i) (hend : i < s.arg1.toNat)
    (hscan : ScannedTo s i) (h : StopsAt s i t) (q : Nat) (tr : List Access) :
    (findBytes s.arg0.toNat s.arg1.toNat (q + 1) (i / 8) ⟨s, tr⟩).state = t := by
  have hi : 8 * (i / 8) + i % 8 = i := Nat.div_add_mod i 8
  have h8 : i % 8 < 8 := Nat.mod_lt _ (by decide)
  cases h with
  | found hin hread hbit =>
    have hlowest : lowestClear (Memory.read s.mem (s.bmBase.toNat + i / 8))
        (s.arg0.toNat - 8 * (i / 8)) (s.arg1.toNat - 8 * (i / 8)) = some (i % 8) := by
      refine lowestClear_eq_some h8 (by omega) (by omega) hbit fun m hlo hm => ?_
      exact ((hscan (8 * (i / 8) + m) (by omega) (by omega)).byte (by omega)).2.2
    rw [findBytes_found hin hread hlowest, hi]
    rfl
  | bounds hout =>
    rw [findBytes_outside hout, hscan.bounds_index hstart hout]
    rfl
  | busErr hin hread =>
    rw [findBytes_busErr hin hread]
    rfl

/-- The scan by bytes leaves what the scan by bits leaves at its stop. -/
theorem runBfindBytes_stops {s t : State} {i : Nat} (hstart : s.arg0.toNat ≤ i) (hend : i < s.arg1.toNat)
    (hscan : ScannedTo s i) (h : StopsAt s i t) : (runBfindBytes s).state = t := by
  have hlt : s.arg0.toNat < s.arg1.toNat := by omega
  obtain ⟨tr, hreach⟩ := findBytes_reaches (s := s) (k := s.arg0.toNat / 8) (e := i / 8)
    (q := (s.arg1.toNat - 1) / 8 - s.arg0.toNat / 8 + 1) (tr := []) (by omega) (by omega)
    fun m hfirst hm => hscan.bytePasses hlt hfirst (by omega) (by omega)
  have hleft : s.arg0.toNat / 8 + ((s.arg1.toNat - 1) / 8 - s.arg0.toNat / 8 + 1) - i / 8 =
      ((s.arg1.toNat - 1) / 8 - i / 8) + 1 := by omega
  rw [runBfindBytes_eq hlt, hreach, hleft]
  exact findBytes_stops hstart hend hscan h _ tr

/-- The scan by bytes past the whole of its range finds nothing. -/
theorem runBfindBytes_scanned {s : State} (hscan : ScannedTo s s.arg1.toNat) :
    (runBfindBytes s).state = okState false { s with result := 0xFFFFFFFF#32 } := by
  by_cases hlt : s.arg0.toNat < s.arg1.toNat
  · obtain ⟨tr, hreach⟩ := findBytes_reaches (s := s) (k := s.arg0.toNat / 8)
      (e := (s.arg1.toNat - 1) / 8 + 1) (q := (s.arg1.toNat - 1) / 8 - s.arg0.toNat / 8 + 1) (tr := [])
      (by omega) (by omega)
      fun m hfirst hm => hscan.bytePasses hlt hfirst (by omega) (.inr (Nat.le_refl _))
    have hleft : s.arg0.toNat / 8 + ((s.arg1.toNat - 1) / 8 - s.arg0.toNat / 8 + 1) -
        ((s.arg1.toNat - 1) / 8 + 1) = 0 := by omega
    rw [runBfindBytes_eq hlt, hreach, hleft]
    rfl
  · rw [runBfindBytes, if_neg hlt]
    rfl

/-- Settles O16: both scans stop at the same bit and leave what the stop leaves. -/
theorem bfindByBytesAgrees : Obligations.BfindByBytesAgrees := by
  intro s hseen
  rw [exec_eq, engineRun]
  rcases scannedTo_or_first s s.arg1.toNat with hscan | ⟨i, hstart, hend, hscan, hstop⟩
  · rw [runBfind_scanned hscan, runBfindBytes_scanned hscan]
  · obtain ⟨t, ht⟩ := exists_stopsAt hseen hstop
    rw [runBfind_stops hstart hend hscan ht, runBfindBytes_stops hstart hend hscan ht]

end Sys2Proof.Machine
end

section
/-! PROOFS. The functions of the hash unit (spec/41_hash.md R49 to R55): each of the model's functions is the
one the statements write from the rules, and what the shapes of the ALG ids are. -/

namespace Sys2Proof.Machine

open Sys2Proof.Claims

/-! ### Byte lanes (R50, R51) -/

/-- Where the shifted word and the lane share no bit, joining them by OR and by ADD agree. -/
theorem shiftLeft_or_eq_add {k : Nat} (v : Word) {x : Word} (hx : x.toNat < 2 ^ k) :
    (v <<< k) ||| x = (v <<< k) + x := by
  have hdisjoint : (v <<< k) &&& x = 0#32 := by
    refine BitVec.eq_of_getLsbD_eq fun i _ => ?_
    by_cases hik : i < k
    · simp [hik]
    · have hbit : x.getLsbD i = false :=
        Nat.testBit_lt_two_pow (hx.trans_le (Nat.pow_le_pow_right (by decide) (by omega)))
      simp [hbit]
  exact (BitVec.add_eq_or_of_and_eq_zero _ _ hdisjoint).symm

theorem toNat_shiftLeft_of_lt {v : Word} {k : Nat} (h : v.toNat * 2 ^ k < 2 ^ 32) :
    (v <<< k).toNat = v.toNat * 2 ^ k := by
  rw [BitVec.toNat_shiftLeft, Nat.shiftLeft_eq, Nat.mod_eq_of_lt h]

/-- The four lanes of the padding word are disjoint, so their OR is one product (R51). -/
theorem padWord_eq (rem : Nat) : padWord rem = BitVec.ofNat 32 (rem % 256 * 0x01010101) := by
  have hp : (BitVec.ofNat 32 (rem % 256)).toNat < 256 := by
    rw [BitVec.toNat_ofNat]
    omega
  have hmul : BitVec.ofNat 32 (rem % 256 * 0x01010101) = BitVec.ofNat 32 (rem % 256) * 0x01010101#32 :=
    BitVec.ofNat_mul ..
  rw [hmul, padWord]
  generalize BitVec.ofNat 32 (rem % 256) = p at hp ⊢
  have h8 : (p <<< 8).toNat = p.toNat * 2 ^ 8 := toNat_shiftLeft_of_lt (by omega)
  have h16 : (p <<< 16).toNat = p.toNat * 2 ^ 16 := toNat_shiftLeft_of_lt (by omega)
  have h24 : (p <<< 24).toNat = p.toNat * 2 ^ 24 := toNat_shiftLeft_of_lt (by omega)
  have hlow : (p <<< 8 + p).toNat < 2 ^ 16 := by
    rw [BitVec.toNat_add]
    exact (Nat.mod_le ..).trans_lt (by omega)
  have hmid : (p <<< 16 + (p <<< 8 + p)).toNat < 2 ^ 24 := by
    rw [BitVec.toNat_add]
    exact (Nat.mod_le ..).trans_lt (by omega)
  rw [BitVec.or_comm p, shiftLeft_or_eq_add p (k := 8) (by omega), BitVec.or_comm _ (p <<< 16),
    shiftLeft_or_eq_add p hlow, BitVec.or_comm _ (p <<< 24), shiftLeft_or_eq_add p hmid]
  bv_omega

/-- Sign extension of a byte from 0x80 on sets the upper 24 bits (R50). -/
theorem widen_eq (uns : Bool) (b : Byte) : widen uns b = widened uns b := by
  unfold widen widened
  cases uns with
  | true => simp
  | false =>
    by_cases hb : b.toNat < 0x80
    · have hmsb : b.msb = false := by simpa [BitVec.msb_eq_decide] using hb
      simp [hb, BitVec.signExtend_eq_setWidth_of_msb_false hmsb]
    · have hmsb : b.msb = true := by simpa [BitVec.msb_eq_decide] using hb
      have hlow : (BitVec.ofNat 32 b.toNat).toNat = b.toNat := by
        rw [BitVec.toNat_ofNat]
        omega
      have hor : BitVec.ofNat 32 b.toNat ||| 0xFFFFFF00#32 = 0xFFFFFF00#32 + BitVec.ofNat 32 b.toNat := by
        rw [BitVec.or_comm]
        exact shiftLeft_or_eq_add (k := 8) 0xFFFFFF#32 (by omega)
      rw [if_neg Bool.false_ne_true, if_neg (by simp [hb]), hor, ← BitVec.toNat_inj,
        BitVec.toNat_signExtend, if_pos hmsb, BitVec.toNat_add, hlow, BitVec.toNat_setWidth,
        BitVec.toNat_ofNat]
      omega

theorem combineLane_eq (c : PackCombine) (a x : Word) : combineLane c a x = joined c a x := by
  cases c <;> rfl

theorem widened_true_toNat_lt (b : Byte) : (widened true b).toNat < 2 ^ 8 := by
  unfold widened
  rw [if_pos (.inl rfl), BitVec.toNat_ofNat]
  omega

/-- An Unsigned lane fits the eight bits the shift has cleared, so either way of joining it adds it (R51). -/
theorem joined_unsigned (c : PackCombine) (v : Word) (b : Byte) :
    joined c (v <<< 8) (widened true b) = (v <<< 8) + widened true b := by
  cases c with
  | orLane => exact shiftLeft_or_eq_add v (widened_true_toNat_lt b)
  | addLane => rfl

/-- Below 0x80 a byte widens alike with and without a sign (R50). -/
theorem widened_of_lt {b : Byte} (h : b.toNat < 0x80) (uns uns' : Bool) : widened uns b = widened uns' b := by
  unfold widened
  rw [if_pos (.inr h), if_pos (.inr h)]

/-! ### Half-MD4, TEA, Legacy and post-processing (R52 to R55) -/

/-- Four steps of R52 in the order the rule writes them: for a, d, c and b. -/
def md4Group (f : Word → Word → Word → Word) (k : Word) (s0 s1 s2 s3 : Nat) (x0 x1 x2 x3 : Word)
    (v : Work) : Work :=
  let a := stepped f v.p v.q v.r v.u x0 k s0
  let d := stepped f v.u a v.q v.r x1 k s1
  let c := stepped f v.r d a v.q x2 k s2
  let b := stepped f v.q c d a x3 k s3
  ⟨a, b, c, d⟩

theorem md4Round_select (w : Vector Word 8) (v : Work) :
    md4Round w .select v =
      md4Group selection 0#32 3 7 11 19 w[4] w[5] w[6] w[7]
        (md4Group selection 0#32 3 7 11 19 w[0] w[1] w[2] w[3] v) := rfl

theorem md4Round_majority (w : Vector Word 8) (v : Work) :
    md4Round w .majority v =
      md4Group Claims.majority 0x5A827999#32 3 5 9 13 w[0] w[2] w[4] w[6]
        (md4Group Claims.majority 0x5A827999#32 3 5 9 13 w[1] w[3] w[5] w[7] v) := rfl

theorem md4Round_parity (w : Vector Word 8) (v : Work) :
    md4Round w .parity v =
      md4Group Claims.parity 0x6ED9EBA1#32 3 9 11 15 w[1] w[5] w[0] w[4]
        (md4Group Claims.parity 0x6ED9EBA1#32 3 9 11 15 w[3] w[7] w[2] w[6] v) := rfl

/-- The working words after the three rounds, whatever they are, are added to H (R52). -/
theorem md4Transform_of_rounds {h : Vector Word 4} {w : Vector Word 8} {v : Work}
    (hv : md4Round w .parity (md4Round w .majority (md4Round w .select ⟨h[0], h[1], h[2], h[3]⟩)) = v) :
    md4Transform h w = #v[h[0] + v.p, h[1] + v.q, h[2] + v.r, h[3] + v.u] := by
  rw [← hv]
  rfl

/-- The six groups of R52, each from the working words the one before it leaves. -/
theorem md4Transform_eq (h : Vector Word 4) (w : Vector Word 8) : md4Transform h w = md4Spec h w := by
  unfold md4Spec
  extract_lets k2 k3
  split
  next a b c d hinit =>
  obtain ⟨rfl, rfl, rfl, rfl⟩ : h[0] = a ∧ h[1] = b ∧ h[2] = c ∧ h[3] = d := by simpa using hinit
  extract_lets a1 d1 c1 b1 a2 d2 c2 b2 a3 d3 c3 b3 a4 d4 c4 b4 a5 d5 c5 b5 a6 d6 c6 b6
  have h1 : md4Group selection 0#32 3 7 11 19 w[0] w[1] w[2] w[3] ⟨h[0], h[1], h[2], h[3]⟩ =
    ⟨a1, b1, c1, d1⟩ := rfl
  have h2 : md4Group selection 0#32 3 7 11 19 w[4] w[5] w[6] w[7] ⟨a1, b1, c1, d1⟩ =
    ⟨a2, b2, c2, d2⟩ := rfl
  have h3 : md4Group Claims.majority k2 3 5 9 13 w[1] w[3] w[5] w[7] ⟨a2, b2, c2, d2⟩ =
    ⟨a3, b3, c3, d3⟩ := rfl
  have h4 : md4Group Claims.majority k2 3 5 9 13 w[0] w[2] w[4] w[6] ⟨a3, b3, c3, d3⟩ =
    ⟨a4, b4, c4, d4⟩ := rfl
  have h5 : md4Group Claims.parity k3 3 9 11 15 w[3] w[7] w[2] w[6] ⟨a4, b4, c4, d4⟩ =
    ⟨a5, b5, c5, d5⟩ := rfl
  have h6 : md4Group Claims.parity k3 3 9 11 15 w[1] w[5] w[0] w[4] ⟨a5, b5, c5, d5⟩ =
    ⟨a6, b6, c6, d6⟩ := rfl
  refine md4Transform_of_rounds (v := ⟨a6, b6, c6, d6⟩) ?_
  rw [md4Round_select, h1, h2, md4Round_majority, h3, h4, md4Round_parity, h5, h6]

/-- The model counts the mixing steps of R53 down, the rule iterates one step. -/
theorem teaSteps_eq (w : Vector Word 8) (n : Nat) (sum b0 b1 : Word) :
    teaSteps w n sum b0 b1 =
      (((teaStep w)^[n] (b0, b1, sum)).1, ((teaStep w)^[n] (b0, b1, sum)).2.1) := by
  induction n generalizing sum b0 b1 with
  | zero => rfl
  | succ n ih =>
    rw [teaSteps, ih, Function.iterate_succ_apply]
    rfl

theorem teaTransform_eq (h : Vector Word 4) (w : Vector Word 8) : teaTransform h w = teaSpec h w := by
  simp only [teaTransform, teaSteps_eq, teaSpec]

/-- The top bit of the sum decides the correction of R54. -/
theorem ite_msb_eq (sum x y : Word) :
    (if sum.msb then x else y) = if 2 ^ 31 ≤ sum.toNat then x else y := by
  simp only [BitVec.msb_eq_decide, decide_eq_true_eq]

theorem legacySpec_succ (s : State) (uns : Bool) (k : Nat) :
    legacySpec s uns (k + 1) =
      legacyMix uns (nameByte s k) (legacySpec s uns k).1 (legacySpec s uns k).2 := by
  rw [legacySpec, List.range_succ, List.foldl_append, legacyMix, widen_eq, ite_msb_eq]
  rfl

theorem post_eq (m : Word) : post m = posted m := rfl

end Sys2Proof.Machine
end

section
/-! PROOFS. Chunk preparation and HPREP (spec/41_hash.md R51, R58): the byte loop packs one byte after another
into W until the chunk ends or a read fails. -/

namespace Sys2Proof.Machine

open Sys2Proof.Claims

/-! ### The words of a chunk -/

/-- Word `j` of the chunk at `off` with its first `c` bytes shifted into the padding (R51). -/
def groupWord (s : State) (off : Nat) (uns : Bool) (j c : Nat) : Word :=
  (List.range c).foldl
    (fun v t => joined s.platform.combine (v <<< 8) (widened uns (nameByte s (off + 4 * j + t))))
    (BitVec.ofNat 32 ((s.nameLen.toNat - off) % 256 * 0x01010101))

/-- How many bytes the chunk at `off` has (R51). -/
def chunkLen (s : State) (off : Nat) : Nat := min 32 (s.nameLen.toNat - off)

theorem groupWord_zero (s : State) (off : Nat) (uns : Bool) (j : Nat) :
    groupWord s off uns j 0 = padWord (s.nameLen.toNat - off) := (padWord_eq _).symm

theorem groupWord_succ (s : State) (off : Nat) (uns : Bool) (j c : Nat) :
    groupWord s off uns j (c + 1) =
      combineLane s.platform.combine (groupWord s off uns j c <<< 8)
        (widen uns (nameByte s (off + 4 * j + c))) := by
  rw [groupWord, List.range_succ, List.foldl_append, combineLane_eq, widen_eq]
  rfl

theorem packed_getElem (s : State) (off : Nat) (uns : Bool) {j : Nat} (hj : j < 8) :
    (packed s off uns)[j] = groupWord s off uns j (min 4 (chunkLen s off - 4 * j)) := by
  simp [packed, groupWord, chunkLen]

/-- Chunk preparation depends on the name's length and its widened bytes as they join the lanes only. -/
theorem packed_congr {s s' : State} {uns uns' : Bool} (hlen : s'.nameLen = s.nameLen) {off : Nat}
    (hlane : ∀ k, k < min 32 (s.nameLen.toNat - off) → ∀ v : Word,
      joined s'.platform.combine (v <<< 8) (widened uns' (nameByte s' (off + k))) =
        joined s.platform.combine (v <<< 8) (widened uns (nameByte s (off + k)))) :
    packed s' off uns' = packed s off uns := by
  unfold packed
  congr 1
  funext j
  rw [hlen]
  refine List.foldl_ext _ _ _ fun v t ht => ?_
  have hin : 4 * j.val + t < min 32 (s.nameLen.toNat - off) := by
    have := List.mem_range.1 ht
    omega
  rw [Nat.add_assoc]
  exact hlane _ hin v

/-- W with the words complete before byte `t` of the chunk written (R51, R75). -/
def packedBefore (s : State) (off : Nat) (uns : Bool) (t : Nat) (w : Vector Word 8) : Vector Word 8 :=
  Vector.ofFn fun j : Fin 8 => if 4 * j.val + 4 ≤ t then (packed s off uns)[j] else w[j]

theorem packedBefore_getElem (s : State) (off : Nat) (uns : Bool) (t : Nat) (w : Vector Word 8) {j : Nat}
    (hj : j < 8) :
    (packedBefore s off uns t w)[j] = if 4 * j + 4 ≤ t then (packed s off uns)[j] else w[j] := by
  simp [packedBefore]

theorem packedBefore_zero (s : State) (off : Nat) (uns : Bool) (w : Vector Word 8) :
    packedBefore s off uns 0 w = w := by
  refine Vector.ext fun j hj => ?_
  rw [packedBefore_getElem _ _ _ _ _ hj, if_neg (by omega)]

/-- A byte inside a word completes none. -/
theorem packedBefore_succ_of_inside {t : Nat} (ht : t % 4 ≠ 3) (s : State) (off : Nat) (uns : Bool)
    (w : Vector Word 8) : packedBefore s off uns (t + 1) w = packedBefore s off uns t w := by
  refine Vector.ext fun j hj => ?_
  rw [packedBefore_getElem _ _ _ _ _ hj, packedBefore_getElem _ _ _ _ _ hj]
  exact if_congr (by omega) rfl rfl

/-- The last byte of a word completes it. -/
theorem packedBefore_succ_of_last {s : State} {off t : Nat} (ht : t % 4 = 3) (hlt : t < chunkLen s off)
    (uns : Bool) (w : Vector Word 8) :
    packedBefore s off uns (t + 1) w =
      (packedBefore s off uns t w).setIfInBounds (t / 4) (groupWord s off uns (t / 4) 4) := by
  refine Vector.ext fun j hj => ?_
  rw [Vector.getElem_setIfInBounds hj, packedBefore_getElem _ _ _ _ _ hj, packedBefore_getElem _ _ _ _ _ hj]
  by_cases hjt : t / 4 = j
  · have hfull : min 4 (chunkLen s off - 4 * j) = 4 := by omega
    rw [if_pos hjt, if_pos (by omega), packed_getElem _ _ _ hj, hfull, hjt]
  · rw [if_neg hjt]
    exact if_congr (by omega) rfl rfl

/-! ### The byte loop -/

/-- The byte loop of chunk preparation from byte `t` on, the bytes before it packed. -/
def packFrom (s : State) (off : Nat) (uns : Bool) (t : Nat) (tr : List Access) : Port (Nat × Word) :=
  packBytes (s.nameAddr off) uns (padWord (s.nameLen.toNat - off)) (chunkLen s off - t) t (t / 4)
    (groupWord s off uns (t / 4) (t % 4)) ⟨s.setW (packedBefore s off uns t s.w), tr⟩

theorem prep_eq (s : State) (off : Nat) (uns : Bool) (tr : List Access) :
    prep off uns ⟨s, tr⟩ =
      (packFrom s off uns 0 tr).andThen fun v r =>
        .ok () (r.update (State.padFrom v.1 v.2 (padWord (s.nameLen.toNat - off)))) := by
  rw [packFrom, packedBefore_zero, Nat.zero_div, Nat.zero_mod, groupWord_zero, chunkLen, Nat.min_comm]
  rfl

section
variable {s : State} {off : Nat} {uns : Bool} {t : Nat}

/-- One readable byte: it joins its word, which is written to W if this was its last byte (R51). -/
theorem packFrom_succ (ht : t < chunkLen s off) (hread : Readable s (s.nameBase.toNat + off + t))
    (tr : List Access) :
    packFrom s off uns t tr =
      packFrom s off uns (t + 1) (tr ++ [.read (s.nameBase.toNat + off + t)]) := by
  have hmem : memRead (s.nameAddr off + t) ⟨s.setW (packedBefore s off uns t s.w), tr⟩ =
      .ok (nameByte s (off + t))
        ⟨s.setW (packedBefore s off uns t s.w), tr ++ [.read (s.nameBase.toNat + off + t)]⟩ := by
    rw [nameByte, ← Nat.add_assoc]
    exact memRead_seen hread.1 hread.2
  have hleft : chunkLen s off - t = (chunkLen s off - (t + 1)) + 1 := by omega
  have hbyte : off + 4 * (t / 4) + t % 4 = off + t := by omega
  have hjoin := groupWord_succ s off uns (t / 4) (t % 4)
  rw [hbyte] at hjoin
  rw [packFrom, hleft, packBytes, hmem, Port.ok_andThen]
  dsimp only [State.setW_platform]
  rw [← hjoin]
  by_cases hlast : t % 4 = 3
  · have hword : (t + 1) / 4 = t / 4 + 1 := by omega
    have hfirst : (t + 1) % 4 = 0 := by omega
    rw [if_pos hlast, packFrom, packedBefore_succ_of_last hlast ht, hlast, hword, hfirst, groupWord_zero]
    rfl
  · have hword : (t + 1) / 4 = t / 4 := by omega
    have hnext : (t + 1) % 4 = t % 4 + 1 := by omega
    rw [if_neg hlast, packFrom, packedBefore_succ_of_inside hlast, hword, hnext]

theorem packFrom_reaches (ht : t ≤ chunkLen s off)
    (hread : ∀ k, k < t → Readable s (s.nameBase.toNat + off + k)) (tr : List Access) :
    ∃ tr', packFrom s off uns 0 tr = packFrom s off uns t tr' := by
  induction t with
  | zero => exact ⟨tr, rfl⟩
  | succ t ih =>
    obtain ⟨tr', h⟩ := ih (by omega) fun k hk => hread k (by omega)
    exact ⟨_, h.trans (packFrom_succ ht (hread t (Nat.lt_succ_self t)) tr')⟩

theorem packFrom_busErr (ht : t < chunkLen s off)
    (hfail : s.portOk (s.nameBase.toNat + off + t) .read = false) (tr : List Access) :
    packFrom s off uns t tr =
      .busErr (BitVec.ofNat 32 (s.nameBase.toNat + off + t))
        ⟨s.setW (packedBefore s off uns t s.w), tr⟩ := by
  have hmem : memRead (s.nameAddr off + t) ⟨s.setW (packedBefore s off uns t s.w), tr⟩ = _ :=
    memRead_err hfail
  have hleft : chunkLen s off - t = (chunkLen s off - (t + 1)) + 1 := by omega
  rw [packFrom, hleft, packBytes, hmem]
  rfl

/-- At the end of the loop the incomplete word is in the accumulator. -/
theorem packFrom_end (s : State) (off : Nat) (uns : Bool) (tr : List Access) :
    packFrom s off uns (chunkLen s off) tr =
      .ok (chunkLen s off / 4, groupWord s off uns (chunkLen s off / 4) (chunkLen s off % 4))
        ⟨s.setW (packedBefore s off uns (chunkLen s off) s.w), tr⟩ := by
  rw [packFrom, Nat.sub_self]
  rfl

/-- The incomplete word and the padding after it complete the chunk (R51). -/
theorem padFrom_packedBefore (s : State) (off : Nat) (uns : Bool) (w : Vector Word 8) :
    (s.setW (packedBefore s off uns (chunkLen s off) w)).padFrom (chunkLen s off / 4)
        (groupWord s off uns (chunkLen s off / 4) (chunkLen s off % 4)) (padWord (s.nameLen.toNat - off)) =
      s.setW (packed s off uns) := by
  have hw : (Vector.ofFn fun k : Fin 8 =>
      if k.val < chunkLen s off / 4 then (packedBefore s off uns (chunkLen s off) w)[k]
      else if k.val = chunkLen s off / 4 then
        groupWord s off uns (chunkLen s off / 4) (chunkLen s off % 4)
      else padWord (s.nameLen.toNat - off)) = packed s off uns := by
    refine Vector.ext fun k hk => ?_
    simp only [Vector.getElem_ofFn, Fin.getElem_fin, packedBefore_getElem _ _ _ _ _ hk]
    rcases Nat.lt_trichotomy k (chunkLen s off / 4) with hlt | heq | hgt
    · rw [if_pos hlt, if_pos (by omega)]
    · have hcount : min 4 (chunkLen s off - 4 * k) = chunkLen s off % 4 := by omega
      rw [if_neg (by omega), if_pos heq, packed_getElem _ _ _ hk, hcount, heq]
    · have hcount : min 4 (chunkLen s off - 4 * k) = 0 := by omega
      rw [if_neg (by omega), if_neg (by omega), packed_getElem _ _ _ hk, hcount, groupWord_zero]
  rw [State.padFrom, State.setW_w, hw]
  rfl

/-- Chunk preparation of a readable chunk writes its packed words to W (R51). -/
theorem prep_readable (hread : ∀ k, k < chunkLen s off → Readable s (s.nameBase.toNat + off + k))
    (tr : List Access) :
    ∃ tr', prep off uns ⟨s, tr⟩ = .ok () ⟨s.setW (packed s off uns), tr'⟩ := by
  obtain ⟨tr', h⟩ := packFrom_reaches (uns := uns) (Nat.le_refl _) hread tr
  refine ⟨tr', ?_⟩
  rw [prep_eq, h, packFrom_end, Port.ok_andThen, ← padFrom_packedBefore s off uns s.w]
  rfl

/-- Chunk preparation that meets an unreadable byte leaves the words complete before it (R51, R75). -/
theorem prep_busErr (ht : t < chunkLen s off)
    (hread : ∀ k, k < t → Readable s (s.nameBase.toNat + off + k))
    (hfail : s.portOk (s.nameBase.toNat + off + t) .read = false) (tr : List Access) :
    ∃ tr', prep off uns ⟨s, tr⟩ =
      .busErr (BitVec.ofNat 32 (s.nameBase.toNat + off + t))
        ⟨s.setW (packedBefore s off uns t s.w), tr'⟩ := by
  obtain ⟨tr', h⟩ := packFrom_reaches (uns := uns) ht.le hread tr
  refine ⟨tr', ?_⟩
  rw [prep_eq, h, packFrom_busErr ht hfail, Port.busErr_andThen]

/-! ### HPREP -/

/-- On supported operands HPREP is one chunk preparation (R58). -/
theorem engineRun_hprep {alg : Nat} (hmin : 1 ≤ s.nameLen.toNat) (hmax : s.nameLen.toNat ≤ 255)
    (halg : alg ≤ 5) (hoff : s.nameOff.toNat < s.nameLen.toNat) :
    engineRun (.hprep alg) s =
      (prep s.nameOff.toNat (unsignedOf alg) ⟨s, []⟩).finish fun _ r => .completed false r :=
  if_pos (State.hprepOk_iff.2 ⟨⟨⟨hmin, hmax⟩, halg⟩, hoff⟩)

theorem exec_hprep_readable {alg : Nat} (hmin : 1 ≤ s.nameLen.toNat) (hmax : s.nameLen.toNat ≤ 255)
    (halg : alg ≤ 5) (hoff : s.nameOff.toNat < s.nameLen.toNat)
    (hread : ∀ k, k < chunkLen s s.nameOff.toNat → Readable s (s.nameBase.toNat + s.nameOff.toNat + k)) :
    exec (.hprep alg) s =
      .next (okState false { s with w := packed s s.nameOff.toNat (unsignedOf alg) }) := by
  obtain ⟨tr, h⟩ := prep_readable (uns := unsignedOf alg) hread []
  rw [exec_eq, engineRun_hprep hmin hmax halg hoff, h]
  rfl

theorem exec_hprep_busErr {alg : Nat} (hmin : 1 ≤ s.nameLen.toNat) (hmax : s.nameLen.toNat ≤ 255)
    (halg : alg ≤ 5) (hoff : s.nameOff.toNat < s.nameLen.toNat) (ht : t < chunkLen s s.nameOff.toNat)
    (hread : ∀ k, k < t → Readable s (s.nameBase.toNat + s.nameOff.toNat + k))
    (hfail : s.portOk (s.nameBase.toNat + s.nameOff.toNat + t) .read = false) :
    exec (.hprep alg) s =
      .next (errState .buserr (BitVec.ofNat 32 (s.nameBase.toNat + s.nameOff.toNat + t))
        { s with w := packedBefore s s.nameOff.toNat (unsignedOf alg) t s.w }) := by
  obtain ⟨tr, h⟩ := prep_busErr (uns := unsignedOf alg) ht hread hfail []
  rw [exec_eq, engineRun_hprep hmin hmax halg hoff, h]
  rfl

/-- A command that is refused ends with NOTSUP before any access (41_hash.md, `notsup()`). -/
theorem exec_of_notsup {i : Instr} (hi : i.wellFormed = true) (h : engineRun i s = notsup i (Run.start s)) :
    exec i s = .next (refusedState (hashWord i.opcode i.algOperand i.seedOperand) s) ∧
      (engineRun i s).trace = [] := by
  obtain ⟨hexec, htrace⟩ := exec_of_run h
  rw [notsup_state hi] at hexec
  exact ⟨hexec, htrace⟩

theorem hprep_refused {alg : Nat} (hfit : alg < 16)
    (h : s.nameLen.toNat < 1 ∨ 255 < s.nameLen.toNat ∨ 5 < alg ∨ s.nameLen.toNat ≤ s.nameOff.toNat) :
    exec (.hprep alg) s = .next (refusedState (hashWord 0x12 alg false) s) ∧
      (engineRun (.hprep alg) s).trace = [] := by
  have hbad : ¬ s.hprepOk alg = true := by
    rw [State.hprepOk_iff]
    omega
  exact exec_of_notsup (i := .hprep alg) (decide_eq_true hfit) (if_neg hbad)

end

/-! ### The obligations on chunk preparation -/

/-- Settles O21: the operands are refused, or the byte loop gets to the end of the chunk or to its first
unreadable byte. -/
theorem hprepPacksChunk : Obligations.HprepPacksChunk := by
  intro alg s hfit n o uns
  have hwf : (Instr.hprep alg).wellFormed = true := decide_eq_true hfit
  refine ⟨(hashWord_eq_encode hwf).symm, hprep_refused hfit, fun hmin hmax halg hoff hread => ?_,
    fun t hmin hmax halg hoff ht hread hfail => ?_⟩
  · exact exec_hprep_readable hmin hmax halg hoff hread
  · exact exec_hprep_busErr hmin hmax halg hoff ht hread hfail

/-- Settles O22: both platforms join each Unsigned lane to the same word. -/
theorem packCombineAgreeUnsigned : Obligations.PackCombineAgreeUnsigned := by
  intro s off c _ hread
  let s' : State := { s with platform := { s.platform with combine := c } }
  have hlanes : packed s' off true = packed s off true :=
    packed_congr (s := s) (s' := s') rfl fun k _ v =>
      (joined_unsigned c v (nameByte s (off + k))).trans (joined_unsigned s.platform.combine v _).symm
  obtain ⟨tr, h⟩ := prep_readable (uns := true) hread []
  obtain ⟨tr', h'⟩ := prep_readable (s := s') (uns := true) hread []
  exact ⟨_, _, h, h', hlanes⟩

end Sys2Proof.Machine
end

section
/-! PROOFS. HASH and the pipeline commands (spec/41_hash.md R56 to R62): the chunk loop and the Legacy loop up
to the end of the name or to its first unreadable byte, what the hash depends on, and the same hash by HINIT,
HPREP, the block commands and HFIN. -/

namespace Sys2Proof.Machine

open Sys2Proof.Claims

/-! ### The bytes of the name -/

/-- The first `m` bytes of the name are readable. -/
def NameReadable (s : State) (m : Nat) : Prop := ∀ k, k < m → Readable s (s.nameBase.toNat + k)

/-- The bytes a chunk reads lie in the name. -/
theorem NameReadable.chunk {s : State} {m off : Nat} (h : NameReadable s m)
    (hm : off + chunkLen s off ≤ m) :
    ∀ k, k < chunkLen s off → Readable s (s.nameBase.toNat + off + k) := by
  intro k hk
  rw [Nat.add_assoc]
  exact h (off + k) (by omega)

/-- Where no byte is hidden, the name is readable or has a first unreadable byte. -/
theorem nameReadable_or_first {s : State} {n : Nat}
    (hseen : ∀ k, k < n → s.engineBlind (s.nameBase.toNat + k) = false) :
    NameReadable s n ∨
      ∃ t, t < n ∧ NameReadable s t ∧ s.portOk (s.nameBase.toNat + t) .read = false := by
  induction n with
  | zero => exact .inl fun k hk => absurd hk (Nat.not_lt_zero k)
  | succ n ih =>
    rcases ih fun k hk => hseen k (by omega) with hread | ⟨t, ht, hfirst⟩
    · cases hport : s.portOk (s.nameBase.toNat + n) .read with
      | false => exact .inr ⟨n, Nat.lt_succ_self n, hread, hport⟩
      | true =>
        refine .inl fun k hk => ?_
        rcases Nat.lt_succ_iff_lt_or_eq.1 hk with hlt | rfl
        · exact hread k hlt
        · exact ⟨hport, hseen k hk⟩
    · exact .inr ⟨t, by omega, hfirst⟩

/-! ### H and W chunk by chunk -/

/-- H and W take the two values. -/
def State.withHash (v : Vector Word 4 × Vector Word 8) (s : State) : State := (s.setH v.1).setW v.2

/-- A block transform of the model replaces H by a function of H and W (R52, R53). -/
def Transforms (block : State → State) (tr : Vector Word 4 → Vector Word 8 → Vector Word 4) : Prop :=
  ∀ s, block s = s.setH (tr s.h s.w)

theorem transforms_md4 : Transforms State.md4Block md4Spec := fun s => by
  rw [State.md4Block_eq, md4Transform_eq]

theorem transforms_tea : Transforms State.teaBlock teaSpec := fun s => by
  rw [State.teaBlock_eq, teaTransform_eq]

section
variable {tr : Vector Word 4 → Vector Word 8 → Vector Word 4} {stride : Nat} {uns uns' : Bool}
  {s s' : State} {h : Vector Word 4}

theorem chunked_succ (k : Nat) :
    chunked tr stride uns s h (k + 1) =
      (tr (chunked tr stride uns s h k).1 (packed s (stride * k) uns), packed s (stride * k) uns) := by
  rw [chunked, List.range_succ, List.foldl_append]
  rfl

/-- H depends on the packed chunks and on the first H only. -/
theorem chunked_fst_congr (hpacked : ∀ off, packed s' off uns' = packed s off uns) (k : Nat) :
    (chunked tr stride uns' s' h k).1 = (chunked tr stride uns s h k).1 := by
  induction k with
  | zero => rfl
  | succ k ih => rw [chunked_succ, chunked_succ, ih, hpacked]

/-- One chunk of the loop, after the `c` chunks before it. -/
theorem hashChunks_succ {block : State → State} (hb : Transforms block tr) {c : Nat}
    (hread : ∀ k, k < chunkLen s (stride * c) → Readable s (s.nameBase.toNat + stride * c + k))
    (count : Nat) (trace : List Access) :
    ∃ trace', hashChunks stride block uns (count + 1) (stride * c)
        ⟨s.withHash (chunked tr stride uns s h c), trace⟩ =
      hashChunks stride block uns count (stride * (c + 1))
        ⟨s.withHash (chunked tr stride uns s h (c + 1)), trace'⟩ := by
  obtain ⟨trace', hprep⟩ := prep_readable (s := s.withHash (chunked tr stride uns s h c)) (uns := uns)
    hread trace
  refine ⟨trace', ?_⟩
  rw [hashChunks, hprep, Port.ok_andThen, Run.update, hb, chunked_succ]
  rfl

theorem hashChunks_reaches {block : State → State} (hb : Transforms block tr) {c count : Nat}
    (hc : c ≤ count)
    (hread : ∀ i, i < c → ∀ k, k < chunkLen s (stride * i) →
      Readable s (s.nameBase.toNat + stride * i + k)) (trace : List Access) :
    ∃ trace', hashChunks stride block uns count 0 ⟨s.withHash (h, s.w), trace⟩ =
      hashChunks stride block uns (count - c) (stride * c)
        ⟨s.withHash (chunked tr stride uns s h c), trace'⟩ := by
  induction c with
  | zero => exact ⟨trace, rfl⟩
  | succ c ih =>
    obtain ⟨trace1, h1⟩ := ih (by omega) fun i hi => hread i (by omega)
    obtain ⟨trace2, h2⟩ :=
      hashChunks_succ (uns := uns) (h := h) hb (hread c (Nat.lt_succ_self c)) (count - (c + 1)) trace1
    have hleft : count - c = count - (c + 1) + 1 := by omega
    exact ⟨trace2, by rw [h1, hleft, h2]⟩

/-- A name readable up to the end of its last chunk is hashed to the end (R56). -/
theorem hashChunks_readable {block : State → State} (hb : Transforms block tr) {count m : Nat}
    (hread : NameReadable s m) (hm : ∀ i, i < count → stride * i + chunkLen s (stride * i) ≤ m)
    (trace : List Access) :
    ∃ trace', hashChunks stride block uns count 0 ⟨s.withHash (h, s.w), trace⟩ =
      .ok () ⟨s.withHash (chunked tr stride uns s h count), trace'⟩ := by
  obtain ⟨trace', hreach⟩ := hashChunks_reaches (uns := uns) (h := h) hb (Nat.le_refl count)
    (fun i hi => hread.chunk (hm i hi)) trace
  exact ⟨trace', by rw [hreach, Nat.sub_self, hashChunks]⟩

/-- The chunk loop stops at the first unreadable byte, `t`, in chunk `c`: the chunks before it are done, and
W has the words of chunk `c` complete before the byte (R56, R75). -/
theorem hashChunks_busErr {block : State → State} (hb : Transforms block tr) {c count t : Nat}
    (hc : c < count) (hread : NameReadable s t)
    (hbefore : ∀ i, i < c → stride * i + chunkLen s (stride * i) ≤ t) (hfirst : stride * c ≤ t)
    (hlast : t < stride * c + chunkLen s (stride * c))
    (hfail : s.portOk (s.nameBase.toNat + t) .read = false) (trace : List Access) :
    ∃ trace', hashChunks stride block uns count 0 ⟨s.withHash (h, s.w), trace⟩ =
      .busErr (BitVec.ofNat 32 (s.nameBase.toNat + t))
        ⟨s.withHash ((chunked tr stride uns s h c).1,
          packedBefore s (stride * c) uns (t - stride * c) (chunked tr stride uns s h c).2), trace'⟩ := by
  obtain ⟨trace1, hreach⟩ := hashChunks_reaches (uns := uns) (h := h) hb hc.le
    (fun i hi => hread.chunk (hbefore i hi)) trace
  have haddr : s.nameBase.toNat + stride * c + (t - stride * c) = s.nameBase.toNat + t := by omega
  have hpart : ∀ k, k < t - stride * c → Readable s (s.nameBase.toNat + stride * c + k) := by
    intro k hk
    rw [Nat.add_assoc]
    exact hread _ (by omega)
  obtain ⟨trace2, hprep⟩ := prep_busErr (s := s.withHash (chunked tr stride uns s h c)) (off := stride * c)
    (uns := uns) (t := t - stride * c) (show _ < chunkLen s (stride * c) by omega) hpart
    (show s.portOk _ .read = false from haddr ▸ hfail) trace1
  have hleft : count - c = count - (c + 1) + 1 := by omega
  refine ⟨trace2, ?_⟩
  rw [hreach, hleft, hashChunks, hprep, ← haddr]
  rfl

end

/-! ### The Legacy loop -/

section
variable {s : State} {uns : Bool} {n : Nat}

/-- The bytes before the first unreadable one, or all of them, are mixed in (R54). -/
theorem legacyBytes_reaches {t : Nat} (ht : t ≤ n) (hread : NameReadable s t) (trace : List Access) :
    ∃ trace', legacyBytes s.nameBase.toNat uns n 0 0x12A3FE2D#32 0x37ABE8F9#32 ⟨s, trace⟩ =
      legacyBytes s.nameBase.toNat uns (n - t) t (legacySpec s uns t).1 (legacySpec s uns t).2
        ⟨s, trace'⟩ := by
  induction t with
  | zero => exact ⟨trace, rfl⟩
  | succ t ih =>
    obtain ⟨trace1, h1⟩ := ih (by omega) fun k hk => hread k (by omega)
    have hmem : memRead (s.nameBase.toNat + t) ⟨s, trace1⟩ =
        .ok (nameByte s t) ⟨s, trace1 ++ [.read (s.nameBase.toNat + t)]⟩ :=
      memRead_seen (hread t (Nat.lt_succ_self t)).1 (hread t (Nat.lt_succ_self t)).2
    have hleft : n - t = n - (t + 1) + 1 := by omega
    refine ⟨trace1 ++ [.read (s.nameBase.toNat + t)], ?_⟩
    rw [h1, hleft, legacyBytes, hmem, Port.ok_andThen, ← legacySpec_succ]

theorem legacy_eq (s : State) (uns : Bool) (trace : List Access) :
    legacy uns ⟨s, trace⟩ =
      legacyBytes s.nameBase.toNat uns s.nameLen.toNat 0 0x12A3FE2D#32 0x37ABE8F9#32 ⟨s, trace⟩ := rfl

theorem legacy_readable (hread : NameReadable s s.nameLen.toNat) (trace : List Access) :
    ∃ trace', legacy uns ⟨s, trace⟩ = .ok ((legacySpec s uns s.nameLen.toNat).1 <<< 1) ⟨s, trace'⟩ := by
  obtain ⟨trace', h⟩ := legacyBytes_reaches (uns := uns) (Nat.le_refl _) hread trace
  exact ⟨trace', by rw [legacy_eq, h, Nat.sub_self, legacyBytes]⟩

theorem legacy_busErr {t : Nat} (ht : t < s.nameLen.toNat) (hread : NameReadable s t)
    (hfail : s.portOk (s.nameBase.toNat + t) .read = false) (trace : List Access) :
    ∃ trace', legacy uns ⟨s, trace⟩ = .busErr (BitVec.ofNat 32 (s.nameBase.toNat + t)) ⟨s, trace'⟩ := by
  obtain ⟨trace', h⟩ := legacyBytes_reaches (uns := uns) ht.le hread trace
  have hmem : memRead (s.nameBase.toNat + t) ⟨s, trace'⟩ = _ := memRead_err hfail
  have hleft : s.nameLen.toNat - t = s.nameLen.toNat - (t + 1) + 1 := by omega
  exact ⟨trace', by rw [legacy_eq, h, hleft, legacyBytes, hmem, Port.busErr_andThen]⟩

end

/-! ### HASH by its family -/

theorem familyOf_legacy {alg : Nat} (h : alg % 3 = 0) : familyOf alg = .legacy := by simp [familyOf, h]
theorem familyOf_md4 {alg : Nat} (h : alg % 3 = 1) : familyOf alg = .md4 := by simp [familyOf, h]
theorem familyOf_tea {alg : Nat} (h : alg % 3 = 2) : familyOf alg = .tea := by simp [familyOf, h]

/-- HASH with this id transforms chunks at the stride and selects H[i] and H[j] (R56). -/
def HashesChunks (alg stride : Nat) (block : State → State) (i j : Fin 4) : Prop :=
  ∀ r, hashName alg r =
    (hashChunks stride block (unsignedOf alg) (chunkCount stride r.st.nameLen.toNat) 0 r).finish
      fun _ r => .completed false (r.update fun s => s.setPost s.h[i] s.h[j])

theorem hashesChunks_md4 {alg : Nat} (h : alg % 3 = 1) :
    HashesChunks alg 32 State.md4Block 1 2 := fun r => by
  rw [hashName, familyOf_md4 h]
  rfl

theorem hashesChunks_tea {alg : Nat} (h : alg % 3 = 2) :
    HashesChunks alg 16 State.teaBlock 0 1 := fun r => by
  rw [hashName, familyOf_tea h]
  rfl

/-- What HASH leaves of a name hashed to its end in chunks, besides STATUS and ERRINFO (R56). -/
def chunkHashed (tr : Vector Word 4 → Vector Word 8 → Vector Word 4) (stride : Nat) (i j : Fin 4)
    (uns : Bool) (h : Vector Word 4) (s : State) : State :=
  let v := chunked tr stride uns s h (chunkCount stride s.nameLen.toNat)
  { s with h := v.1, w := v.2, major := posted v.1[i], minor := v.1[j] }

/-- What HASH leaves when it meets an unreadable byte `t` in chunk `c`, besides STATUS and ERRINFO (R75). -/
def chunkStopped (tr : Vector Word 4 → Vector Word 8 → Vector Word 4) (stride : Nat) (uns : Bool)
    (h : Vector Word 4) (c t : Nat) (s : State) : State :=
  let v := chunked tr stride uns s h c
  { s with h := v.1, w := packedBefore s (stride * c) uns (t - stride * c) v.2 }

theorem hashName_legacy {alg : Nat} (h : alg % 3 = 0) (r : Run) :
    hashName alg r =
      (legacy (unsignedOf alg) r).finish
        fun major r => .completed false (r.update (State.setPost major 0#32)) := by
  rw [hashName, familyOf_legacy h]

/-- On supported operands HASH starts from the IV or the seed (R56). -/
theorem engineRun_hash {s : State} {alg : Nat} (hmin : 1 ≤ s.nameLen.toNat) (hmax : s.nameLen.toNat ≤ 255)
    (halg : alg ≤ 5) (seeded : Bool) :
    engineRun (.hash alg seeded) s = hashName alg ⟨s.withHash (initialH seeded s, s.w), []⟩ :=
  if_pos (State.hashOk_iff.2 ⟨⟨hmin, hmax⟩, halg⟩)

/-- The chunks of a name start before its end. -/
theorem lt_of_lt_chunkCount {stride n i : Nat} (hs : 0 < stride) (h : i < chunkCount stride n) :
    stride * i < n := by
  have := (Nat.lt_div_iff_mul_lt hs).1 h
  rw [Nat.mul_comm]
  omega

section
variable {s : State} {alg : Nat} (hmin : 1 ≤ s.nameLen.toNat) (hmax : s.nameLen.toNat ≤ 255)
  (halg : alg ≤ 5)
include hmin hmax halg

theorem exec_hash_legacy_readable (hlegacy : alg % 3 = 0) (hread : NameReadable s s.nameLen.toNat)
    (seeded : Bool) :
    exec (.hash alg seeded) s = .next (okState false
      { s with
        h := initialH seeded s
        major := posted ((legacySpec s (unsignedOf alg) s.nameLen.toNat).1 <<< 1)
        minor := 0#32 }) := by
  obtain ⟨trace, h⟩ := legacy_readable (s := s.withHash (initialH seeded s, s.w))
    (uns := unsignedOf alg) hread []
  rw [exec_eq, engineRun_hash hmin hmax halg, hashName_legacy hlegacy, h]
  rfl

theorem exec_hash_legacy_busErr (hlegacy : alg % 3 = 0) {t : Nat} (ht : t < s.nameLen.toNat)
    (hread : NameReadable s t) (hfail : s.portOk (s.nameBase.toNat + t) .read = false) (seeded : Bool) :
    exec (.hash alg seeded) s =
      .next (errState .buserr (BitVec.ofNat 32 (s.nameBase.toNat + t))
        { s with h := initialH seeded s }) := by
  obtain ⟨trace, h⟩ := legacy_busErr (s := s.withHash (initialH seeded s, s.w))
    (uns := unsignedOf alg) ht hread hfail []
  rw [exec_eq, engineRun_hash hmin hmax halg, hashName_legacy hlegacy, h]
  rfl

variable {stride : Nat} {block : State → State} {i j : Fin 4}
  {tr : Vector Word 4 → Vector Word 8 → Vector Word 4}

theorem HashesChunks.readable (hh : HashesChunks alg stride block i j) (hb : Transforms block tr)
    (hs : 0 < stride) (hread : NameReadable s s.nameLen.toNat) (seeded : Bool) :
    exec (.hash alg seeded) s = .next (okState false
      (chunkHashed tr stride i j (unsignedOf alg) (initialH seeded s) s)) := by
  have hchunk : ∀ c, c < chunkCount stride s.nameLen.toNat →
      stride * c + chunkLen s (stride * c) ≤ s.nameLen.toNat := by
    intro c hc
    have := lt_of_lt_chunkCount hs hc
    unfold chunkLen
    omega
  obtain ⟨trace, h⟩ := hashChunks_readable (uns := unsignedOf alg) (h := initialH seeded s) hb hread
    hchunk []
  have hcount : (s.withHash (initialH seeded s, s.w)).nameLen = s.nameLen := rfl
  rw [exec_eq, engineRun_hash hmin hmax halg, hh, hcount, h]
  rfl

theorem HashesChunks.busErr (hh : HashesChunks alg stride block i j) (hb : Transforms block tr)
    {c t : Nat} (ht : t < s.nameLen.toNat) (hc : c < chunkCount stride s.nameLen.toNat)
    (hbefore : ∀ i, i < c → stride * i + 32 ≤ t) (hfirst : stride * c ≤ t)
    (hlast : t < stride * c + 32) (hread : NameReadable s t)
    (hfail : s.portOk (s.nameBase.toNat + t) .read = false) (seeded : Bool) :
    exec (.hash alg seeded) s =
      .next (errState .buserr (BitVec.ofNat 32 (s.nameBase.toNat + t))
        (chunkStopped tr stride (unsignedOf alg) (initialH seeded s) c t s)) := by
  have hdone : ∀ i, i < c → stride * i + chunkLen s (stride * i) ≤ t := by
    intro i hi
    have := hbefore i hi
    unfold chunkLen
    omega
  have hin : t < stride * c + chunkLen s (stride * c) := by
    unfold chunkLen
    omega
  obtain ⟨trace, h⟩ := hashChunks_busErr (uns := unsignedOf alg) (h := initialH seeded s) hb hc hread hdone
    hfirst hin hfail []
  have hcount : (s.withHash (initialH seeded s, s.w)).nameLen = s.nameLen := rfl
  rw [exec_eq, engineRun_hash hmin hmax halg, hh, hcount, h]
  rfl

end

/-! ### HASH of a name, and where it stops -/

/-- Settles O27: by the family of the id, the chunk loop or the Legacy loop gets to the end of the name. -/
theorem hashOfReadableName : Obligations.HashOfReadableName := by
  intro alg seeded s hmin hmax halg hread n uns h md4 tea
  obtain hmod | hmod | hmod : alg % 3 = 0 ∨ alg % 3 = 1 ∨ alg % 3 = 2 := by omega
  · rw [if_pos hmod]
    exact exec_hash_legacy_readable hmin hmax halg hmod hread seeded
  · rw [if_neg (by omega), if_pos hmod]
    exact (hashesChunks_md4 hmod).readable hmin hmax halg transforms_md4 (by decide) hread seeded
  · rw [if_neg (by omega), if_neg (by omega)]
    exact (hashesChunks_tea hmod).readable hmin hmax halg transforms_tea (by decide) hread seeded

/-- The words complete before byte `t` of the name, in the chunk at `off`. -/
theorem packedBefore_of_le {off t : Nat} (h : off ≤ t) (s : State) (uns : Bool) (w : Vector Word 8) :
    packedBefore s off uns (t - off) w =
      Vector.ofFn fun j : Fin 8 => if off + 4 * j.val + 4 ≤ t then (packed s off uns)[j] else w[j] := by
  refine congrArg Vector.ofFn (funext fun j => if_congr ?_ rfl rfl)
  omega

/-- A chunk that starts at or before a byte of the name is one of the loop's. -/
theorem lt_chunkCount_of_mul_le {stride n c t : Nat} (hs : 0 < stride) (hc : stride * c ≤ t) (ht : t < n) :
    c < chunkCount stride n := by
  rw [chunkCount, Nat.lt_div_iff_mul_lt hs, Nat.mul_comm]
  omega

/-- Settles O28: in each family the loop reaches byte `t` with the bytes before it done, and stops there. -/
theorem hashStopsAtBusError : Obligations.HashStopsAtBusError := by
  intro alg seeded s t hmin hmax halg ht hread hfail uns h partW c md4 tea
  obtain hmod | hmod | hmod : alg % 3 = 0 ∨ alg % 3 = 1 ∨ alg % 3 = 2 := by omega
  · rw [if_pos hmod]
    exact exec_hash_legacy_busErr hmin hmax halg hmod ht hread hfail seeded
  · have hfirst : 32 * (t / 32) ≤ t := by omega
    rw [if_neg (by omega), if_pos hmod,
      (hashesChunks_md4 hmod).busErr hmin hmax halg transforms_md4 (c := t / 32) ht
        (lt_chunkCount_of_mul_le (by decide) hfirst ht) (by omega) hfirst (by omega) hread hfail seeded,
      chunkStopped, packedBefore_of_le hfirst]
    rfl
  · have hc : t < 32 ∧ c = 0 ∨ 32 ≤ t ∧ c = t / 16 - 1 := by
      unfold c
      split <;> omega
    have hfirst : 16 * c ≤ t := by omega
    rw [if_neg (by omega), if_neg (by omega),
      (hashesChunks_tea hmod).busErr hmin hmax halg transforms_tea (c := c) ht
        (lt_chunkCount_of_mul_le (by decide) hfirst ht) (by omega) hfirst (by omega) hread hfail seeded,
      chunkStopped, packedBefore_of_le hfirst]
    rfl

/-! ### What the hash depends on (R62 items 2, 4 and 5) -/

/-- The Legacy hash depends on the widened bytes it mixes in only (R54). -/
theorem legacySpec_congr {s s' : State} {uns uns' : Bool} {n : Nat}
    (hbytes : ∀ k, k < n → widened uns' (nameByte s' k) = widened uns (nameByte s k)) :
    legacySpec s' uns' n = legacySpec s uns n := by
  refine List.foldl_ext _ _ _ fun r k hk => ?_
  rw [hbytes k (List.mem_range.1 hk)]

/-- The packed chunks depend on the name's length, its widened bytes and `P_PACK_COMBINE` only (R51). -/
theorem packed_of_bytes {s s' : State} {uns uns' : Bool} (hlen : s'.nameLen = s.nameLen)
    (hcombine : s'.platform.combine = s.platform.combine)
    (hbytes : ∀ k, k < s.nameLen.toNat → widened uns' (nameByte s' k) = widened uns (nameByte s k))
    (off : Nat) : packed s' off uns' = packed s off uns := by
  refine packed_congr hlen fun k hk v => ?_
  rw [hcombine, hbytes (off + k) (by omega)]

/-- The chunk in which the loop first meets byte `t`. -/
theorem exists_firstChunk {stride : Nat} (hpos : 0 < stride) (hle : stride ≤ 32) (t : Nat) :
    ∃ c, (∀ i, i < c → stride * i + 32 ≤ t) ∧ stride * c ≤ t ∧ t < stride * c + 32 := by
  have hmul := Nat.le_mul_of_pos_left t hpos
  have hex : ∃ c, t < stride * c + 32 := ⟨t, by omega⟩
  refine ⟨Nat.find hex, fun i hi => Nat.le_of_not_lt (Nat.find_min hex hi), ?_, Nat.find_spec hex⟩
  cases hc : Nat.find hex with
  | zero => simp
  | succ c =>
    have hprev : stride * c + 32 ≤ t := Nat.le_of_not_lt (Nat.find_min hex (by omega))
    rw [Nat.mul_succ]
    omega

/-- Two ids of one family that pack every chunk alike leave the same state (R62 item 2). -/
theorem HashesChunks.agree {s : State} {alg alg' stride : Nat} {block : State → State} {i j : Fin 4}
    {tr : Vector Word 4 → Vector Word 8 → Vector Word 4} (hmin : 1 ≤ s.nameLen.toNat)
    (hmax : s.nameLen.toNat ≤ 255) (halg : alg ≤ 5) (halg' : alg' ≤ 5)
    (hh : HashesChunks alg stride block i j) (hh' : HashesChunks alg' stride block i j)
    (hb : Transforms block tr) (hpos : 0 < stride) (hle : stride ≤ 32)
    (hseen : ∀ k, k < s.nameLen.toNat → s.engineBlind (s.nameBase.toNat + k) = false)
    (hpacked : ∀ off, packed s off (unsignedOf alg') = packed s off (unsignedOf alg)) (seeded : Bool) :
    exec (.hash alg seeded) s = exec (.hash alg' seeded) s := by
  have hchunked : ∀ h k, chunked tr stride (unsignedOf alg') s h k =
      chunked tr stride (unsignedOf alg) s h k := fun h k => by simp only [chunked, hpacked]
  rcases nameReadable_or_first hseen with hread | ⟨t, ht, hread, hfail⟩
  · rw [hh.readable hmin hmax halg hb hpos hread, hh'.readable hmin hmax halg' hb hpos hread, chunkHashed,
      chunkHashed, hchunked]
  · obtain ⟨c, hbefore, hfirst, hlast⟩ := exists_firstChunk hpos hle t
    have hc := lt_chunkCount_of_mul_le hpos hfirst ht
    rw [hh.busErr hmin hmax halg hb ht hc hbefore hfirst hlast hread hfail,
      hh'.busErr hmin hmax halg' hb ht hc hbefore hfirst hlast hread hfail, chunkStopped, chunkStopped,
      hchunked, packedBefore, packedBefore, hpacked]

/-- Two Legacy ids that mix the same words leave the same state (R62 item 2). -/
theorem exec_hash_legacy_agree {s : State} {alg alg' : Nat} (hmin : 1 ≤ s.nameLen.toNat)
    (hmax : s.nameLen.toNat ≤ 255) (halg : alg ≤ 5) (halg' : alg' ≤ 5) (hmod : alg % 3 = 0)
    (hmod' : alg' % 3 = 0)
    (hseen : ∀ k, k < s.nameLen.toNat → s.engineBlind (s.nameBase.toNat + k) = false)
    (hlegacy : legacySpec s (unsignedOf alg') s.nameLen.toNat =
      legacySpec s (unsignedOf alg) s.nameLen.toNat) (seeded : Bool) :
    exec (.hash alg seeded) s = exec (.hash alg' seeded) s := by
  rcases nameReadable_or_first hseen with hread | ⟨t, ht, hread, hfail⟩
  · rw [exec_hash_legacy_readable hmin hmax halg hmod hread,
      exec_hash_legacy_readable hmin hmax halg' hmod' hread, hlegacy]
  · rw [exec_hash_legacy_busErr hmin hmax halg hmod ht hread hfail,
      exec_hash_legacy_busErr hmin hmax halg' hmod' ht hread hfail]

/-- Settles O30: below 0x80 both ids widen every byte alike, so they pack the same words. -/
theorem signedUnsignedAgree : Obligations.SignedUnsignedAgree := by
  intro alg seeded s halg hmin hmax hname
  have hseen : ∀ k, k < s.nameLen.toNat → s.engineBlind (s.nameBase.toNat + k) = false :=
    fun k hk => (hname k hk).1
  have hbytes : ∀ k, k < s.nameLen.toNat →
      widened (unsignedOf (alg + 3)) (nameByte s k) = widened (unsignedOf alg) (nameByte s k) :=
    fun k hk => widened_of_lt (hname k hk).2 _ _
  have hpacked := packed_of_bytes (s := s) (s' := s) rfl rfl hbytes
  obtain hmod | hmod | hmod : alg % 3 = 0 ∨ alg % 3 = 1 ∨ alg % 3 = 2 := by omega
  · exact exec_hash_legacy_agree hmin hmax (by omega) (by omega) hmod (by omega) hseen
      (legacySpec_congr hbytes) seeded
  · exact (hashesChunks_md4 hmod).agree hmin hmax (by omega) (by omega) (hashesChunks_md4 (by omega))
      transforms_md4 (by decide) (by decide) hseen hpacked seeded
  · exact (hashesChunks_tea hmod).agree hmin hmax (by omega) (by omega) (hashesChunks_tea (by omega))
      transforms_tea (by decide) (by decide) hseen hpacked seeded

/-- The two states get the same result without error (R62 item 5). -/
def SameHash (alg : Nat) (seeded : Bool) (s s' : State) : Prop :=
  ∃ t t', exec (.hash alg seeded) s = .next t ∧ exec (.hash alg seeded) s' = .next t' ∧
    t'.major = t.major ∧ t'.minor = t.minor ∧ t.err = .noError ∧ t'.err = .noError

theorem HashesChunks.sameHash {s s' : State} {alg stride : Nat} {block : State → State} {i j : Fin 4}
    {tr : Vector Word 4 → Vector Word 8 → Vector Word 4} (hmin : 1 ≤ s.nameLen.toNat)
    (hmax : s.nameLen.toNat ≤ 255) (halg : alg ≤ 5) (hh : HashesChunks alg stride block i j)
    (hb : Transforms block tr) (hpos : 0 < stride) (hlen : s'.nameLen = s.nameLen) {seeded : Bool}
    (hinit : initialH seeded s' = initialH seeded s)
    (hread : NameReadable s s.nameLen.toNat) (hread' : NameReadable s' s'.nameLen.toNat)
    (hpacked : ∀ off, packed s' off (unsignedOf alg) = packed s off (unsignedOf alg)) :
    SameHash alg seeded s s' := by
  have hH := chunked_fst_congr (tr := tr) (stride := stride) (h := initialH seeded s) hpacked
    (chunkCount stride s.nameLen.toNat)
  exact ⟨_, _, hh.readable hmin hmax halg hb hpos hread seeded,
    hh.readable (hlen ▸ hmin) (hlen ▸ hmax) halg hb hpos hread' seeded,
    by simp only [okState, chunkHashed, hlen, hinit, hH],
    by simp only [okState, chunkHashed, hlen, hinit, hH], rfl, rfl⟩

/-- Settles O31: MAJOR and MINOR come from the first H, the packed chunks and the Legacy bytes only. -/
theorem hashDependsOnNameAndSeed : Obligations.HashDependsOnNameAndSeed := by
  intro alg seeded s s' halg hmin hmax hlen hcombine hseed hname
  have hread : NameReadable s s.nameLen.toNat := fun k hk => (hname k hk).1
  have hread' : NameReadable s' s'.nameLen.toNat := fun k hk => (hname k (hlen ▸ hk)).2.1
  have hbytes : ∀ k, k < s.nameLen.toNat →
      widened (unsignedOf alg) (nameByte s' k) = widened (unsignedOf alg) (nameByte s k) :=
    fun k hk => by rw [(hname k hk).2.2]
  have hpacked := packed_of_bytes hlen hcombine hbytes
  have hinit : initialH seeded s' = initialH seeded s := by
    cases seeded with
    | false => rfl
    | true => exact hseed rfl
  obtain hmod | hmod | hmod : alg % 3 = 0 ∨ alg % 3 = 1 ∨ alg % 3 = 2 := by omega
  · refine ⟨_, _, exec_hash_legacy_readable hmin hmax halg hmod hread seeded,
      exec_hash_legacy_readable (hlen ▸ hmin) (hlen ▸ hmax) halg hmod hread' seeded, ?_, rfl, rfl, rfl⟩
    simp only [okState, hlen, legacySpec_congr hbytes]
  · exact (hashesChunks_md4 hmod).sameHash hmin hmax halg transforms_md4 (by decide) hlen hinit hread hread'
      hpacked
  · exact (hashesChunks_tea hmod).sameHash hmin hmax halg transforms_tea (by decide) hlen hinit hread hread'
      hpacked

/-- Settles O32: the Legacy hash never looks at H. -/
theorem legacyIgnoresSeed : Obligations.LegacyIgnoresSeed := by
  intro alg s seed halg hmin hmax hread
  have hmod : alg % 3 = 0 := by omega
  exact ⟨_, _, exec_hash_legacy_readable hmin hmax (by omega) hmod hread false,
    exec_hash_legacy_readable (s := { s with seed := seed }) hmin hmax (by omega) hmod hread true,
    rfl, rfl, rfl, rfl, rfl, rfl⟩

/-! ### The pipeline commands (R57 to R61) -/

theorem exec_hinit (seeded : Bool) (s : State) :
    exec (.hinit seeded) s = .next (okState false { s with h := initialH seeded s }) := rfl

/-- The command is one block transform (R59, R60). -/
def RunsBlock (i : Instr) (tr : Vector Word 4 → Vector Word 8 → Vector Word 4) : Prop :=
  ∀ s, exec i s = .next (okState false { s with h := tr s.h s.w })

theorem runsBlock_hmd4 : RunsBlock .hmd4 md4Spec := fun s => by
  rw [exec_eq, engineRun, runHmd4, Run.update, transforms_md4]
  rfl

theorem runsBlock_htea : RunsBlock .htea teaSpec := fun s => by
  rw [exec_eq, engineRun, runHtea, Run.update, transforms_tea]
  rfl

theorem hfinOk_iff {alg : Nat} : hfinOk alg = true ↔ alg ≤ 5 ∧ alg % 3 ≠ 0 := by
  have hfamily : familyOf alg ≠ .legacy ↔ alg % 3 ≠ 0 := by
    unfold familyOf
    split
    · next h => simp [h]
    · next h => simp [h]
    · next h _ => simpa using h
  rw [hfinOk, algOk, Bool.and_eq_true, decide_eq_true_iff, decide_eq_true_iff, hfamily]

/-- HFIN with this id selects H[i] and H[j] (R61). -/
def FinSelects (alg : Nat) (i j : Fin 4) : Prop :=
  ∀ s, exec (.hfin alg) s = .next (okState false { s with major := posted s.h[i], minor := s.h[j] })

theorem finSelects_tea {alg : Nat} (halg : alg ≤ 5) (hmod : alg % 3 = 2) : FinSelects alg 0 1 := fun s => by
  rw [exec_eq, engineRun, runHfin, if_pos (hfinOk_iff.2 ⟨halg, by omega⟩), familyOf_tea hmod]
  rfl

theorem finSelects_md4 {alg : Nat} (halg : alg ≤ 5) (hmod : alg % 3 = 1) : FinSelects alg 1 2 := fun s => by
  rw [exec_eq, engineRun, runHfin, if_pos (hfinOk_iff.2 ⟨halg, by omega⟩), familyOf_md4 hmod]
  rfl

theorem hfin_refused {alg : Nat} (hfit : alg < 16) (h : 5 < alg ∨ alg % 3 = 0) (s : State) :
    exec (.hfin alg) s = .next (refusedState (hashWord 0x15 alg false) s) := by
  have hbad : ¬ hfinOk alg = true := by
    rw [hfinOk_iff]
    omega
  exact (exec_of_notsup (i := .hfin alg) (decide_eq_true hfit) (if_neg hbad)).1

/-- Settles O19: the model's `post` is the rule's, and masking bit 0 and the remap exclude the two values. -/
theorem postProcessing : Obligations.PostProcessing :=
  fun m => ⟨post_eq m, post_even m, post_ne_sentinel m⟩

/-- Settles O20: the state setup of the model is the rule's, and nothing else happens. -/
theorem hinitSetsState : Obligations.HinitSetsState := ⟨rfl, rfl, exec_hinit⟩

/-- Settles O23: HMD4 is the model's block transform, which is the rule's. -/
theorem hmd4TransformsBlock : Obligations.Hmd4TransformsBlock := ⟨rfl, runsBlock_hmd4⟩

/-- Settles O24: HTEA is the model's block transform, which is the rule's. -/
theorem hteaTransformsBlock : Obligations.HteaTransformsBlock := ⟨rfl, runsBlock_htea⟩

/-- Settles O25: HFIN by the family of its id. -/
theorem hfinSelectsResult : Obligations.HfinSelectsResult := by
  intro alg s hfit
  have hwf : (Instr.hfin alg).wellFormed = true := decide_eq_true hfit
  exact ⟨(hashWord_eq_encode hwf).symm, fun h => hfin_refused hfit h s,
    fun h => finSelects_tea (by omega) (by omega) s, fun h => finSelects_md4 (by omega) (by omega) s⟩

/-- Settles O26: unsupported operands are refused before the state setup. -/
theorem hashFastFailure : Obligations.HashFastFailure := by
  intro alg seeded s hfit h
  have hbad : ¬ s.hashOk alg = true := by
    rw [State.hashOk_iff]
    omega
  exact exec_of_notsup (i := .hash alg seeded) (decide_eq_true hfit) (if_neg hbad)

/-! ### The hash by its pipeline commands (R62 item 1) -/

theorem after_of_exec {i : Instr} {s t : State} (h : exec i s = .next t) : after i s = t := by
  rw [after, h]

/-- The state between two pipeline commands: the last one completed, and NAME_OFF, H and W were written. -/
def pipelineState (s : State) (o : Word) (v : Vector Word 4 × Vector Word 8) : State :=
  okState false { s with nameOff := o, h := v.1, w := v.2 }

section
variable {s : State} {alg stride : Nat} {cmd : Instr} {tr : Vector Word 4 → Vector Word 8 → Vector Word 4}
  {h : Vector Word 4}

theorem after_hprep (hmin : 1 ≤ s.nameLen.toNat) (hmax : s.nameLen.toNat ≤ 255) (halg : alg ≤ 5)
    (hread : NameReadable s s.nameLen.toNat) {o : Word} (hoff : o.toNat < s.nameLen.toNat)
    (v : Vector Word 4 × Vector Word 8) :
    after (.hprep alg) (pipelineState s o v) =
      pipelineState s o (v.1, packed s o.toNat (unsignedOf alg)) := by
  have hin : o.toNat + chunkLen s o.toNat ≤ s.nameLen.toNat := by
    unfold chunkLen
    omega
  exact after_of_exec
    (exec_hprep_readable (s := pipelineState s o v) hmin hmax halg hoff (hread.chunk hin))

theorem RunsBlock.after_eq (hcmd : RunsBlock cmd tr) (o : Word) (v : Vector Word 4 × Vector Word 8) :
    after cmd (pipelineState s o v) = pipelineState s o (tr v.1 v.2, v.2) := after_of_exec (hcmd _)

/-- NAME_OFF <- off, HPREP, then the block command do one chunk of HASH (R56, R58 to R60). -/
theorem pipelineChunks_succ (hmin : 1 ≤ s.nameLen.toNat) (hmax : s.nameLen.toNat ≤ 255) (halg : alg ≤ 5)
    (hread : NameReadable s s.nameLen.toNat) (hcmd : RunsBlock cmd tr) {c : Nat}
    (hoff : stride * c < s.nameLen.toNat) (count : Nat) (o : Word) :
    pipelineChunks alg stride cmd (count + 1) (stride * c)
        (pipelineState s o (chunked tr stride (unsignedOf alg) s h c)) =
      pipelineChunks alg stride cmd count (stride * (c + 1))
        (pipelineState s (BitVec.ofNat 32 (stride * c))
          (chunked tr stride (unsignedOf alg) s h (c + 1))) := by
  have hword : (BitVec.ofNat 32 (stride * c)).toNat = stride * c := by
    rw [BitVec.toNat_ofNat]
    omega
  have hunfold : pipelineChunks alg stride cmd (count + 1) (stride * c)
      (pipelineState s o (chunked tr stride (unsignedOf alg) s h c)) =
      pipelineChunks alg stride cmd count (stride * (c + 1))
        (after cmd (after (.hprep alg) (pipelineState s (BitVec.ofNat 32 (stride * c))
          (chunked tr stride (unsignedOf alg) s h c)))) := rfl
  rw [hunfold, after_hprep hmin hmax halg hread (by omega), hcmd.after_eq, hword, chunked_succ]

theorem pipelineChunks_readable (hmin : 1 ≤ s.nameLen.toNat) (hmax : s.nameLen.toNat ≤ 255)
    (halg : alg ≤ 5) (hread : NameReadable s s.nameLen.toNat) (hcmd : RunsBlock cmd tr) {count c : Nat}
    (hoff : ∀ i, i < c + count → stride * i < s.nameLen.toNat) (o : Word) :
    ∃ o', pipelineChunks alg stride cmd count (stride * c)
        (pipelineState s o (chunked tr stride (unsignedOf alg) s h c)) =
      pipelineState s o' (chunked tr stride (unsignedOf alg) s h (c + count)) := by
  induction count generalizing c o with
  | zero => exact ⟨o, rfl⟩
  | succ count ih =>
    rw [pipelineChunks_succ hmin hmax halg hread hcmd (hoff c (by omega)), ← Nat.add_assoc,
      Nat.add_right_comm]
    exact ih (fun i hi => hoff i (by omega)) _

/-- The pipeline leaves H, W, MAJOR and MINOR as HASH does (R62 item 1). -/
theorem HashesChunks.pipeline_eq {block : State → State} {i j : Fin 4} (hmin : 1 ≤ s.nameLen.toNat)
    (hmax : s.nameLen.toNat ≤ 255) (halg : alg ≤ 5) (hread : NameReadable s s.nameLen.toNat)
    (hh : HashesChunks alg stride block i j) (hb : Transforms block tr) (hs : 0 < stride)
    (hcmd : RunsBlock cmd tr) (hfin : FinSelects alg i j) (seeded : Bool) :
    ∃ t, exec (.hash alg seeded) s = .next t ∧
      t.h = (pipeline alg seeded stride cmd s).h ∧ t.w = (pipeline alg seeded stride cmd s).w ∧
      t.major = (pipeline alg seeded stride cmd s).major ∧
      t.minor = (pipeline alg seeded stride cmd s).minor := by
  refine ⟨_, hh.readable hmin hmax halg hb hs hread seeded, ?_⟩
  obtain ⟨o, hreach⟩ := pipelineChunks_readable (count := chunkCount stride s.nameLen.toNat) (c := 0)
    (h := initialH seeded s) hmin hmax halg hread hcmd (fun i hi => lt_of_lt_chunkCount hs (by omega))
    s.nameOff
  have hinit : after (.hinit seeded) s = pipelineState s s.nameOff (initialH seeded s, s.w) :=
    after_of_exec (exec_hinit seeded s)
  have hchunks : pipelineChunks alg stride cmd ((s.nameLen.toNat + stride - 1) / stride) 0
      (after (.hinit seeded) s) =
      pipelineState s o (chunked tr stride (unsignedOf alg) s (initialH seeded s)
        (chunkCount stride s.nameLen.toNat)) := by
    rw [hinit, ← Nat.zero_add (chunkCount ..)]
    exact hreach
  rw [pipeline, hchunks, after_of_exec (hfin _)]
  exact ⟨rfl, rfl, rfl, rfl⟩

end

/-- Settles O29: each command of the pipeline does its part of HASH. -/
theorem pipelineEqualsHash : Obligations.PipelineEqualsHash := by
  intro alg seeded s hmin hmax hread
  refine ⟨fun halg => ?_, fun halg => ?_⟩
  · have hle : alg ≤ 5 := by omega
    have hmod : alg % 3 = 1 := by omega
    exact (hashesChunks_md4 hmod).pipeline_eq hmin hmax hle hread transforms_md4 (by decide) runsBlock_hmd4
      (finSelects_md4 hle hmod) seeded
  · have hle : alg ≤ 5 := by omega
    have hmod : alg % 3 = 2 := by omega
    exact (hashesChunks_tea hmod).pipeline_eq hmin hmax hle hread transforms_tea (by decide) runsBlock_htea
      (finSelects_tea hle hmod) seeded

end Sys2Proof.Machine
end

section
/-! PROOFS. The system commands and the host's transactions (spec/42_system.md): the register window as the
map of R10 shows it, NOP, CLRST and SRST (R63 to R65), reads and writes while Idle (R66, R67), and accesses of
another shape (R68). -/

namespace Sys2Proof.Machine

open Sys2Proof.Claims

/-! ### The map of R10 -/

theorem Reg.mem_all (r : Reg) : r ∈ Reg.all := by
  cases r with
  | seed k | h k | w k => revert k; decide
  | id | ctrl | status | cmd | bmBase | bmLen | arg0 | arg1 | result | errinfo => decide
  | nameBase | nameLen | nameOff | major | minor => decide

/-- The window decodes an offset to the register that has it in the map, and to no other (R10). -/
theorem Reg.atOffset_eq_some_iff {o : BitVec 8} {r : Reg} : Reg.atOffset o = some r ↔ r.offset = o.toNat := by
  refine ⟨Reg.offset_of_atOffset, fun h => ?_⟩
  have hmap : ∀ q ∈ Reg.all, Reg.atOffset (BitVec.ofNat 8 q.offset) = some q := by decide
  have ho : o = BitVec.ofNat 8 r.offset := by rw [h, BitVec.ofNat_toNat, BitVec.setWidth_eq]
  rw [ho]
  exact hmap r r.mem_all

theorem Reg.offset_lt (r : Reg) : r.offset < 2 ^ 8 := by
  have hmap : ∀ q ∈ Reg.all, q.offset < 2 ^ 8 := by decide
  exact hmap r r.mem_all

theorem Reg.offset_injective : Function.Injective Reg.offset := by
  intro q r h
  have hr : (BitVec.ofNat 8 r.offset).toNat = r.offset := by
    rw [BitVec.toNat_ofNat, Nat.mod_eq_of_lt r.offset_lt]
  have hq : Reg.atOffset (BitVec.ofNat 8 r.offset) = some q := Reg.atOffset_eq_some_iff.2 (h.trans hr.symm)
  exact Option.some.inj (hq.symm.trans (Reg.atOffset_eq_some_iff.2 hr.symm))

/-! ### What the window shows (R10, R66) -/

/-- At a register's offset the window shows what the register holds. -/
theorem visible_offset (s : State) (r : Reg) : visible s r.offset = s.readReg r := by
  cases r with
  | status => exact s.statusWord_eq.symm
  | id | ctrl | cmd | bmBase | bmLen | arg0 | arg1 | result | errinfo => rfl
  | nameBase | nameLen | nameOff | major | minor => rfl
  | seed k | h k | w k => fin_cases k <;> rfl

/-- A reserved offset shows 0. -/
theorem visible_of_reserved {p : Nat} (h : ∀ r : Reg, r.offset ≠ p) (s : State) : visible s p = 0#32 := by
  have hp : p ∉ Reg.all.map Reg.offset := by simpa using fun r _ => h r
  unfold visible
  split
  case h_31 => rfl
  all_goals exact absurd (by decide) hp

theorem resetVisible_of_reserved {p : Nat} (h : ∀ r : Reg, r.offset ≠ p) : resetVisible p = 0#32 := by
  have hp : p ∉ Reg.all.map Reg.offset := by simpa using fun r _ => h r
  unfold resetVisible
  split
  case h_6 => rfl
  all_goals exact absurd (by decide) hp

/-- An offset is a register's or reserved. -/
theorem offset_cases (p : Nat) : (∃ r : Reg, r.offset = p) ∨ ∀ r : Reg, r.offset ≠ p := by
  simpa using em (∃ r : Reg, r.offset = p)

@[simp] theorem visible_withPending (l : List Turn) (s : State) (p : Nat) :
    visible (s.withPending l) p = visible s p := rfl

/-- After a reset the window shows the reset column of R10 (R85). -/
theorem visible_resetRegisters (s : State) (p : Nat) : visible s.resetRegisters p = resetVisible p := by
  rcases offset_cases p with ⟨r, rfl⟩ | h
  · cases r with
    | id | ctrl | status | cmd | bmBase | bmLen | arg0 | arg1 | result | errinfo => rfl
    | nameBase | nameLen | nameOff | major | minor => rfl
    | seed k | h k | w k => fin_cases k <;> rfl
  · rw [visible_of_reserved h, resetVisible_of_reserved h]

/-- Completing with no error just after a reset shows in STATUS alone, as DONE (R65, R73). -/
theorem visible_complete_resetRegisters (s : State) (p : Nat) :
    visible (s.resetRegisters.complete false) p = if p = 0x008 then 0x00000002#32 else resetVisible p := by
  rw [← visible_resetRegisters s]
  rcases offset_cases p with ⟨r, rfl⟩ | h
  · cases r with
    | seed k | h k | w k => fin_cases k <;> rfl
    | id | ctrl | status | cmd | bmBase | bmLen | arg0 | arg1 | result | errinfo => rfl
    | nameBase | nameLen | nameOff | major | minor => rfl
  · have hstatus : p ≠ 0x008 := (h .status).symm
    rw [if_neg hstatus, visible_of_reserved h, visible_of_reserved h]

/-! ### Writes while BUSY (R89) -/

theorem State.isBusy_of_busy {s : State} {c : Word} (h : s.phase = .busy c) : s.isBusy = true := by
  simp only [State.isBusy, h]

/-- While BUSY a write to any offset but CTRL's is dropped. -/
theorem State.portWrite_of_busy {s : State} {c : Word} {o : BitVec 8} (hs : s.phase = .busy c)
    (ho : o ≠ 0x04#8) (v : Word) : s.portWrite o v = s.dropWrite := by
  simp [State.portWrite, State.isBusy_of_busy hs, ho]

theorem step_of_pending_write_busy {s : State} {c : Word} {agent : Agent} {o : BitVec 8} {v : Word}
    {rest : List Turn} (hs : s.phase = .busy c) (ho : o.toNat % 4 = 0) (hctrl : o ≠ 0x04#8)
    (h : s.pending = writes agent o v :: rest) : step s = .next { s with pending := rest, whb := true } := by
  have hbusy : (s.withPending rest).phase = .busy c := hs
  rw [step_of_pending_write h ho, State.portWrite_of_busy hbusy hctrl]
  rfl

/-! ### NOP, CLRST and SRST -/

/-- Settles O33: NOP's body does nothing. -/
theorem nopOnlyCompletes : Obligations.NopOnlyCompletes :=
  ⟨rfl, fun s => exec_eq .nop s⟩

theorem exec_clrst (s : State) : exec .clrst s = .next (okState false s) := exec_eq .clrst s

/-- The engine's step on CLRST's word only completes: WHB stays as it is (R64). -/
theorem step_of_clrst {s : State} (hs : s.phase = .busy 0x00000021#32) (h : s.pending = []) :
    step s = .next (okState false s) := by
  have hclrst : decode 0x00000021#32 = .command .clrst := decode_encode (i := .clrst) rfl
  rw [step_of_pending_nil h, engineTurn_of_busy hs, engineStep_of_command hclrst, exec_clrst]

/-- Settles O34: a write of CMD is accepted, a write while BUSY is dropped, and the completion keeps the WHB
that the dropped write has set. -/
theorem clrstClearsWhbAtAcceptance : Obligations.ClrstClearsWhbAtAcceptance := by
  refine ⟨rfl, exec_clrst, fun s agent rest hs h => ?_, fun s agent o v hs ho hctrl h => ?_⟩
  · exact cmdWriteAccepted s agent 0x00000021#32 rest hs h
  · exact ⟨_, okState false { s with pending := [], whb := true },
      step_of_pending_write_busy hs ho hctrl h, step_of_clrst hs rfl, rfl, rfl⟩

/-- Settles O35: SRST's body is the reset of the registers, and its word is dropped as any other while BUSY. -/
theorem srstResetsRegisters : Obligations.SrstResetsRegisters := by
  refine ⟨rfl, fun s => ⟨s.resetRegisters.complete false, exec_eq .srst s,
    visible_complete_resetRegisters s, rfl, rfl, rfl, rfl, rfl, rfl, rfl, rfl, rfl⟩,
    fun s c agent rest hs h => ?_⟩
  exact step_of_pending_write_busy hs rfl (by decide) h

/-! ### Reads while Idle (R66) -/

/-- While Idle the port answers what the window shows at the offset. -/
theorem State.portRead_of_idle {s : State} (hs : s.phase = .idle) (agent : Agent) (o : BitVec 8) :
    s.portRead agent o = s.answer (.word agent (visible s o.toNat)) := by
  rcases portRead_cases agent o s with ⟨hnone, h⟩ | ⟨r, _, hhidden, _⟩ | ⟨r, hr, _, h⟩
  · have hreserved : ∀ r : Reg, r.offset ≠ o.toNat := fun r hr => by
      rw [Reg.atOffset_eq_some_iff.2 hr] at hnone
      contradiction
    rw [h, visible_of_reserved hreserved]
  · rw [State.isBusy_of_idle hs] at hhidden
    contradiction
  · rw [h, ← Reg.offset_of_atOffset hr, visible_offset]

/-- A 32-bit read at an aligned offset is served by the register port (R66, R68). -/
theorem step_of_pending_read {s : State} {agent : Agent} {o : BitVec 8} {rest : List Turn}
    (h : s.pending = reads agent o :: rest) (ho : o.toNat % 4 = 0) :
    step s = .next ((s.withPending rest).portRead agent o) := by
  have hserved : portServes .bits32 o = true := by simp [portServes, ho]
  rw [step_of_pending_external h]
  exact hostRead_next_iff.2 ⟨hserved, rfl⟩

/-- Settles O49: the answer is what the window shows, and answering changes nothing else. -/
theorem idleReads : Obligations.IdleReads := by
  intro s agent o rest hs ho h
  have hidle : (s.withPending rest).phase = .idle := hs
  rw [step_of_pending_read h ho, State.portRead_of_idle hidle, visible_withPending]
  rfl

/-! ### Writes of RW registers while Idle (R67) -/

/-- A RW register keeps all 32 bits of a write; CTRL has bits of its own (R12). -/
theorem State.readReg_writeReg_same {r : Reg} (hmode : r.mode = .readWrite) (hctrl : r ≠ .ctrl) (v : Word)
    (s : State) : (s.writeReg v r).readReg r = v := by
  cases r with
  | ctrl | id | status | cmd | result | errinfo | major | minor => contradiction
  | bmBase | bmLen | arg0 | arg1 | nameBase | nameLen | nameOff => rfl
  | seed k | h k | w k => exact Vector.getElem_set_self k.isLt

/-- Only writes of CTRL and CMD have an effect on a register other than the one written: on STATUS. -/
theorem State.readReg_writeReg_other {q r : Reg} (hctrl : r ≠ .ctrl) (hcmd : r ≠ .cmd) (hne : q ≠ r)
    (v : Word) (s : State) : (s.writeReg v r).readReg q = s.readReg q := by
  cases r with
  | ctrl | cmd => contradiction
  | id | status | result | errinfo | major | minor => rfl
  | bmBase | bmLen | arg0 | arg1 | nameBase | nameLen | nameOff => cases q <;> trivial
  | seed k =>
    cases q with
    | seed j => exact Vector.getElem_set_ne k.isLt j.isLt fun h => hne (congrArg Reg.seed (Fin.ext h.symm))
    | _ => rfl
  | h k =>
    cases q with
    | h j => exact Vector.getElem_set_ne k.isLt j.isLt fun h => hne (congrArg Reg.h (Fin.ext h.symm))
    | _ => rfl
  | w k =>
    cases q with
    | w j => exact Vector.getElem_set_ne k.isLt j.isLt fun h => hne (congrArg Reg.w (Fin.ext h.symm))
    | _ => rfl

theorem visible_writeReg {r : Reg} (hmode : r.mode = .readWrite) (hctrl : r ≠ .ctrl) (v : Word) (s : State)
    (p : Nat) : visible (s.writeReg v r) p = if p = r.offset then v else visible s p := by
  rcases offset_cases p with ⟨q, rfl⟩ | h
  · rw [visible_offset, visible_offset]
    by_cases hq : q = r
    · subst hq
      rw [if_pos rfl, State.readReg_writeReg_same hmode hctrl]
    · have hcmd : r ≠ .cmd := by
        rintro rfl
        contradiction
      rw [if_neg (Reg.offset_injective.ne hq), State.readReg_writeReg_other hctrl hcmd hq]
  · rw [if_neg (h r).symm, visible_of_reserved h, visible_of_reserved h]

/-- A write of a register other than CMD, which is accepted as a command, concerns registers only. -/
theorem State.writeReg_frame {r : Reg} (hcmd : r ≠ .cmd) (v : Word) (s : State) :
    (s.writeReg v r).mem = s.mem ∧ (s.writeReg v r).phase = s.phase ∧
      (s.writeReg v r).platform = s.platform ∧ (s.writeReg v r).unclean = s.unclean ∧
      (s.writeReg v r).stale = s.stale ∧ (s.writeReg v r).fresh = s.fresh ∧
      (s.writeReg v r).draws = s.draws ∧ (s.writeReg v r).reply = s.reply ∧
      (s.writeReg v r).pending = s.pending := by
  cases r with
  | cmd => contradiction
  | _ => exact ⟨rfl, rfl, rfl, rfl, rfl, rfl, rfl, rfl, rfl⟩

/-- `rwOffsets` lists offsets of RW registers other than CTRL (R10). -/
theorem Reg.exists_of_mem_rwOffsets {p : Nat} (h : p ∈ rwOffsets) :
    ∃ r : Reg, r.offset = p ∧ r.mode = .readWrite ∧ r ≠ .ctrl := by
  have hmap : ∀ p ∈ rwOffsets, ∃ r ∈ Reg.all, r.offset = p ∧ r.mode = .readWrite ∧ r ≠ .ctrl := by decide
  obtain ⟨r, _, hr⟩ := hmap p h
  exact ⟨r, hr⟩

theorem aligned_of_mem_rwOffsets {p : Nat} (h : p ∈ rwOffsets) : p % 4 = 0 := by
  have hmap : ∀ p ∈ rwOffsets, p % 4 = 0 := by decide
  exact hmap p h

/-- Settles O51: the offset is that of a register that stores the word written and has no other effect. -/
theorem rwRegistersKeepWrites : Obligations.RwRegistersKeepWrites := by
  intro s agent o v rest hs ho h
  obtain ⟨r, hoffset, hmode, hctrl⟩ := Reg.exists_of_mem_rwOffsets ho
  have hidle : (s.withPending rest).phase = .idle := hs
  have hstep : step s = .next ((s.withPending rest).writeReg v r) := by
    rw [step_of_pending_write h (aligned_of_mem_rwOffsets ho),
      State.portWrite_of_idle hidle (Reg.atOffset_eq_some_iff.2 hoffset)]
  have hcmd : r ≠ .cmd := by
    rintro rfl
    contradiction
  obtain ⟨hmem, hphase, hframe⟩ := State.writeReg_frame hcmd v (s.withPending rest)
  refine ⟨_, hstep, fun p => ?_, hmem, hphase.trans hidle, hframe⟩
  rw [visible_writeReg hmode hctrl, hoffset, visible_withPending]

/-! ### Accesses of another shape (R68, R94) -/

theorem portServes_of_misshapen {width : Width} {o : BitVec 8} (h : width ≠ .bits32 ∨ o.toNat % 4 ≠ 0) :
    portServes width o = false := by
  rcases h with hwidth | halign
  · simp [portServes, hwidth]
  · simp [portServes, halign]

theorem hostRead_of_not_served {width : Width} {o : BitVec 8} (h : portServes width o = false)
    (agent : Agent) (s : State) : hostRead agent width o s = .fault (.hostAccess agent width o) := by
  simp [hostRead, h]

theorem hostWrite_of_not_served {width : Width} {o : BitVec 8} (h : portServes width o = false)
    (agent : Agent) (v : Word) (s : State) :
    hostWrite agent width o v s = .fault (.hostAccess agent width o) := by
  simp [hostWrite, h]

/-- No step leads on from a state whose step is a model fault. -/
theorem Reaches.eq_of_fault {s t : State} {f : Fault} (hf : step s = .fault f) (h : Reaches s t) : t = s := by
  induction h with
  | refl => rfl
  | tail _ hstep ih =>
    subst ih
    rw [hf] at hstep
    contradiction

/-- A run that meets a model fault with the turn still pending does not end successfully (R94). -/
theorem not_endsSuccessfully_of_fault {s : State} {f : Fault} (hf : step s = .fault f)
    (hpending : s.pending ≠ []) (t : State) : ¬ EndsSuccessfully s t := by
  rintro ⟨hreach, hend, _⟩
  rw [hreach.eq_of_fault hf] at hend
  exact hpending hend

/-- Settles O53: the port serves neither the read nor the write, and no step leads on from the fault. -/
theorem misshapenAccessFaults : Obligations.MisshapenAccessFaults := by
  intro s agent width o v rest hshape h
  have hserved : portServes width o = false := portServes_of_misshapen hshape
  have hfault : step s = .fault (.hostAccess agent width o) := by
    rcases h with h | h
    · exact (step_of_pending_external h).trans (hostRead_of_not_served hserved agent _)
    · exact (step_of_pending_external h).trans (hostWrite_of_not_served hserved agent v _)
  have hpending : s.pending ≠ [] := by
    rcases h with h | h <;> simp [h]
  exact ⟨hfault, not_endsSuccessfully_of_fault hfault hpending⟩

end Sys2Proof.Machine
end

section
/-! PROOFS. Exceptions and the interrupt (spec/60_exceptions.md): the interrupt output is a level, and what
raises and lowers it is what sets and clears DONE and IRQEN (R76, R14). -/

namespace Sys2Proof.Machine

/-- The interrupt output is a level, not an event (R76). -/
theorem State.irq_iff (s : State) : s.irq = true ↔ s.irqen = true ∧ s.done = true := by
  simp only [State.irq, Bool.and_eq_true]

/-- With DONE set the level is the enable. -/
theorem State.irq_of_done {s : State} (h : s.done = true) : s.irq = s.irqen := by
  rw [State.irq, h, Bool.and_true]

theorem State.irq_of_not_done {s : State} (h : s.done = false) : s.irq = false := by
  rw [State.irq, h, Bool.and_false]

theorem State.irq_of_not_irqen {s : State} (h : s.irqen = false) : s.irq = false := by
  rw [State.irq, h, Bool.false_and]

/-- Every completion sets DONE (R72, R73), and no command but SRST writes CTRL (R10). -/
theorem exec_irq {i : Instr} {s t : State} (hi : i ≠ .srst) (h : exec i s = .next t) : t.irq = s.irqen := by
  obtain ⟨_, hdone, _⟩ := completionFlags i s t h
  obtain ⟨hregs, _⟩ := commandsWriteOnlyTheirRegisters i s t h
  obtain ⟨hirqen, _⟩ := hregs hi
  rw [State.irq_of_done hdone, hirqen]

/-- A CTRL write lowers the interrupt by acknowledging DONE or by clearing IRQEN (R12, R76). -/
theorem State.writeCtrl_irq {s : State} {v : Word} (h : v.getLsbD 1 = true ∨ v.getLsbD 0 = false) :
    (s.writeCtrl v).irq = false := by
  rcases h with hack | hmask
  · have hdone : (s.writeCtrl v).done = false := by simp [hack]
    exact State.irq_of_not_done hdone
  · exact State.irq_of_not_irqen ((s.writeCtrl_irqen v).trans hmask)

/-- Acceptance clears DONE (R14). -/
theorem State.accept_irq (s : State) (c : Word) : (s.accept c).irq = false :=
  State.irq_of_not_done (s.accept_done c)

/-- Settles O55: raised by DONE at a completion, lowered by whatever clears DONE or IRQEN. -/
theorem interruptLevel : Obligations.InterruptLevel :=
  ⟨State.irq_iff, fun _ _ _ hi h => exec_irq hi h, fun _ _ h => State.writeCtrl_irq h, State.accept_irq⟩

end Sys2Proof.Machine
end

section
/-! PROOFS. How many accesses a command performs (spec/70_reset_and_hazards.md R91): one bound for each
operation of the engine, added up along the sequence of a command. -/

namespace Sys2Proof.Machine

open Sys2Proof.Claims

/-! ### Bounds on a run's accesses -/

/-- The run went on by at most `n` accesses. -/
def AtMost (n : Nat) (r r' : Run) : Prop := r'.trace.length ≤ r.trace.length + n

theorem AtMost.of_noAccess {r r' : Run} (h : r'.trace = r.trace) (n : Nat) : AtMost n r r' := by
  simp [AtMost, h]

theorem AtMost.mono {m n : Nat} (h : m ≤ n) {r r' : Run} (hr : AtMost m r r') : AtMost n r r' :=
  Nat.le_trans hr (Nat.add_le_add_left h _)

theorem AtMost.trans {m n : Nat} {x y z : Run} (hxy : AtMost m x y) (hyz : AtMost n y z) :
    AtMost (m + n) x z := by
  unfold AtMost at *
  omega

/-- The bounds of two parts in sequence add up; the second part may rely on what the first has answered. -/
theorem Port.andThen_atMost {α β : Type} {m n : Nat} {r : Run} {p : Port α} {f : α → Run → Port β}
    (hp : AtMost m r p.last) (hf : ∀ v r', p = .ok v r' → AtMost n r' (f v r').last) :
    AtMost (m + n) r (p.andThen f).last := by
  cases p with
  | ok v r' => exact hp.trans (hf v r' rfl)
  | busErr info r' => exact hp.mono (Nat.le_add_right m n)

theorem Port.finish_atMost {α : Type} {m n : Nat} {r : Run} {p : Port α} {f : α → Run → Ended}
    (hp : AtMost m r p.last) (hf : ∀ v r', AtMost n r' (f v r').last) :
    AtMost (m + n) r (p.finish f).last := by
  cases p with
  | ok v r' => exact hp.trans (hf v r')
  | busErr info r' => exact hp.mono (Nat.le_add_right m n)

theorem memRead_atMost (a : Nat) (r : Run) : AtMost 1 r (memRead a r).last := by
  rcases memRead_cases a r with ⟨_, h⟩ | ⟨_, h⟩ <;> simp [h, AtMost]

theorem memWrite_atMost (a : Nat) (v : Byte) (r : Run) : AtMost 1 r (memWrite a v r).last := by
  rcases memWrite_cases a v r with ⟨_, h⟩ | ⟨_, h⟩ <;> simp [h, AtMost]

/-! ### The bitmap unit -/

theorem modifyBit_atMost (f : Nat → Byte → Byte) (i : Nat) (r : Run) :
    AtMost 2 r (modifyBit f i r).last := by
  unfold modifyBit
  split
  · exact Port.andThen_atMost (memRead_atMost ..) fun _ _ _ => memWrite_atMost ..
  · exact AtMost.of_noAccess rfl 2

theorem testBit_atMost (f : Bool → Word) (i : Nat) (r : Run) : AtMost 1 r (testBit f i r).last := by
  unfold testBit
  split
  · exact Port.finish_atMost (n := 0) (memRead_atMost ..) fun _ _ => AtMost.of_noAccess rfl 0
  · exact AtMost.of_noAccess rfl 1

/-- Phase 1 of BFREE modifies the bits up to the next byte boundary, at most seven (R44). -/
theorem freeHead_atMost (n i : Nat) (r : Run) :
    AtMost (2 * ((8 - i % 8) % 8)) r (freeHead n i r).last := by
  induction n generalizing i r with
  | zero => exact AtMost.of_noAccess rfl _
  | succ n ih =>
    unfold freeHead
    split
    · exact AtMost.of_noAccess rfl _
    · exact (Port.andThen_atMost (modifyBit_atMost ..) fun _ r' _ => ih (i + 1) r').mono (by omega)

theorem freeTail_atMost (n i : Nat) (r : Run) : AtMost (2 * n) r (freeTail n i r).last := by
  induction n generalizing i r with
  | zero => exact AtMost.of_noAccess rfl _
  | succ n ih =>
    exact (Port.andThen_atMost (modifyBit_atMost ..) fun _ r' _ => ih (i + 1) r').mono (by omega)

/-- A whole byte takes one access inside the buffer and none outside (R44). -/
theorem zeroByte_atMost (k : Nat) (r : Run) :
    AtMost (if k < r.st.bmLen.toNat then 1 else 0) r (zeroByte k r).last := by
  unfold zeroByte
  by_cases hk : k < r.st.bmLen.toNat
  · rw [if_pos (State.inBuffer_iff.2 hk), if_pos hk]
    exact memWrite_atMost ..
  · rw [if_neg (mt State.inBuffer_iff.1 hk)]
    exact AtMost.of_noAccess rfl _

/-- Phase 2 of BFREE writes each of its bytes once, and no byte past the end of the buffer (R44). -/
theorem freeBytes_atMost (q i : Nat) (r : Run) :
    AtMost (min q (r.st.bmLen.toNat - byteOf i)) r (freeBytes q i r).last := by
  induction q generalizing i r with
  | zero => exact AtMost.of_noAccess rfl _
  | succ q ih =>
    have hnext : byteOf (i + 8) = byteOf i + 1 := by simp [byteOf]
    have hframe := zeroByte_memoryOnly (byteOf i) r
    refine (Port.andThen_atMost (zeroByte_atMost ..) (n := min q (r.st.bmLen.toNat - (byteOf i + 1)))
      fun _ r' he => ?_).mono (by split <;> omega)
    rw [he] at hframe
    exact hnext ▸ hframe.bmLen ▸ ih (i + 8) r'

/-- At most seven bits before the whole bytes and seven after them, with two accesses each (R44). -/
theorem freeRange_atMost (i n : Nat) (r : Run) :
    AtMost (28 + min (n / 8) r.st.bmLen.toNat) r (freeRange i n r).last := by
  have hframe := freeHead_memoryOnly n i r
  refine (Port.andThen_atMost (freeHead_atMost ..) (n := min (n / 8) r.st.bmLen.toNat + 14)
    fun (i', n') r' he => ?_).mono (by omega)
  obtain ⟨_, hcount, _⟩ := freeHead_answer he
  rw [he, Port.ok_last] at hframe
  refine (Port.andThen_atMost (freeBytes_atMost ..) fun _ r'' _ => freeTail_atMost ..).mono ?_
  rw [hframe.bmLen]
  have hbytes : n' / 8 ≤ n / 8 := Nat.div_le_div_right (by omega)
  dsimp only
  omega

theorem findClear_atMost (n i : Nat) (r : Run) : AtMost n r (findClear n i r).last := by
  induction n generalizing i r with
  | zero => exact AtMost.of_noAccess rfl 0
  | succ n ih =>
    unfold findClear
    split
    · refine (Port.finish_atMost (n := n) (memRead_atMost ..) fun b r' => ?_).mono (by omega)
      split
      · exact ih (i + 1) r'
      · exact AtMost.of_noAccess rfl n
    · exact AtMost.of_noAccess rfl _

/-! ### The hash unit -/

theorem packBytes_atMost (addr : Nat) (uns : Bool) (pad : Word) (k t j : Nat) (val : Word) (r : Run) :
    AtMost k r (packBytes addr uns pad k t j val r).last := by
  induction k generalizing t j val r with
  | zero => exact AtMost.of_noAccess rfl 0
  | succ k ih =>
    unfold packBytes
    refine (Port.andThen_atMost (n := k) (memRead_atMost ..) fun b r' _ => ?_).mono (by omega)
    dsimp only
    split
    · exact ih ..
    · exact ih ..

/-- A chunk is read byte by byte, up to 32 bytes and to the end of the name (R51). -/
theorem prep_atMost (off : Nat) (uns : Bool) (r : Run) :
    AtMost (min 32 (r.st.nameLen.toNat - off)) r (prep off uns r).last :=
  (Port.andThen_atMost (n := 0) (packBytes_atMost ..) fun _ _ _ => AtMost.of_noAccess rfl 0).mono
    (by omega)

theorem legacyBytes_atMost (addr : Nat) (uns : Bool) (k t : Nat) (r1 r2 : Word) (r : Run) :
    AtMost k r (legacyBytes addr uns k t r1 r2 r).last := by
  induction k generalizing t r1 r2 r with
  | zero => exact AtMost.of_noAccess rfl 0
  | succ k ih =>
    exact (Port.andThen_atMost (n := k) (memRead_atMost ..) fun _ _ _ => ih ..).mono (by omega)

/-- A bound on `count` chunks from `off` that covers the next chunk and the chunks after it (R56). -/
theorem hashChunks_atMost {block : State → State} (hb : BlockOnly block) {stride n : Nat}
    {bound : Nat → Nat → Nat}
    (hbound : ∀ count off, min 32 (n - off) + bound count (off + stride) ≤ bound (count + 1) off)
    (uns : Bool) (count off : Nat) {r : Run} (hr : r.st.nameLen.toNat = n) :
    AtMost (bound count off) r (hashChunks stride block uns count off r).last := by
  induction count generalizing off r with
  | zero => exact AtMost.of_noAccess rfl _
  | succ count ih =>
    have hframe := prep_hashOnly off uns r
    refine (Port.andThen_atMost (prep_atMost ..) fun _ r' he => ?_).mono (hr ▸ hbound count off)
    rw [he, Port.ok_last] at hframe
    obtain ⟨v, hv⟩ := hb r'.st
    have hlen : (block r'.st).nameLen.toNat = n := by
      rw [hv, State.setH_nameLen, hframe.nameLen, hr]
    exact ih (off + stride) (r := r'.update block) hlen

/-- TEA's chunks overlap: 16 bytes further each time, up to 32 bytes read. The other families read each
byte of the name once (R54, R56). -/
theorem hashName_atMost (alg : Nat) {r : Run} (hmax : r.st.nameLen.toNat ≤ 255) :
    AtMost (if alg % 3 = 2 then 16 * 32 else 255) r (hashName alg r).last := by
  obtain hmod | hmod | hmod : alg % 3 = 0 ∨ alg % 3 = 1 ∨ alg % 3 = 2 := by omega
  · rw [hashName_legacy hmod, if_neg (by omega)]
    exact (Port.finish_atMost (n := 0) (legacyBytes_atMost ..) fun _ _ => AtMost.of_noAccess rfl 0).mono
      (by omega)
  · rw [hashesChunks_md4 hmod, if_neg (by omega)]
    have hchunks := hashChunks_atMost md4Block_blockOnly (stride := 32)
      (bound := fun _ off => r.st.nameLen.toNat - off) (by omega) (unsignedOf alg)
      (chunkCount 32 r.st.nameLen.toNat) 0 (r := r) rfl
    exact (Port.finish_atMost (n := 0) hchunks fun _ _ => AtMost.of_noAccess rfl 0).mono (by omega)
  · rw [hashesChunks_tea hmod, if_pos hmod]
    have hcount : chunkCount 16 r.st.nameLen.toNat ≤ 16 := by
      unfold chunkCount
      omega
    have hchunks := hashChunks_atMost teaBlock_blockOnly (stride := 16) (bound := fun count _ => 32 * count)
      (by omega) (unsignedOf alg) (chunkCount 16 r.st.nameLen.toNat) 0 (r := r) rfl
    exact (Port.finish_atMost (n := 0) hchunks fun _ _ => AtMost.of_noAccess rfl 0).mono (by omega)

/-! ### Every command -/

theorem engineRun_atMost (i : Instr) (s : State) :
    AtMost (accessBound s i) (Run.start s) (engineRun i s).last := by
  cases i with
  | bset | bclr =>
    simp only [engineRun, runBset, runBclr, Port.finish_completed_last]
    exact modifyBit_atMost ..
  | btst | btstc =>
    simp only [engineRun, runBtst, runBtstc]
    exact testBit_atMost ..
  | bfree =>
    simp only [engineRun, runBfree, Port.finish_completed_last]
    exact freeRange_atMost ..
  | bfind => exact findClear_atMost ..
  | hash alg seeded =>
    simp only [engineRun, runHash]
    split
    · next hok =>
      obtain ⟨⟨_, hmax⟩, _⟩ := State.hashOk_iff.1 hok
      exact hashName_atMost alg (r := (Run.start s).update (State.initHash seeded)) hmax
    · exact AtMost.of_noAccess rfl _
  | hprep alg =>
    simp only [engineRun, runHprep]
    split
    · rw [Port.finish_completed_last]
      exact (prep_atMost ..).mono (Nat.min_le_left ..)
    · exact AtMost.of_noAccess rfl _
  | hfin alg =>
    simp only [engineRun, runHfin]
    split <;> exact AtMost.of_noAccess rfl _
  | hinit _ | hmd4 | htea | nop | clrst | srst => exact AtMost.of_noAccess rfl _

/-- Settles O41: a command begins with no access performed. -/
theorem accessCountBounded : Obligations.AccessCountBounded := by
  intro i s
  have hbound := engineRun_atMost i s
  rwa [AtMost, Run.start_trace, List.length_nil, Nat.zero_add] at hbound

end Sys2Proof.Machine
end

section
/-! PROOFS. Reset, and what may happen while a command is in progress (spec/70_reset_and_hazards.md): the state
after a reset (R85), reads and writes of the register port while BUSY (R88, R89), accesses of the footprint
(R90), and that an accepted command completes (R91). -/

namespace Sys2Proof.Machine

open Sys2Proof.Claims

/-! ### The register port while BUSY (R88, R89) -/

/-- While BUSY a register that R88 does not hide still answers what the window shows. -/
theorem State.portRead_of_shown {r : Reg} (hr : r.hiddenWhileBusy = false) {o : BitVec 8}
    (ho : r.offset = o.toNat) (agent : Agent) (s : State) :
    s.portRead agent o = s.answer (.word agent (visible s o.toNat)) := by
  simp [State.portRead, Reg.atOffset_eq_some_iff.2 ho, hr, ← ho, visible_offset]

/-- Whatever a read answers, it changes nothing but the reply and the count of drawn values. -/
theorem State.portRead_frame (agent : Agent) (o : BitVec 8) (s : State) :
    ∃ v d, s.portRead agent o = { s with reply := some (.word agent v), draws := d } := by
  rcases portRead_cases agent o s with ⟨_, h⟩ | ⟨_, _, _, h⟩ | ⟨_, _, _, h⟩ <;> exact ⟨_, _, h⟩

theorem Reg.exists_shown {p : Nat} (h : p ∈ [0x000, 0x004, 0x008]) :
    ∃ r : Reg, r.hiddenWhileBusy = false ∧ r.offset = p := by
  have hmap : ∀ p ∈ [0x000, 0x004, 0x008], ∃ r ∈ Reg.all, r.hiddenWhileBusy = false ∧ r.offset = p := by
    decide
  obtain ⟨r, _, hr⟩ := hmap p h
  exact ⟨r, hr⟩

/-- Settles O50: ID, CTRL and STATUS are not hidden, and no read has another effect than its answer. -/
theorem busyReads : Obligations.BusyReads := by
  intro s c agent o rest hs ho h
  rw [step_of_pending_read h ho]
  refine ⟨fun hshown => ?_, ?_⟩
  · obtain ⟨r, hr, hoffset⟩ := Reg.exists_shown hshown
    rw [State.portRead_of_shown hr hoffset, visible_withPending]
    rfl
  · obtain ⟨v, d, hread⟩ := (s.withPending rest).portRead_frame agent o
    exact ⟨v, d, congrArg _ hread⟩

/-- CTRL is written in every phase (R89). -/
theorem State.portWrite_ctrl (v : Word) (s : State) : s.portWrite 0x04#8 v = s.writeCtrl v := by
  have hctrl : Reg.atOffset 0x04#8 = some .ctrl := rfl
  simp [State.portWrite, hctrl, State.writeReg]

/-- Settles O47: a write to any other offset is dropped, and CTRL's has the effect it has while Idle. -/
theorem busyWritesDropped : Obligations.BusyWritesDropped := by
  intro s c agent o v rest hs ho h
  refine ⟨fun hctrl => step_of_pending_write_busy hs ho hctrl h, ?_⟩
  rintro rfl
  rw [step_of_pending_write h ho, State.portWrite_ctrl]
  rfl

/-! ### The footprint of a command in progress (R29, R90) -/

theorem State.inBitmapSpan_offset {s : State} {first last k : Nat} (hfirst : first ≤ k) (hlast : k ≤ last)
    (hlen : k < s.bmLen.toNat) : s.inBitmapSpan first last (s.bmBase.toNat + k) = true := by
  simp only [State.inBitmapSpan, decide_eq_true_eq]
  omega

theorem State.inNameSpan_offset (s : State) (first : Nat) {count k : Nat} (h : k < count) :
    s.inNameSpan first count (s.nameBase.toNat + first + k) = true := by
  simp only [State.inNameSpan, decide_eq_true_eq]
  omega

/-- The model's footprint holds every byte R29 lists. -/
theorem footprint_of_touches {i : Instr} {s : State} {a : Nat} (h : Touches s a i) :
    footprint i s a = true := by
  cases i with
  | bset | bclr | btst | btstc =>
    obtain ⟨hlen, rfl⟩ := h
    exact State.inBitmapSpan_offset (Nat.le_refl _) (Nat.le_refl _) hlen
  | bfree | bfind =>
    obtain ⟨hpos, k, hfirst, hlast, hlen, rfl⟩ := h
    exact Bool.and_eq_true_iff.2 ⟨decide_eq_true hpos, State.inBitmapSpan_offset hfirst hlast hlen⟩
  | hash alg seeded =>
    obtain ⟨hmin, hmax, halg, k, hk, rfl⟩ := h
    have hok : s.hashOk alg = true := State.hashOk_iff.2 ⟨⟨hmin, hmax⟩, halg⟩
    exact Bool.and_eq_true_iff.2 ⟨hok, s.inNameSpan_offset 0 hk⟩
  | hprep alg =>
    obtain ⟨hmin, hmax, halg, hoff, k, hk, rfl⟩ := h
    have hok : s.hprepOk alg = true := State.hprepOk_iff.2 ⟨⟨⟨hmin, hmax⟩, halg⟩, hoff⟩
    exact Bool.and_eq_true_iff.2 ⟨hok, s.inNameSpan_offset _ hk⟩
  | hinit _ | hmd4 | htea | hfin _ | nop | clrst | srst => exact h.elim

theorem State.hazard_of_touches {s : State} {c : Word} {i : Instr} {a : Nat} (hs : s.phase = .busy c)
    (hi : decode c = .command i) (h : Touches s a i) : s.hazard a = true := by
  simp only [State.hazard, hs, wordFootprint, hi]
  exact footprint_of_touches h

theorem memoryAccess_of_hazard {s : State} {addr : Word}
    (hw : Platform.inWindow s.platform addr.toNat = false) (h : s.hazard addr.toNat = true) (agent : Agent)
    (act : State → State) : s.memoryAccess agent addr act = .fault (.footprintHazard agent addr) := by
  simp [State.memoryAccess, hw, h]

/-- A one-byte access in the register window is no aligned 32-bit access (R68). -/
theorem memoryAccess_of_window {s : State} {addr : Word} {o : BitVec 8}
    (h : addr.toNat = s.platform.base.toNat + o.toNat) (agent : Agent) (act : State → State) :
    s.memoryAccess agent addr act = .fault (.hostAccess agent .bits8 o) := by
  have hw : Platform.inWindow s.platform addr.toNat = true := Platform.inWindow_iff.2 (by omega)
  have ho : Platform.windowOffset s.platform addr.toNat = o := by
    simp [Platform.windowOffset, h]
  rw [State.memoryAccess, if_pos hw, ho]

/-- A pending access of system memory that meets a model fault for either kind of access stops the machine. -/
theorem step_of_memoryAccess_fault {s : State} {agent : Agent} {addr : Word} {v : Byte} {rest : List Turn}
    {f : Fault}
    (h : s.pending = .external (.memRead agent addr) :: rest ∨
      s.pending = .external (.memWrite agent addr v) :: rest)
    (hf : ∀ act, (s.withPending rest).memoryAccess agent addr act = .fault f) :
    step s = .fault f ∧ ∀ t, ¬ EndsSuccessfully s t := by
  have hstep : step s = .fault f := by
    rcases h with h | h <;> exact (step_of_pending_external h).trans (hf _)
  have hpending : s.pending ≠ [] := by
    rcases h with h | h <;> simp [h]
  exact ⟨hstep, not_endsSuccessfully_of_fault hstep hpending⟩

/-- Settles O54: the access meets the footprint or the window, and no step leads on from the fault. -/
theorem footprintAccessFaults : Obligations.FootprintAccessFaults := by
  intro s agent addr v rest h
  refine ⟨fun c i hs hi htouch hw => ?_, fun o ho => ?_⟩
  · have hhazard : s.hazard addr.toNat = true := State.hazard_of_touches hs hi htouch
    exact step_of_memoryAccess_fault h (memoryAccess_of_hazard (s := s.withPending rest) hw hhazard agent)
  · exact step_of_memoryAccess_fault h (memoryAccess_of_window (s := s.withPending rest) ho agent)

/-! ### Completion (R91) -/

/-- However a command ends, the engine is Idle with DONE set (R72, R73). -/
@[simp] theorem Ended.state_phase (e : Ended) : e.state.phase = .idle := by cases e <;> rfl

@[simp] theorem Ended.state_done (e : Ended) : e.state.done = true := by cases e <;> rfl

/-- No word's run takes a turn off the pending list. -/
theorem wordRun_pending (c : Word) (s : State) : (wordRun c s).state.pending = s.pending := by
  unfold wordRun
  cases decode c with
  | command i => exact exec_pending (exec_eq i s)
  | illegal why => rfl

theorem fieldBit_succ_getLsbD_zero (b : Bool) (pos : Nat) : (fieldBit b (pos + 1)).getLsbD 0 = false := by
  cases b <;> simp [fieldBit]

/-- Bit 0 of STATUS is BUSY (R13). -/
theorem statusBits_not_busy {s : State} (h : s.phase = .idle) : (statusBits s).getLsbD 0 = false := by
  have herr : (BitVec.ofNat 32 s.err.number <<< 8).getLsbD 0 = false := by simp
  rw [← State.statusWord_eq, State.statusWord, State.isBusy_of_idle h]
  simp only [BitVec.getLsbD_or, fieldBit_succ_getLsbD_zero, herr]
  rfl

/-- Settles O7: the engine's step leaves what the word's run leaves, and a wait that then finds the engine Idle
answers STATUS. -/
theorem acceptedCommandsComplete : Obligations.AcceptedCommandsComplete := by
  intro s c hc
  refine ⟨fun hp => ?_, fun agent rest hp => ?_⟩
  · refine ⟨(wordRun c s).state, ?_, Ended.state_phase _, Ended.state_done _, ?_⟩
    · rw [step_of_pending_nil hp, engineTurn_of_busy hc, engineStep_eq]
    · rw [wordRun_pending, hp]
  · have hidle : (wordRun c s).state.phase = .idle := Ended.state_phase _
    have hcommand : step s = .next (wordRun c s).state := by
      rw [step_of_pending_wait_busy hp hc, engineStep_eq]
    have hwait := step_of_pending_wait_idle ((wordRun_pending c s).trans hp) hidle
    exact ⟨_, _, hcommand, hwait, hidle, rfl, rfl, statusBits_not_busy hidle⟩

/-! ### A command's run and the turns still to come -/

/-- The run with other turns to come. -/
def Run.withPending (l : List Turn) (r : Run) : Run := r.update (State.withPending l)

/-- The same for the run a step of a command leaves. -/
def Port.withPending {α : Type} (l : List Turn) : Port α → Port α
  | .ok v r => .ok v (r.withPending l)
  | .busErr info r => .busErr info (r.withPending l)

/-- The same for the run a command leaves. -/
def Ended.withPending (l : List Turn) : Ended → Ended
  | .completed found r => .completed found (r.withPending l)
  | .raised e info r => .raised e info (r.withPending l)

@[simp] theorem Ended.withPending_trace (l : List Turn) (e : Ended) : (e.withPending l).trace = e.trace := by
  cases e <;> rfl

section
variable {l : List Turn}

theorem Port.withPending_andThen {α β : Type} {p p' : Port α} {f : α → Run → Port β}
    (hp : p' = p.withPending l) (hf : ∀ v r, f v (r.withPending l) = (f v r).withPending l) :
    p'.andThen f = (p.andThen f).withPending l := by
  subst hp
  cases p with
  | ok v r => exact hf v r
  | busErr info r => rfl

theorem Port.withPending_finish {α : Type} {p p' : Port α} {f : α → Run → Ended}
    (hp : p' = p.withPending l) (hf : ∀ v r, f v (r.withPending l) = (f v r).withPending l) :
    p'.finish f = (p.finish f).withPending l := by
  subst hp
  cases p with
  | ok v r => exact hf v r
  | busErr info r => rfl

/-- A function applied in both branches is applied to the choice. It serves every branch of a command, whose
condition the turns to come leave alone. -/
theorem ite_map {α : Type} {c : Prop} [Decidable c] {f : α → α} {x x' y y' : α} (hx : x' = f x)
    (hy : y' = f y) : (if c then x' else y') = f (if c then x else y) := by
  subst hx hy
  exact (apply_ite f c x y).symm

theorem memRead_withPending (a : Nat) (r : Run) :
    memRead a (r.withPending l) = (memRead a r).withPending l := by
  have hafter : (r.st.withPending l).afterRead a = (r.st.afterRead a).withPending l := ite_map rfl rfl
  exact ite_map (congrArg (fun t => Port.ok _ ⟨t, _⟩) hafter) rfl

theorem memWrite_withPending (a : Nat) (v : Byte) (r : Run) :
    memWrite a v (r.withPending l) = (memWrite a v r).withPending l := ite_map rfl rfl

theorem modifyBit_withPending (f : Nat → Byte → Byte) (i : Nat) (r : Run) :
    modifyBit f i (r.withPending l) = (modifyBit f i r).withPending l :=
  ite_map (Port.withPending_andThen (memRead_withPending ..) fun _ _ => memWrite_withPending ..) rfl

theorem testBit_withPending (f : Bool → Word) (i : Nat) (r : Run) :
    testBit f i (r.withPending l) = (testBit f i r).withPending l :=
  ite_map (Port.withPending_finish (memRead_withPending ..) fun _ _ => rfl) rfl

theorem freeHead_withPending (n i : Nat) (r : Run) :
    freeHead n i (r.withPending l) = (freeHead n i r).withPending l := by
  induction n generalizing i r with
  | zero => rfl
  | succ n ih =>
    exact ite_map rfl (Port.withPending_andThen (modifyBit_withPending ..) fun _ r' => ih (i + 1) r')

theorem zeroByte_withPending (k : Nat) (r : Run) :
    zeroByte k (r.withPending l) = (zeroByte k r).withPending l := ite_map (memWrite_withPending ..) rfl

theorem freeBytes_withPending (q i : Nat) (r : Run) :
    freeBytes q i (r.withPending l) = (freeBytes q i r).withPending l := by
  induction q generalizing i r with
  | zero => rfl
  | succ q ih => exact Port.withPending_andThen (zeroByte_withPending ..) fun _ r' => ih (i + 8) r'

theorem freeTail_withPending (n i : Nat) (r : Run) :
    freeTail n i (r.withPending l) = (freeTail n i r).withPending l := by
  induction n generalizing i r with
  | zero => rfl
  | succ n ih => exact Port.withPending_andThen (modifyBit_withPending ..) fun _ r' => ih (i + 1) r'

theorem freeRange_withPending (i n : Nat) (r : Run) :
    freeRange i n (r.withPending l) = (freeRange i n r).withPending l :=
  Port.withPending_andThen (freeHead_withPending ..) fun _ _ =>
    Port.withPending_andThen (freeBytes_withPending ..) fun _ _ => freeTail_withPending ..

theorem findClear_withPending (n i : Nat) (r : Run) :
    findClear n i (r.withPending l) = (findClear n i r).withPending l := by
  induction n generalizing i r with
  | zero => rfl
  | succ n ih =>
    exact ite_map
      (Port.withPending_finish (memRead_withPending ..) fun _ r' => ite_map (ih (i + 1) r') rfl) rfl

theorem packBytes_withPending (addr : Nat) (uns : Bool) (pad : Word) (k t j : Nat) (val : Word) (r : Run) :
    packBytes addr uns pad k t j val (r.withPending l) =
      (packBytes addr uns pad k t j val r).withPending l := by
  induction k generalizing t j val r with
  | zero => rfl
  | succ k ih =>
    refine Port.withPending_andThen (memRead_withPending ..) fun b r' => ?_
    exact ite_map
      (ih _ _ _ (r'.update (State.setWord j (combineLane r'.st.platform.combine (val <<< 8) (widen uns b)))))
      (ih ..)

theorem prep_withPending (off : Nat) (uns : Bool) (r : Run) :
    prep off uns (r.withPending l) = (prep off uns r).withPending l :=
  Port.withPending_andThen (packBytes_withPending ..) fun _ _ => rfl

theorem legacyBytes_withPending (addr : Nat) (uns : Bool) (k t : Nat) (r1 r2 : Word) (r : Run) :
    legacyBytes addr uns k t r1 r2 (r.withPending l) =
      (legacyBytes addr uns k t r1 r2 r).withPending l := by
  induction k generalizing t r1 r2 r with
  | zero => rfl
  | succ k ih => exact Port.withPending_andThen (memRead_withPending ..) fun _ r' => ih _ _ _ r'

theorem hashChunks_withPending {block : State → State}
    (hb : ∀ s, block (s.withPending l) = (block s).withPending l) (stride : Nat) (uns : Bool)
    (count off : Nat) (r : Run) :
    hashChunks stride block uns count off (r.withPending l) =
      (hashChunks stride block uns count off r).withPending l := by
  induction count generalizing off r with
  | zero => rfl
  | succ count ih =>
    refine Port.withPending_andThen (prep_withPending ..) fun _ r' => ?_
    have hblock : (r'.withPending l).update block = (r'.update block).withPending l :=
      congrArg (Run.mk · r'.trace) (hb r'.st)
    exact hblock ▸ ih (off + stride) (r'.update block)

theorem hashName_withPending (alg : Nat) (r : Run) :
    hashName alg (r.withPending l) = (hashName alg r).withPending l := by
  unfold hashName
  cases familyOf alg with
  | legacy => exact Port.withPending_finish (legacyBytes_withPending ..) fun _ _ => rfl
  | md4 =>
    exact Port.withPending_finish (hashChunks_withPending (block := State.md4Block) (fun _ => rfl) ..)
      fun _ _ => rfl
  | tea =>
    exact Port.withPending_finish (hashChunks_withPending (block := State.teaBlock) (fun _ => rfl) ..)
      fun _ _ => rfl

/-- What a command does, and the accesses it performs, do not depend on the turns still to come (R91). -/
theorem engineRun_withPending (i : Instr) (s : State) :
    engineRun i (s.withPending l) = (engineRun i s).withPending l := by
  cases i with
  | bset | bclr => exact Port.withPending_finish (modifyBit_withPending _ _ (Run.start s)) fun _ _ => rfl
  | btst | btstc =>
    simp only [engineRun, runBtst, runBtstc]
    exact testBit_withPending _ _ (Run.start s)
  | bfree => exact Port.withPending_finish (freeRange_withPending _ _ (Run.start s)) fun _ _ => rfl
  | bfind => exact findClear_withPending _ _ (Run.start s)
  | hash alg seeded =>
    exact ite_map (hashName_withPending alg ((Run.start s).update (State.initHash seeded))) rfl
  | hprep alg =>
    exact ite_map (Port.withPending_finish (prep_withPending _ _ (Run.start s)) fun _ _ => rfl) rfl
  | hfin alg =>
    exact ite_map (congrArg (fun t => Ended.completed false ⟨t, []⟩) (ite_map rfl rfl)) rfl
  | hinit _ | hmd4 | htea | nop | clrst | srst => rfl

theorem wordRun_withPending (c : Word) (s : State) :
    wordRun c (s.withPending l) = (wordRun c s).withPending l := by
  unfold wordRun
  cases decode c with
  | command i => exact engineRun_withPending i s
  | illegal why => rfl

end

/-! ### Reset (R85) -/

/-- While BUSY a front part of the command's accesses has been performed, all of them at most. -/
theorem State.hardReset_mem_front {s : State} {c : Word} (hs : s.phase = .busy c) :
    ∃ n, n ≤ (wordRun c s).trace.length ∧
      s.hardReset.mem = replayMemory s.mem ((wordRun c s).trace.take n) := by
  refine ⟨_, Nat.min_le_right (Config.abortedAccesses s.draws) _, ?_⟩
  rw [hardReset_mem_busy hs, ← List.take_eq_take_min]

theorem State.hardReset_mem_idle {s : State} (hs : s.phase = .idle) : s.hardReset.mem = s.mem := by
  simp only [State.hardReset, hs, State.resetRegisters_mem]

/-- In every phase a hardware reset ends with the reset of the registers, and the turns to come stay. -/
theorem State.hardReset_eq (s : State) :
    ∃ u : State, s.hardReset = u.resetRegisters ∧ u.pending = s.pending := by
  unfold State.hardReset
  split
  · exact ⟨s, rfl, rfl⟩
  · refine ⟨_, rfl, ?_⟩
    rw [replayAccess_memoryOnly]

/-- Settles O56: every reset ends with `resetRegisters`, and SRST then completes. -/
theorem hardwareReset : Obligations.HardwareReset := by
  refine ⟨⟨visible_resetRegisters State.reset, rfl, rfl⟩, fun s rest h => ?_, fun s t h => ?_⟩
  · have hplatform := (s.withPending rest).hardReset_platform
    have hidle := State.hardReset_mem_idle (s := s.withPending rest)
    have hbusy := fun c => State.hardReset_mem_front (s := s.withPending rest) (c := c)
    obtain ⟨u, hu, hpending⟩ := (s.withPending rest).hardReset_eq
    rw [hu] at hplatform hidle
    simp only [hu, wordRun_withPending, Ended.withPending_trace] at hbusy
    have hstep : step s = .next u.resetRegisters := (step_of_pending_external h).trans (congrArg _ hu)
    exact ⟨_, hstep, visible_resetRegisters u, rfl, rfl, hpending, hplatform, hidle, hbusy⟩
  · obtain rfl := exec_next_iff.1 h
    exact ⟨visible_complete_resetRegisters s, rfl, rfl, rfl⟩

/-- Settles O57: memory and the bookkeeping are empty, and the registers hold their reset values. -/
theorem invariantAtReset : Obligations.InvariantAtReset where
  memWf := rfl
  majorEven := rfl
  majorNotSentinel := by decide
  busyNotDone := nofun
  foundNoError := nofun
  foundIndex := nofun
  errinfoZero _ := rfl
  uncleanNodup := List.nodup_nil
  staleNodup := List.nodup_nil
  freshNodup := List.nodup_nil

end Sys2Proof.Machine
end
